-- ==== Sys2Proof/Word.lean ====
section
/-! DEFINITION. The byte and the 64-bit storage cell. -/

namespace Sys2Proof

/-- A byte: 8 bits (00_scope.md R9). -/
abbrev Byte := BitVec 8

/-- One 64-bit storage cell. A variant-S word is held in the low 32 bits of a cell whose bits 63..32
are zero (10_state.md R39). -/
abbrev Cell64 := BitVec 64

end Sys2Proof
end

