-- ==== Sys2Proof/Config.lean ====
section
/-! DEFINITION. What is fixed for one block: the two variants, the two modes, the lane-count parameter. -/

namespace Sys2Proof

/-- The word-size variants: S is BLAKE2s (VARIANT = 0), B is BLAKE2b (VARIANT = 1) (00_scope.md R2). -/
inductive Variant where
  | s
  | b
deriving DecidableEq, Repr

/-- The two modes of the engine: sequential (MODE = 0), parallel tree (MODE = 1) (10_state.md R24). -/
inductive Mode where
  | sequential
  | parallel
deriving DecidableEq, Repr

/-- The values LANES_MAX may have: even, 2 to 254 (00_scope.md R7). -/
abbrev LanesMaxLegal (n : Nat) : Prop := n % 2 = 0 ∧ 2 ≤ n ∧ n ≤ 254

/-- The lane-count parameter of the block that `State.reset` describes. DESIGN CHOICE (log entry 1, unsafe):
the spec leaves LANES_MAX open (00_scope.md R7), so the state carries it as a field which no step changes and
every statement holds for every value of that field; 254 is the largest legal value. -/
def lanesMaxOfReset : Nat := 254

end Sys2Proof
end

