-- ==== Sys2Proof/Machine/Params.lean ====
section
/-! DEFINITION. The per-variant constants of 00_scope.md R5. -/

namespace Sys2Proof

/-- W, the word width in bits (00_scope.md R5). -/
def Variant.wordBits : Variant → Nat
  | .s => 32
  | .b => 64

/-- WB, the word width in bytes (00_scope.md R5). -/
def Variant.wordBytes : Variant → Nat
  | .s => 4
  | .b => 8

/-- R, the rounds of one compression (00_scope.md R5; 40_compression.md R108). -/
def Variant.rounds : Variant → Nat
  | .s => 10
  | .b => 12

/-- BB, the block size in bytes (00_scope.md R5). -/
def Variant.blockBytes : Variant → Nat
  | .s => 64
  | .b => 128

/-- NN, the largest digest length in bytes (00_scope.md R5). -/
def Variant.digestBytes : Variant → Nat
  | .s => 32
  | .b => 64

/-- KK, the largest key length in bytes (00_scope.md R5). -/
def Variant.keyBytes : Variant → Nat
  | .s => 32
  | .b => 64

/-- SL, the salt length and the personalization length in bytes (00_scope.md R5; 90_conflicts.md C3). -/
def Variant.saltBytes : Variant → Nat
  | .s => 8
  | .b => 16

/-- OB / 8, the node-offset field's bytes in the parameter block (00_scope.md R5). -/
def Variant.offsetBytes : Variant → Nat
  | .s => 6
  | .b => 8

/-- The rotation amounts of G (00_scope.md R5; 40_compression.md R104). -/
structure Rotations where
  r1 : Nat
  r2 : Nat
  r3 : Nat
  r4 : Nat
deriving DecidableEq, Repr

/-- (r1, r2, r3, r4) of each variant (00_scope.md R5). -/
def Variant.rotations : Variant → Rotations
  | .s => ⟨16, 12, 8, 7⟩
  | .b => ⟨32, 24, 16, 63⟩

/-- ONES_W in a 64-bit cell: the all-one word of the variant (00_scope.md R9). -/
def Variant.ones (v : Variant) : Cell64 := BitVec.ofNat 64 (2 ^ v.wordBits - 1)

end Sys2Proof
end

