-- ==== Sys2Proof/Syntax.lean ====
section
/-! DEFINITION. The nine commands as syntax, and the transaction that carries one. -/

namespace Sys2Proof

/-- One command of the block, one constructor per row of the opcode map (30_encoding.md R78).
The payload of a command is its operand; LEN of WRCFG and ABSORB and KL of KEY are the payload's length
(30_encoding.md R74–R76, R79; log entry 4). -/
inductive Instr where
  /-- WRCFG (45_commands.md R203): write configuration register `reg`. -/
  | wrcfg (reg : BitVec 4) (payload : List Byte)
  /-- RDCFG (R204): read configuration register `reg`. -/
  | rdcfg (reg : BitVec 4)
  /-- INIT (R205): activate the staged configuration and start an unkeyed engine. -/
  | init
  /-- KEY (R206): restart the engine keyed with `key`. -/
  | key (key : List Byte)
  /-- ABSORB (R207): take message bytes. -/
  | absorb (payload : List Byte)
  /-- FINAL (R208): finish and output the digest into a buffer of `olen` bytes. -/
  | final (olen : BitVec 8)
  /-- RESET (R209): restart the engine, unkeyed. -/
  | reset
  /-- ZEROIZE (R210): return to the power-on state. -/
  | zeroize
  /-- RDSTAT (R211): read STATUS. -/
  | rdstat
deriving DecidableEq, Repr

/-- What the host presents for one command: the command word CW and the payload bytes (30_encoding.md R70). -/
structure Transaction where
  cw : BitVec 32
  payload : List Byte
deriving DecidableEq, Repr

end Sys2Proof
end

