-- ==== Sys2Proof/Machine/State.lean ====
section
/-! DEFINITION. The architectural state of one block (10_state.md R21), the host's side of the command port, and
the state after power-on reset. -/

namespace Sys2Proof.Machine

/-- The engine state machine (10_state.md R22). -/
inductive Fsm where
  | unconfigured
  | empty
  | buffering
  | finalized
deriving DecidableEq, Repr

/-- The result codes, in the order of their numbers 0 to 10 (60_exceptions.md R240). Codes 11–255 are never
produced. -/
inductive ResultCode where
  | ok
  | illegal
  | badState
  | digestLen
  | keyLen
  | lanes
  | saltLen
  | personalLen
  | nodeOffset
  | outBuf
  | keyBlock
deriving DecidableEq, Repr

/-- The store behind SALT and behind PERSONAL: 16 bytes and the length written, SALTLEN or PERSLEN
(10_state.md R29). -/
structure ByteStore where
  bytes : Vector Byte 16
  len : Nat
deriving DecidableEq, Repr

/-- An absent salt or personalization: zero bytes and length 0. -/
def ByteStore.zero : ByteStore := ⟨Vector.replicate 16 0, 0⟩

/-- The staging configuration registers, REG 0 to 9 (10_state.md R23–R29). -/
structure Cfg where
  ctrl : BitVec 8
  dl : BitVec 8
  fanout : BitVec 8
  depth : BitVec 8
  leafLen : BitVec 32
  nodeOffset : BitVec 64
  nodeDepth : BitVec 8
  innerLen : BitVec 8
  salt : ByteStore
  personal : ByteStore
deriving DecidableEq, Repr

/-- The active parameter set (10_state.md R30). -/
structure Act where
  variant : Variant
  mode : Mode
  lastNode : Bool
  dl : BitVec 8
  fanout : BitVec 8
  depth : BitVec 8
  leafLen : BitVec 32
  nodeOffset : BitVec 64
  nodeDepth : BitVec 8
  innerLen : BitVec 8
  salt : ByteStore
  personal : ByteStore
  kl : BitVec 8
deriving DecidableEq, Repr

/-- One block state: chaining value H[0..7], counter T[0..1], flags F[0..1] (10_state.md R31, R33). Each word is
held in a 64-bit cell (R39). -/
structure Node where
  h : Vector Cell64 8
  t0 : Cell64
  t1 : Cell64
  f0 : Cell64
  f1 : Cell64
deriving DecidableEq, Repr

/-- The all-zero node. -/
def Node.zero : Node := ⟨Vector.replicate 8 0, 0, 0, 0, 0⟩

/-- The response to one command: the result code RC and the output bytes OUT (30_encoding.md R70, R71). -/
structure Response where
  rc : ResultCode
  out : List Byte
deriving DecidableEq, Repr

/-- What the host can do at the port (45_commands.md R214). Being idle is the absence of a move. -/
inductive HostMove where
  /-- One command transaction. -/
  | transaction (t : Transaction)
  /-- A command word sent before the previous response: it breaks the host's duty (93_implementation_defined.md
  U18). -/
  | earlyWord (cw : BitVec 32)
  /-- The reset signal, or power coming back (70_reset_and_hazards.md R270; 60_exceptions.md R251). -/
  | powerOn
deriving DecidableEq, Repr

/-- The state of one block, with the host's side of its port. -/
structure State where
  /-- FSM (10_state.md R22). -/
  fsm : Fsm
  /-- CFG (R23). -/
  cfg : Cfg
  /-- ACT (R30). -/
  act : Act
  /-- NODE: the sequential node, or the root in parallel mode (R31). -/
  node : Node
  /-- BUF: the bytes held, no others (R32; 20_memory.md R53). -/
  buf : List Byte
  /-- LANE[0 .. LANES_MAX−1] (R33). -/
  lanes : List Node
  /-- SB: the bytes held, no others (R34; 20_memory.md R53). -/
  sb : List Byte
  /-- ERRCODE (R35). -/
  errCode : ResultCode
  /-- ERR_STICKY (R35). -/
  errSticky : Bool
  /-- LANES_MAX, the parameter of the hardware (00_scope.md R7); no step changes it (log entry 1). -/
  lanesMax : Nat
  /-- The host's moves not yet taken, the next one first: the model's own field (log entry 2). -/
  port : List HostMove
  /-- The last response given, none after a power-on reset: the model's own field (log entry 3). -/
  resp : Option Response
deriving DecidableEq, Repr

/-- There is no fault: every command word has a defined step (93_implementation_defined.md §1). No definition of
this model raises one. -/
inductive Fault where
deriving DecidableEq, Repr

/-- Why a step has no next state. All are safe: the model stops where the real port cannot go. -/
inductive Refusal where
  /-- Raised by a refused arm of `exec`, for an instruction without a meaning; no arm is refused. Safe. -/
  | notModelled (mnemonic : String)
  /-- Raised by `step` for a transaction whose payload length is not plen(CW) (30_encoding.md R70;
  93_implementation_defined.md U17). Safe. -/
  | malformedTransaction
  /-- Raised by `step` for a command word sent before the previous response (45_commands.md R214;
  93_implementation_defined.md U18). Safe. -/
  | earlyCommandWord
deriving DecidableEq, Repr

/-- The power-on values of CFG (10_state.md R43). -/
def Cfg.powerOn : Cfg :=
  { ctrl := 0x00, dl := 32, fanout := 1, depth := 1, leafLen := 0, nodeOffset := 0, nodeDepth := 0, innerLen := 0,
    salt := ByteStore.zero, personal := ByteStore.zero }

/-- ACT with every field 0 (10_state.md R43). -/
def Act.zero : Act :=
  { variant := .s, mode := .sequential, lastNode := false, dl := 0, fanout := 0, depth := 0, leafLen := 0,
    nodeOffset := 0, nodeDepth := 0, innerLen := 0, salt := ByteStore.zero, personal := ByteStore.zero, kl := 0 }

/-- The state after power-on reset of a block with `lanesMax` lanes, before the host's moves `port`
(10_state.md R43; 70_reset_and_hazards.md R270). -/
def State.powerOn (lanesMax : Nat) (port : List HostMove) : State :=
  { fsm := .unconfigured, cfg := Cfg.powerOn, act := Act.zero, node := Node.zero, buf := [],
    lanes := List.replicate lanesMax Node.zero, sb := [], errCode := .ok, errSticky := false,
    lanesMax := lanesMax, port := port, resp := none }

/-- The machine right after reset (10_state.md R43). The host has sent nothing yet. -/
def State.reset : State := State.powerOn lanesMaxOfReset []

end Sys2Proof.Machine
end

