-- ==== Sys2Proof/Machine/Flags.lean ====
section
/-! DEFINITION. Bits and codes: the CTRL bits, the FSM and result codes, and the STATUS word. -/

namespace Sys2Proof.Machine

/-- CTRL.VARIANT, bit 0 (10_state.md R24). -/
def Cfg.variant (c : Cfg) : Variant := if c.ctrl.getLsbD 0 then .b else .s

/-- CTRL.MODE, bit 1 (10_state.md R24). -/
def Cfg.mode (c : Cfg) : Mode := if c.ctrl.getLsbD 1 then .parallel else .sequential

/-- CTRL.LASTNODE, bit 2 (10_state.md R24). -/
def Cfg.lastNode (c : Cfg) : Bool := c.ctrl.getLsbD 2

/-- The 3-bit FSM code (10_state.md R22). -/
def Fsm.code : Fsm → BitVec 3
  | .unconfigured => 0
  | .empty => 1
  | .buffering => 2
  | .finalized => 3

/-- The number of a result code (60_exceptions.md R240). -/
def ResultCode.code : ResultCode → BitVec 8
  | .ok => 0
  | .illegal => 1
  | .badState => 2
  | .digestLen => 3
  | .keyLen => 4
  | .lanes => 5
  | .saltLen => 6
  | .personalLen => 7
  | .nodeOffset => 8
  | .outBuf => 9
  | .keyBlock => 10

/-- The VARIANT bit: 0 = S, 1 = B (10_state.md R24). -/
def variantBit : Variant → BitVec 1
  | .s => 0
  | .b => 1

/-- The MODE bit: 0 = sequential, 1 = parallel (10_state.md R24). -/
def modeBit : Mode → BitVec 1
  | .sequential => 0
  | .parallel => 1

/-- KEYED: ACT.KL is not 0 (10_state.md R36, R41). -/
def State.keyed (s : State) : Bool := s.act.kl != 0

/-- BUFLEN (10_state.md R36): 0 when UNCONFIGURED, else the length of the buffer of the active mode. -/
def State.bufLen (s : State) : Nat :=
  match s.fsm with
  | .unconfigured => 0
  | _ =>
    match s.act.mode with
    | .sequential => s.buf.length
    | .parallel => s.sb.length

/-- The STATUS word (10_state.md R36), from bit 31 down: BUFLEN, ERRCODE, a zero bit, ERR_STICKY, KEYED, VARIANT,
MODE, FSM. VARIANT and MODE are 0 when UNCONFIGURED. -/
def State.status (s : State) : BitVec 32 :=
  let variant := if s.fsm = .unconfigured then 0#1 else variantBit s.act.variant
  let mode := if s.fsm = .unconfigured then 0#1 else modeBit s.act.mode
  BitVec.ofNat 16 s.bufLen ++ s.errCode.code ++ 0#1 ++ BitVec.ofBool s.errSticky ++ BitVec.ofBool s.keyed ++
    variant ++ mode ++ s.fsm.code

end Sys2Proof.Machine
end

