-- ==== Sys2Proof/Machine/Bytes.lean ====
section
/-! DEFINITION. Byte strings: slices, zero padding, and the one little-endian conversion of the block. -/

namespace Sys2Proof

/-- `zeros n` is n zero bytes (00_scope.md R9). -/
def zeros (n : Nat) : List Byte := List.replicate n 0

/-- `slice s a b` is bytes a .. b−1 of s, empty when b ≤ a (00_scope.md R9, `s[a : b]`). -/
def slice (s : List Byte) (a b : Nat) : List Byte := (s.take b).drop a

/-- `padTo n s` is s followed by zero bytes up to length n (00_scope.md R9, `pad_BB`). -/
def padTo (n : Nat) (s : List Byte) : List Byte := s ++ zeros (n - s.length)

/-- The little-endian value of a byte string (00_scope.md R9, `le_W`; 20_memory.md R52, R62). -/
def leNat : List Byte → Nat
  | [] => 0
  | b :: bs => b.toNat + 256 * leNat bs

/-- The n-byte little-endian encoding of a number (00_scope.md R9, `bytes_W`; 20_memory.md R62). -/
def bytesLE : Nat → Nat → List Byte
  | 0, _ => []
  | n + 1, x => BitVec.ofNat 8 x :: bytesLE n (x / 256)

end Sys2Proof
end

