-- ==== Sys2Proof/Machine/Compression.lean ====
section
/-! DEFINITION. The compression core (40_compression.md): IV, SIGMA, G, Round, Compress. Everything here works on
words of exactly W bits (R100). -/

namespace Sys2Proof.Machine

/-- A W-bit word of the variant (40_compression.md R100). -/
abbrev CoreWord (v : Variant) := BitVec v.wordBits

/-- IV[0..7] of variant S (40_compression.md R101). -/
def ivS : Vector (BitVec 32) 8 :=
  #v[0x6A09E667, 0xBB67AE85, 0x3C6EF372, 0xA54FF53A, 0x510E527F, 0x9B05688C, 0x1F83D9AB, 0x5BE0CD19]

/-- IV[0..7] of variant B (40_compression.md R101). -/
def ivB : Vector (BitVec 64) 8 :=
  #v[0x6A09E667F3BCC908, 0xBB67AE8584CAA73B, 0x3C6EF372FE94F82B, 0xA54FF53A5F1D36F1,
     0x510E527FADE682D1, 0x9B05688C2B3E6C1F, 0x1F83D9ABFB41BD6B, 0x5BE0CD19137E2179]

/-- The initialization vector of a variant (40_compression.md R101). -/
def iv : (v : Variant) → Vector (CoreWord v) 8
  | .s => ivS
  | .b => ivB

/-- The sigma schedule SIGMA[0..9][0..15] (40_compression.md R102). -/
def sigma : Vector (Vector (Fin 16) 16) 10 :=
  #v[#v[0, 1, 2, 3, 4, 5, 6, 7, 8, 9, 10, 11, 12, 13, 14, 15],
     #v[14, 10, 4, 8, 9, 15, 13, 6, 1, 12, 0, 2, 11, 7, 5, 3],
     #v[11, 8, 12, 0, 5, 2, 15, 13, 10, 14, 3, 6, 7, 1, 9, 4],
     #v[7, 9, 3, 1, 13, 12, 11, 14, 2, 6, 5, 10, 4, 0, 15, 8],
     #v[9, 0, 5, 7, 2, 4, 10, 15, 14, 1, 11, 12, 6, 8, 3, 13],
     #v[2, 12, 6, 10, 0, 11, 8, 3, 4, 13, 7, 5, 15, 14, 1, 9],
     #v[12, 5, 1, 15, 14, 13, 4, 10, 0, 7, 6, 3, 9, 2, 8, 11],
     #v[13, 11, 7, 14, 12, 1, 3, 9, 5, 0, 15, 4, 8, 6, 2, 10],
     #v[6, 15, 14, 9, 11, 3, 0, 8, 12, 2, 13, 7, 1, 4, 10, 5],
     #v[10, 2, 8, 4, 7, 6, 1, 5, 15, 11, 9, 14, 3, 12, 13, 0]]

/-- The schedule row of round r: row r mod 10 (40_compression.md R103). -/
def sigmaRow (r : Nat) : Vector (Fin 16) 16 := sigma[r % 10]'(Nat.mod_lt r (by decide))

/-- G (40_compression.md R104), on words of w bits with the given rotation amounts: the new (a, b, c, d). -/
def mixG {w : Nat} (rot : Rotations) (a b c d x y : BitVec w) : BitVec w × BitVec w × BitVec w × BitVec w :=
  let a := a + b + x
  let d := (d ^^^ a).rotateRight rot.r1
  let c := c + d
  let b := (b ^^^ c).rotateRight rot.r2
  let a := a + b + y
  let d := (d ^^^ a).rotateRight rot.r3
  let c := c + d
  let b := (b ^^^ c).rotateRight rot.r4
  (a, b, c, d)

/-- One application of G to the words i, j, k, l of the working vector (40_compression.md R105). -/
def applyG {w : Nat} (rot : Rotations) (v : Vector (BitVec w) 16) (i j k l : Fin 16) (x y : BitVec w) :
    Vector (BitVec w) 16 :=
  let g := mixG rot v[i] v[j] v[k] v[l] x y
  (((v.set i g.1).set j g.2.1).set k g.2.2.1).set l g.2.2.2

/-- One round: four columns, then four diagonals (40_compression.md R105). -/
def compressionRound {w : Nat} (rot : Rotations) (m v : Vector (BitVec w) 16) (r : Nat) : Vector (BitVec w) 16 :=
  let s := sigmaRow r
  let v := applyG rot v 0 4 8 12 m[s[0]] m[s[1]]
  let v := applyG rot v 1 5 9 13 m[s[2]] m[s[3]]
  let v := applyG rot v 2 6 10 14 m[s[4]] m[s[5]]
  let v := applyG rot v 3 7 11 15 m[s[6]] m[s[7]]
  let v := applyG rot v 0 5 10 15 m[s[8]] m[s[9]]
  let v := applyG rot v 1 6 11 12 m[s[10]] m[s[11]]
  let v := applyG rot v 2 7 8 13 m[s[12]] m[s[13]]
  applyG rot v 3 4 9 14 m[s[14]] m[s[15]]

/-- The little-endian word of WB bytes (00_scope.md R9, `le_W`). -/
def leWord (v : Variant) (bytes : List Byte) : CoreWord v := BitVec.ofNat v.wordBits (leNat bytes)

/-- Word j of a byte string read as little-endian words (00_scope.md R9, `words`). -/
def wordAt (v : Variant) (s : List Byte) (j : Nat) : CoreWord v :=
  leWord v (slice s (j * v.wordBytes) ((j + 1) * v.wordBytes))

/-- The 16 message words of a block (40_compression.md R106). -/
def messageWords (v : Variant) (block : List Byte) : Vector (CoreWord v) 16 :=
  Vector.ofFn fun j => wordAt v block j.val

/-- The working vector before round 0 (40_compression.md R107). -/
def workingVector (v : Variant) (h : Vector (CoreWord v) 8) (t0 t1 f0 f1 : CoreWord v) : Vector (CoreWord v) 16 :=
  let k := iv v
  #v[h[0], h[1], h[2], h[3], h[4], h[5], h[6], h[7], k[0], k[1], k[2], k[3],
     k[4] ^^^ t0, k[5] ^^^ t1, k[6] ^^^ f0, k[7] ^^^ f1]

/-- The R rounds, in order (40_compression.md R108). -/
def allRounds (v : Variant) (m w : Vector (CoreWord v) 16) : Vector (CoreWord v) 16 :=
  (List.range v.rounds).foldl (compressionRound v.rotations m) w

/-- Compress (40_compression.md R110): the new chaining value from H, T, F and one block of BB bytes. -/
def compress (v : Variant) (h : Vector (CoreWord v) 8) (t0 t1 f0 f1 : CoreWord v) (block : List Byte) :
    Vector (CoreWord v) 8 :=
  let w := allRounds v (messageWords v block) (workingVector v h t0 t1 f0 f1)
  Vector.ofFn fun i => h[i] ^^^ w[i.val] ^^^ w[i.val + 8]

end Sys2Proof.Machine
end

