-- ==== Sys2Proof/Machine/NodeOps.lean ====
section
/-! DEFINITION. The block state manager (41_block_state.md): ParamBlock, NodeInit, CtrAdd, NodeCompress, and the
digest bytes of a node. -/

namespace Sys2Proof.Machine

/-- The arguments of ParamBlock beside the variant (41_block_state.md R120). -/
structure ParamFields where
  dl : BitVec 8
  kl : BitVec 8
  fanout : BitVec 8
  depth : BitVec 8
  leafLen : BitVec 32
  nodeOffset : BitVec 64
  nodeDepth : BitVec 8
  innerLen : BitVec 8
  salt : List Byte
  personal : List Byte
deriving DecidableEq, Repr

/-- ParamBlock (41_block_state.md R120–R122): the fields in the order of both layouts. The node offset has 6 bytes
in variant S and 8 in variant B; variant B has 14 reserved zero bytes before the salt. -/
def paramBlock (v : Variant) (p : ParamFields) : List Byte :=
  [p.dl, p.kl, p.fanout, p.depth] ++ bytesLE 4 p.leafLen.toNat ++ bytesLE v.offsetBytes p.nodeOffset.toNat ++
    [p.nodeDepth, p.innerLen] ++ (match v with | .s => [] | .b => zeros 14) ++ p.salt ++ p.personal

/-- Reading a cell as a W-bit word (10_state.md R39). -/
def fromCell (v : Variant) (x : Cell64) : CoreWord v := x.setWidth v.wordBits

/-- Storing a W-bit word in a cell, bits above W zero (10_state.md R39). -/
def toCell (v : Variant) (x : CoreWord v) : Cell64 := x.setWidth 64

/-- NodeInit (41_block_state.md R124): H[i] = IV[i] xor P[i] with P the parameter words (R123), T and F zero. -/
def nodeInit (v : Variant) (pblock : List Byte) : Node :=
  { h := Vector.ofFn fun i => toCell v ((iv v)[i] ^^^ wordAt v pblock i.val), t0 := 0, t1 := 0, f0 := 0, f1 := 0 }

/-- T as one number of 2W bits (41_block_state.md R125). -/
def Node.counter (v : Variant) (n : Node) : Nat := n.t0.toNat + 2 ^ v.wordBits * n.t1.toNat

/-- CtrAdd (41_block_state.md R125): add k to the 2W-bit counter, which wraps at 2^(2W). -/
def ctrAdd (v : Variant) (k : Nat) (n : Node) : Node :=
  let t := (n.counter v + k) % 2 ^ (2 * v.wordBits)
  { n with t0 := BitVec.ofNat 64 (t % 2 ^ v.wordBits), t1 := BitVec.ofNat 64 (t / 2 ^ v.wordBits) }

/-- A flag word: ONES_W or 0 (10_state.md R40). -/
def flagWord (v : Variant) (on : Bool) : Cell64 := if on then v.ones else 0

/-- NodeCompress (41_block_state.md R126): counter first, then the flags, then H from Compress on the padded
bytes. -/
def nodeCompress (v : Variant) (n : Node) (s : List Byte) (final last : Bool) : Node :=
  let n := ctrAdd v s.length n
  let n := { n with f0 := flagWord v final, f1 := flagWord v (final && last) }
  { n with
    h := (compress v (n.h.map (fromCell v)) (fromCell v n.t0) (fromCell v n.t1) (fromCell v n.f0) (fromCell v n.f1)
      (padTo v.blockBytes s)).map (toCell v) }

/-- `bytes_W(H[0]) ++ … ++ bytes_W(H[7])`, NN bytes (43_sequential_engine.md R145, R146). -/
def nodeDigest (v : Variant) (n : Node) : List Byte := n.h.toList.flatMap fun x => bytesLE v.wordBytes x.toNat

end Sys2Proof.Machine
end

