-- ==== Sys2Proof/Machine/Sequential.lean ====
section
/-! DEFINITION. The sequential engine (43_sequential_engine.md). -/

namespace Sys2Proof.Machine

/-- What the sequential engine works on: one node and the one-block buffer. -/
structure SeqEngine where
  node : Node
  buf : List Byte
deriving DecidableEq, Repr

/-- `X[0 : SL]` of the salt or of the personalization (43_sequential_engine.md R140); zero bytes when absent. -/
def ByteStore.field (v : Variant) (b : ByteStore) : List Byte := slice b.bytes.toList 0 v.saltBytes

/-- The fields of SeqPB(kl): the configured tree fields unchanged (43_sequential_engine.md R140). -/
def seqFields (a : Act) (kl : BitVec 8) : ParamFields :=
  { dl := a.dl, kl := kl, fanout := a.fanout, depth := a.depth, leafLen := a.leafLen, nodeOffset := a.nodeOffset,
    nodeDepth := a.nodeDepth, innerLen := a.innerLen, salt := a.salt.field a.variant,
    personal := a.personal.field a.variant }

/-- SeqPB(kl) (43_sequential_engine.md R140). -/
def seqParamBlock (a : Act) (kl : BitVec 8) : List Byte := paramBlock a.variant (seqFields a kl)

/-- The key block: nothing when unkeyed, else the key padded to one block (43_sequential_engine.md R141). -/
def keyBlock (v : Variant) (key : List Byte) : List Byte := if key = [] then [] else padTo v.blockBytes key

/-- SeqStart (43_sequential_engine.md R141): NODE from SeqPB(kl), BUF the key block, every lane zero, SB empty.
kl is the key's length, 0 when unkeyed. -/
def seqStart (key : List Byte) (s : State) : State :=
  { s with
    node := nodeInit s.act.variant (seqParamBlock s.act (BitVec.ofNat 8 key.length)),
    buf := keyBlock s.act.variant key,
    lanes := List.replicate s.lanesMax Node.zero,
    sb := [] }

/-- SeqAbsorbByte (43_sequential_engine.md R142): a full buffer is compressed, non-final, only when a further byte
arrives. -/
def seqAbsorbByte (v : Variant) (e : SeqEngine) (b : Byte) : SeqEngine :=
  if e.buf.length = v.blockBytes then ⟨nodeCompress v e.node e.buf false false, [b]⟩
  else ⟨e.node, e.buf ++ [b]⟩

/-- SeqAbsorb (43_sequential_engine.md R143): byte by byte, in order. -/
def seqAbsorb (v : Variant) (e : SeqEngine) (s : List Byte) : SeqEngine := s.foldl (seqAbsorbByte v) e

/-- SeqFinal (43_sequential_engine.md R145): the resident bytes are the final block; the buffer is left empty. The
NN-byte value it returns is `nodeDigest` of the node it leaves. -/
def seqFinal (v : Variant) (e : SeqEngine) (last : Bool) : SeqEngine := ⟨nodeCompress v e.node e.buf true last, []⟩

end Sys2Proof.Machine
end

