-- ==== Sys2Proof/Machine/Parallel.lean ====
section
/-! DEFINITION. The parallel tree engine (44_parallel_engine.md). The lanes run in index order, which R167 allows:
each reads and writes only its own state and its own blocks of SB. -/

namespace Sys2Proof.Machine

/-- What the parallel engine works on before the root: the lanes and the shared buffer. -/
structure ParEngine where
  lanes : List Node
  sb : List Byte
deriving DecidableEq, Repr

/-- P, the lane count (44_parallel_engine.md R160). -/
def Act.laneCount (a : Act) : Nat := a.fanout.toNat

/-- The fields common to every lane and the root: depth 2, leaf length 0, inner length NN, the configured salt and
personalization (44_parallel_engine.md R161, R170). -/
def treeFields (a : Act) (kl : BitVec 8) (nodeOffset : BitVec 64) (nodeDepth : BitVec 8) : ParamFields :=
  { dl := a.dl, kl := kl, fanout := a.fanout, depth := 2, leafLen := 0, nodeOffset := nodeOffset,
    nodeDepth := nodeDepth, innerLen := BitVec.ofNat 8 a.variant.digestBytes, salt := a.salt.field a.variant,
    personal := a.personal.field a.variant }

/-- LanePB(i, kl) (44_parallel_engine.md R161). -/
def laneParamBlock (a : Act) (i : Nat) (kl : BitVec 8) : List Byte :=
  paramBlock a.variant (treeFields a kl (BitVec.ofNat 64 i) 0)

/-- RootPB (44_parallel_engine.md R170). -/
def rootParamBlock (a : Act) : List Byte := paramBlock a.variant (treeFields a a.kl 0 1)

/-- `k` copies of a byte string (00_scope.md R9, `s × k`). -/
def copies (k : Nat) (s : List Byte) : List Byte := (List.replicate k s).flatten

/-- ParStart (44_parallel_engine.md R162): lanes 0 .. P−1 initialized, the others zero, SB empty or one key block
per lane, NODE zero, BUF empty. -/
def parStart (key : List Byte) (s : State) : State :=
  { s with
    lanes := (List.range s.act.laneCount).map
        (fun i => nodeInit s.act.variant (laneParamBlock s.act i (BitVec.ofNat 8 key.length))) ++
      List.replicate (s.lanesMax - s.act.laneCount) Node.zero,
    sb := copies s.act.laneCount (keyBlock s.act.variant key),
    node := Node.zero,
    buf := [] }

/-- Block j of a byte string, possibly partial or empty (44_parallel_engine.md R163). -/
def blockAt (v : Variant) (s : List Byte) (j : Nat) : List Byte :=
  slice s (j * v.blockBytes) ((j + 1) * v.blockBytes)

/-- Work on lanes 0 .. P−1, each by its index; the other lanes keep their state (44_parallel_engine.md R167). -/
def eachLane (p : Nat) (f : Nat → Node → Node) (lanes : List Node) : List Node :=
  lanes.mapIdx fun i n => if i < p then f i n else n

/-- Batch (44_parallel_engine.md R165): every lane compresses its block of the first half, non-final; after all of
them (the barrier, R166) SB is shifted left by P blocks. -/
def batch (v : Variant) (p : Nat) (e : ParEngine) : ParEngine :=
  { lanes := eachLane p (fun i n => nodeCompress v n (blockAt v e.sb i) false false) e.lanes,
    sb := slice e.sb (p * v.blockBytes) (2 * p * v.blockBytes) }

/-- ParAbsorbByte (44_parallel_engine.md R164): append, and run a batch when SB is full. -/
def parAbsorbByte (v : Variant) (p : Nat) (e : ParEngine) (b : Byte) : ParEngine :=
  let e' : ParEngine := ⟨e.lanes, e.sb ++ [b]⟩
  if e'.sb.length = 2 * p * v.blockBytes then batch v p e' else e'

/-- ParAbsorb (44_parallel_engine.md R164): byte by byte, in order. -/
def parAbsorb (v : Variant) (p : Nat) (e : ParEngine) (s : List Byte) : ParEngine := s.foldl (parAbsorbByte v p) e

/-- The finalization of lane i (44_parallel_engine.md R168): with two resident blocks the first is compressed
non-final; the last resident block, possibly empty, is the final one. -/
def finalizeLane (v : Variant) (p : Nat) (sb : List Byte) (i : Nat) (n : Node) : Node :=
  if sb.length > (i + p) * v.blockBytes then
    nodeCompress v (nodeCompress v n (blockAt v sb i) false false) (blockAt v sb (i + p)) true (i + 1 == p)
  else if sb.length > i * v.blockBytes then nodeCompress v n (blockAt v sb i) true (i + 1 == p)
  else nodeCompress v n [] true (i + 1 == p)

/-- ParFinalLanes (44_parallel_engine.md R168). -/
def finalizeLanes (v : Variant) (p : Nat) (e : ParEngine) : List Node :=
  eachLane p (finalizeLane v p e.sb) e.lanes

/-- LD, the lane digests in lane order, P·NN bytes (44_parallel_engine.md R169). -/
def laneDigests (v : Variant) (p : Nat) (lanes : List Node) : List Byte := (lanes.take p).flatMap (nodeDigest v)

/-- The root reduction of ParFinal (44_parallel_engine.md R171): a sequential engine under RootPB absorbs LD and is
finalized as the last node. -/
def rootEngine (v : Variant) (rootBlock digests : List Byte) : SeqEngine :=
  seqFinal v (seqAbsorb v ⟨nodeInit v rootBlock, []⟩ digests) true

end Sys2Proof.Machine
end

