-- ==== Sys2Proof/Machine/Ops.lean ====
section
/-! DEFINITION. The operations every command shares: failing, succeeding, and starting the engine. -/

namespace Sys2Proof.Machine

/-- The outcome of one step of this machine. -/
abbrev Result := Host.Outcome State Fault Refusal

/-- `raise Error(code)` (60_exceptions.md R241): ERRCODE and ERR_STICKY are written, the response is (code, []),
nothing else changes. -/
def State.raise (s : State) (code : ResultCode) : State :=
  { s with errCode := code, errSticky := true, resp := some ⟨code, []⟩ }

/-- The response of a successful command (30_encoding.md R71): RC = 0 and the output bytes. -/
def State.respond (s : State) (out : List Byte) : State := { s with resp := some ⟨.ok, out⟩ }

/-- The common frame of a command (45_commands.md R200): the first failing check gives the error, with the effect
of 60_exceptions.md R241; otherwise the command completes in full with its output. -/
def transact (s : State) (check : Option ResultCode) (done : State) (out : List Byte) : Result :=
  match check with
  | some code => .next (s.raise code)
  | none => .next (done.respond out)

/-- EngineStart(kl, key) with kl the key's length (45_commands.md R202). -/
def engineStart (key : List Byte) (s : State) : State :=
  let s := { s with act := { s.act with kl := BitVec.ofNat 8 key.length } }
  match s.act.mode with
  | .sequential => seqStart key s
  | .parallel => parStart key s

/-- The ACT that INIT loads: a copy of every CFG field, KL = 0 (10_state.md R30; 45_commands.md R205). -/
def Cfg.toAct (c : Cfg) : Act :=
  { variant := c.variant, mode := c.mode, lastNode := c.lastNode, dl := c.dl, fanout := c.fanout, depth := c.depth,
    leafLen := c.leafLen, nodeOffset := c.nodeOffset, nodeDepth := c.nodeDepth, innerLen := c.innerLen,
    salt := c.salt, personal := c.personal, kl := 0 }

end Sys2Proof.Machine
end

