-- ==== Sys2Proof/Machine/EngineCommands.lean ====
section
/-! DEFINITION. The engine commands: INIT, KEY, ABSORB, FINAL, RESET. -/

namespace Sys2Proof.Machine

/-- A salt or personalization length INIT accepts: 0 or SL (45_commands.md R205). -/
def saltLenOk (v : Variant) (len : Nat) : Bool := len == 0 || len == v.saltBytes

/-- A lane count INIT accepts: even, 2 to LANES_MAX (45_commands.md R205; 44_parallel_engine.md R160). -/
def laneCountOk (lanesMax p : Nat) : Bool := p % 2 == 0 && 2 ≤ p && p ≤ lanesMax

/-- The first failing check of INIT (45_commands.md R205; 60_exceptions.md R243). -/
def initCheck (s : State) : Option ResultCode :=
  let c := s.cfg
  let v := c.variant
  if ¬ (1 ≤ c.dl.toNat ∧ c.dl.toNat ≤ v.digestBytes) then some .digestLen
  else if c.mode = .parallel ∧ ¬ laneCountOk s.lanesMax c.fanout.toNat then some .lanes
  else if ¬ saltLenOk v c.salt.len then some .saltLen
  else if ¬ saltLenOk v c.personal.len then some .personalLen
  else if c.mode = .sequential ∧ v = .s ∧ c.nodeOffset.toNat ≥ 2 ^ 48 then some .nodeOffset
  else none

/-- INIT (45_commands.md R205). -/
def execInit (s : State) : Result :=
  let started := engineStart [] { s with act := s.cfg.toAct }
  transact s (initCheck s) { started with fsm := .empty, errCode := .ok } []

/-- The first failing check of KEY (45_commands.md R206; 60_exceptions.md R243). -/
def keyCheck (s : State) (kl : Nat) : Option ResultCode :=
  let v := s.act.variant
  if s.fsm = .unconfigured then some .badState
  else if ¬ (1 ≤ kl ∧ kl ≤ v.keyBytes) then some .keyLen
  else if kl + s.act.salt.len + s.act.personal.len > v.blockBytes then some .keyBlock
  else none

/-- KEY (45_commands.md R206); KL is the key's length. -/
def execKey (key : List Byte) (s : State) : Result :=
  transact s (keyCheck s key.length) { engineStart key s with fsm := .buffering, errCode := .ok } []

/-- ABSORB and FINAL need FSM in EMPTY or BUFFERING (45_commands.md R207, R208). -/
def running (s : State) : Bool := s.fsm == .empty || s.fsm == .buffering

/-- The engine after absorbing a payload, by the active mode (45_commands.md R207). -/
def absorbBytes (payload : List Byte) (s : State) : State :=
  match s.act.mode with
  | .sequential =>
    let e := seqAbsorb s.act.variant ⟨s.node, s.buf⟩ payload
    { s with node := e.node, buf := e.buf }
  | .parallel =>
    let e := parAbsorb s.act.variant s.act.laneCount ⟨s.lanes, s.sb⟩ payload
    { s with lanes := e.lanes, sb := e.sb }

/-- ABSORB (45_commands.md R207); LEN is the payload's length. -/
def execAbsorb (payload : List Byte) (s : State) : Result :=
  let absorbed := absorbBytes payload s
  transact s (if running s then none else some .badState)
    { absorbed with fsm := if payload.length > 0 then .buffering else s.fsm, errCode := .ok } []

/-- The first failing check of FINAL (45_commands.md R208; 60_exceptions.md R243). -/
def finalCheck (s : State) (olen : Nat) : Option ResultCode :=
  if ¬ running s then some .badState else if olen < s.act.dl.toNat then some .outBuf else none

/-- The engine after finalization, by the active mode: SeqFinal, or ParFinal, which leaves the root's final state
in NODE and every buffer empty (45_commands.md R208; 43_sequential_engine.md R145; 44_parallel_engine.md R171). -/
def finishEngine (s : State) : State :=
  let v := s.act.variant
  match s.act.mode with
  | .sequential =>
    let e := seqFinal v ⟨s.node, s.buf⟩ s.act.lastNode
    { s with node := e.node, buf := e.buf }
  | .parallel =>
    let lanes := finalizeLanes v s.act.laneCount ⟨s.lanes, s.sb⟩
    let root := rootEngine v (rootParamBlock s.act) (laneDigests v s.act.laneCount lanes)
    { s with lanes := lanes, sb := [], node := root.node, buf := root.buf }

/-- FINAL (45_commands.md R208): the output is the first DL bytes of the final chaining value
(43_sequential_engine.md R146). -/
def execFinal (olen : BitVec 8) (s : State) : Result :=
  let finished := finishEngine s
  transact s (finalCheck s olen.toNat) { finished with fsm := .finalized, errCode := .ok }
    (slice (nodeDigest s.act.variant finished.node) 0 s.act.dl.toNat)

/-- RESET (45_commands.md R209): ACT is kept but for KL. -/
def execReset (s : State) : Result :=
  transact s (if s.fsm = .unconfigured then some .badState else none)
    { engineStart [] s with fsm := .empty, errCode := .ok } []

end Sys2Proof.Machine
end

