-- ==== Sys2Proof/Machine/Operands.lean ====
section
/-! DEFINITION. The configuration register file as WRCFG and RDCFG see it (10_state.md R23; 45_commands.md R203,
R204). -/

namespace Sys2Proof.Machine

/-- The payload bytes of the fixed-width registers 0 to 7 (10_state.md R23). -/
def regWidth (reg : Nat) : Nat :=
  match reg with
  | 4 => 4
  | 5 => 8
  | _ => 1

/-- The value of a fixed-width register 0 to 7 (10_state.md R23). -/
def Cfg.fixedValue (c : Cfg) (reg : Nat) : Nat :=
  match reg with
  | 0 => c.ctrl.toNat
  | 1 => c.dl.toNat
  | 2 => c.fanout.toNat
  | 3 => c.depth.toNat
  | 4 => c.leafLen.toNat
  | 5 => c.nodeOffset.toNat
  | 6 => c.nodeDepth.toNat
  | 7 => c.innerLen.toNat
  | _ => 0

/-- `CFG[REG] <- val` for a fixed-width register 0 to 7 (45_commands.md R203). -/
def Cfg.setFixed (c : Cfg) (reg val : Nat) : Cfg :=
  match reg with
  | 0 => { c with ctrl := BitVec.ofNat 8 val }
  | 1 => { c with dl := BitVec.ofNat 8 val }
  | 2 => { c with fanout := BitVec.ofNat 8 val }
  | 3 => { c with depth := BitVec.ofNat 8 val }
  | 4 => { c with leafLen := BitVec.ofNat 32 val }
  | 5 => { c with nodeOffset := BitVec.ofNat 64 val }
  | 6 => { c with nodeDepth := BitVec.ofNat 8 val }
  | 7 => { c with innerLen := BitVec.ofNat 8 val }
  | _ => c

/-- The store after a write of n ≤ 16 bytes: the bytes, then zeros, and the length n (10_state.md R29). -/
def ByteStore.ofPayload (payload : List Byte) : ByteStore :=
  ⟨Vector.ofFn fun i => payload.getD i.val 0, payload.length⟩

/-- The bytes a store reads back: exactly the length written (45_commands.md R204). -/
def ByteStore.content (b : ByteStore) : List Byte := b.bytes.toList.take b.len

/-- The register file after a WRCFG of `payload` to register `reg`, or none where WRCFG fails with E_ILLEGAL
(45_commands.md R203; 30_encoding.md R80 cases 3 to 6). -/
def Cfg.write (c : Cfg) (reg : Nat) (payload : List Byte) : Option Cfg :=
  if reg ≥ 10 then none
  else if reg ≤ 7 then
    if payload.length ≠ regWidth reg then none
    else if reg = 0 ∧ leNat payload / 8 ≠ 0 then none
    else some (c.setFixed reg (leNat payload))
  else if payload.length > 16 then none
  else if reg = 8 then some { c with salt := ByteStore.ofPayload payload }
  else some { c with personal := ByteStore.ofPayload payload }

/-- The bytes RDCFG outputs for register `reg`, or none where it fails with E_ILLEGAL (45_commands.md R204). -/
def Cfg.read (c : Cfg) (reg : Nat) : Option (List Byte) :=
  if reg ≥ 10 then none
  else if reg ≤ 7 then some (bytesLE (regWidth reg) (c.fixedValue reg))
  else if reg = 8 then some c.salt.content
  else some c.personal.content

end Sys2Proof.Machine
end

