-- ==== Sys2Proof/Machine/RegisterCommands.lean ====
section
/-! DEFINITION. The register commands: WRCFG, RDCFG, RDSTAT, ZEROIZE. -/

namespace Sys2Proof.Machine

/-- WRCFG (45_commands.md R203). -/
def execWrcfg (reg : BitVec 4) (payload : List Byte) (s : State) : Result :=
  match s.cfg.write reg.toNat payload with
  | none => transact s (some .illegal) s []
  | some cfg => transact s none { s with cfg := cfg, errCode := .ok } []

/-- RDCFG (45_commands.md R204): ERRCODE keeps its value. -/
def execRdcfg (reg : BitVec 4) (s : State) : Result :=
  match s.cfg.read reg.toNat with
  | none => transact s (some .illegal) s []
  | some out => transact s none s out

/-- ZEROIZE (45_commands.md R210): every element to its power-on value. -/
def execZeroize (s : State) : Result := transact s none (State.powerOn s.lanesMax s.port) []

/-- RDSTAT (45_commands.md R211): the 4 bytes of STATUS, little-endian; ERRCODE keeps its value. -/
def execRdstat (s : State) : Result := transact s none s (bytesLE 4 s.status.toNat)

end Sys2Proof.Machine
end

