-- ==== Sys2Proof/Machine/Dispatch.lean ====
section
/-! DEFINITION. One arm per command (45_commands.md R201). -/

namespace Sys2Proof.Machine

/-- The meaning of a decoded command. -/
def exec (i : Instr) (s : State) : Host.Outcome State Fault Refusal :=
  match i with
  | .wrcfg reg payload => Sys2Proof.Machine.execWrcfg reg payload s
  | .rdcfg reg => Sys2Proof.Machine.execRdcfg reg s
  | .init => Sys2Proof.Machine.execInit s
  | .key key => Sys2Proof.Machine.execKey key s
  | .absorb payload => Sys2Proof.Machine.execAbsorb payload s
  | .final olen => Sys2Proof.Machine.execFinal olen s
  | .reset => Sys2Proof.Machine.execReset s
  | .zeroize => Sys2Proof.Machine.execZeroize s
  | .rdstat => Sys2Proof.Machine.execRdstat s

end Sys2Proof.Machine
end

