-- ==== Sys2Proof/WellFormed.lean ====
section
/-! DEFINITION. Which terms of `Instr` are commands a command word can encode: the payload's length must fit the
LEN or KL field. -/

namespace Sys2Proof

/-- LEN of WRCFG and KL of KEY are 8 bits, LEN of ABSORB is 16 bits (30_encoding.md R74–R76). Every value of every
other field is encodable; a reserved register index is an error of the command, not of the word's form
(30_encoding.md R80). -/
def Instr.wellFormed : Instr → Bool
  | .wrcfg _ payload => payload.length < 256
  | .rdcfg _ => true
  | .init => true
  | .key k => k.length < 256
  | .absorb payload => payload.length < 65536
  | .final _ => true
  | .reset => true
  | .zeroize => true
  | .rdstat => true

/-- The check as a proposition. -/
abbrev Instr.WF (i : Instr) : Prop := i.wellFormed = true

end Sys2Proof
end

