-- ==== Sys2Proof/Decode.lean ====
section
/-! DEFINITION. From command words to commands (30_encoding.md R72–R81), the encoder, and programs as byte
streams (R84). -/

namespace Sys2Proof

/-- Why a transaction or a byte string decodes to no command. -/
inductive DecodeError where
  /-- OP is 0x0 or 0xA–0xF (30_encoding.md R80 case 1): the command fails with E_ILLEGAL. -/
  | reservedOpcode
  /-- A reserved bit of the format is 1 (R80 case 2): the command fails with E_ILLEGAL. -/
  | reservedBits
  /-- The payload's length is not plen(CW) (R70): a malformed transaction. -/
  | payloadLength
  /-- A byte string of fewer than 4 bytes holds no command word (R84). -/
  | shortWord
deriving DecidableEq, Repr

/-- OP = CW[31:28] (30_encoding.md R72). -/
def opField (cw : BitVec 32) : BitVec 4 := cw.extractLsb' 28 4

/-- REG = CW[27:24] (30_encoding.md R74). -/
def regField (cw : BitVec 32) : BitVec 4 := cw.extractLsb' 24 4

/-- CW[7:0]: LEN of WRCFG, KL of KEY, OLEN of FINAL (30_encoding.md R74, R76, R77). -/
def byteField (cw : BitVec 32) : BitVec 8 := cw.extractLsb' 0 8

/-- CW[15:0]: LEN of ABSORB (30_encoding.md R75). -/
def halfField (cw : BitVec 32) : BitVec 16 := cw.extractLsb' 0 16

/-- The payload length of a command word, legal or not (30_encoding.md R79). -/
def plen (cw : BitVec 32) : Nat :=
  match (opField cw).toNat with
  | 1 => (byteField cw).toNat
  | 4 => (byteField cw).toNat
  | 5 => (halfField cw).toNat
  | _ => 0

/-- The reserved bits of the format of an opcode (30_encoding.md R73–R77), as a mask; bits [31:28] are never
reserved. -/
def reservedMask (op : Nat) : BitVec 32 :=
  match op with
  | 1 => 0x00FFFF00
  | 2 => 0x00FFFFFF
  | 4 => 0x0FFFFF00
  | 5 => 0x0FFF0000
  | 6 => 0x0FFFFF00
  | _ => 0x0FFFFFFF

/-- `legal(CW)`: the reserved bits of CW's format are all 0 (45_commands.md R201). -/
def legal (cw : BitVec 32) : Bool := cw &&& reservedMask (opField cw).toNat == 0

/-- The command of a word whose payload has the right length (45_commands.md R201): first the opcode, then the
reserved bits. -/
def decodeWord (cw : BitVec 32) (payload : List Byte) : Except DecodeError Instr :=
  let checked (i : Instr) : Except DecodeError Instr := if legal cw then .ok i else .error .reservedBits
  match (opField cw).toNat with
  | 1 => checked (.wrcfg (regField cw) payload)
  | 2 => checked (.rdcfg (regField cw))
  | 3 => checked .init
  | 4 => checked (.key payload)
  | 5 => checked (.absorb payload)
  | 6 => checked (.final (byteField cw))
  | 7 => checked .reset
  | 8 => checked .zeroize
  | 9 => checked .rdstat
  | _ => .error .reservedOpcode

/-- The decoder: total on every word and every payload (30_encoding.md R81). The payload is counted before any
legality check (R79). -/
def decode (t : Transaction) : Except DecodeError Instr :=
  if t.payload.length = plen t.cw then decodeWord t.cw t.payload else .error .payloadLength

/-- The command word of a command, field by field from bit 31 down (30_encoding.md R73–R78). -/
def encodeWord : Instr → BitVec 32
  | .wrcfg reg payload => 0x1#4 ++ reg ++ 0#16 ++ BitVec.ofNat 8 payload.length
  | .rdcfg reg => 0x2#4 ++ reg ++ 0#24
  | .init => 0x3#4 ++ 0#28
  | .key k => 0x4#4 ++ 0#20 ++ BitVec.ofNat 8 k.length
  | .absorb payload => 0x5#4 ++ 0#12 ++ BitVec.ofNat 16 payload.length
  | .final olen => 0x6#4 ++ 0#20 ++ olen
  | .reset => 0x7#4 ++ 0#28
  | .zeroize => 0x8#4 ++ 0#28
  | .rdstat => 0x9#4 ++ 0#28

/-- The payload of a command (30_encoding.md R70). -/
def payloadOf : Instr → List Byte
  | .wrcfg _ payload => payload
  | .rdcfg _ => []
  | .init => []
  | .key k => k
  | .absorb payload => payload
  | .final _ => []
  | .reset => []
  | .zeroize => []
  | .rdstat => []

/-- The transaction of a command. -/
def encode (i : Instr) : Transaction := ⟨encodeWord i, payloadOf i⟩

/-- A row of the opcode map: a word w belongs to the row when `w &&& mask = value`. -/
structure OpcodeRow where
  mnemonic : String
  value : BitVec 32
  mask : BitVec 32
deriving DecidableEq, Repr

/-- The match and mask pairs of 30_encoding.md R78. -/
def opcodeRows : List OpcodeRow :=
  [⟨"WRCFG", 0x10000000, 0xF0FFFF00⟩, ⟨"RDCFG", 0x20000000, 0xF0FFFFFF⟩, ⟨"INIT", 0x30000000, 0xFFFFFFFF⟩,
   ⟨"KEY", 0x40000000, 0xFFFFFF00⟩, ⟨"ABSORB", 0x50000000, 0xFFFF0000⟩, ⟨"FINAL", 0x60000000, 0xFFFFFF00⟩,
   ⟨"RESET", 0x70000000, 0xFFFFFFFF⟩, ⟨"ZEROIZE", 0x80000000, 0xFFFFFFFF⟩, ⟨"RDSTAT", 0x90000000, 0xFFFFFFFF⟩]

/-- The mnemonic of a command, as the opcode map spells it (30_encoding.md R78). -/
def Instr.mnemonic : Instr → String
  | .wrcfg _ _ => "WRCFG"
  | .rdcfg _ => "RDCFG"
  | .init => "INIT"
  | .key _ => "KEY"
  | .absorb _ => "ABSORB"
  | .final _ => "FINAL"
  | .reset => "RESET"
  | .zeroize => "ZEROIZE"
  | .rdstat => "RDSTAT"

/-- A transaction in a program written as a byte stream: CW as 4 little-endian bytes, then the payload
(30_encoding.md R84). -/
def Transaction.toBytes (t : Transaction) : List Byte := bytesLE 4 t.cw.toNat ++ t.payload

/-- The first transaction of a byte stream and the bytes after it: the payload's end is found from `plen` alone
(30_encoding.md R79, R84). -/
def readTransaction (bytes : List Byte) : Except DecodeError (Transaction × List Byte) :=
  if bytes.length < 4 then .error .shortWord
  else
    let cw := BitVec.ofNat 32 (leNat (bytes.take 4))
    let rest := bytes.drop 4
    if rest.length < plen cw then .error .payloadLength
    else .ok (⟨cw, rest.take (plen cw)⟩, rest.drop (plen cw))

/-- Decoding from a byte stream: the command and the bytes after it. -/
def decodeBytes (bytes : List Byte) : Except DecodeError (Instr × List Byte) :=
  match readTransaction bytes with
  | .error e => .error e
  | .ok (t, rest) =>
    match decode t with
    | .error e => .error e
    | .ok i => .ok (i, rest)

/-- A whole byte stream as transactions; `fuel` bounds their number (each takes at least 4 bytes). -/
def readStream : Nat → List Byte → Except DecodeError (List Transaction)
  | _, [] => .ok []
  | 0, _ :: _ => .error .shortWord
  | fuel + 1, b :: bs =>
    match readTransaction (b :: bs) with
    | .error e => .error e
    | .ok (t, rest) =>
      match readStream fuel rest with
      | .error e => .error e
      | .ok ts => .ok (t :: ts)

/-- A program given as a byte stream (30_encoding.md R84). -/
def readProgram (bytes : List Byte) : Except DecodeError (List Transaction) := readStream bytes.length bytes

/-- The transaction whose bits the opcode table numbers as w: the command word is bits 31..0, and the payload bytes
count on from bit 32, lowest byte first; every bit above `nbits` is 0. -/
def tableTransaction (nbits w : Nat) : Transaction :=
  let bits := w % 2 ^ nbits
  let cw := BitVec.ofNat 32 bits
  ⟨cw, bytesLE (plen cw) (bits / 2 ^ 32)⟩

/-- The command this decoder reads from an instruction whose bits are w, numbered as `spec/opcode_table.json`
numbers them. -/
def decodeTableWord (nbits w : Nat) : Option Instr :=
  match decode (tableTransaction nbits w) with
  | .ok i => some i
  | .error _ => none

end Sys2Proof
end

