-- ==== Sys2Proof/Machine/Port.lean ====
section
/-! DEFINITION. The command port: what one move of the host asks of the block (30_encoding.md R70; 45_commands.md
R200, R201, R214). -/

namespace Sys2Proof.Machine

/-- What a host move comes to. -/
inductive Request where
  /-- A decoded command, to be performed. -/
  | run (i : Instr)
  /-- A word whose step is a failure with this code. -/
  | fail (code : ResultCode)
  /-- The power-on reset. -/
  | powerOn
  /-- A move that breaks the host's duties. -/
  | refuse (r : Refusal)
deriving DecidableEq, Repr

/-- A move at the port: a word that decodes to a command runs it; a reserved opcode or a reserved bit fails with
E_ILLEGAL (30_encoding.md R80); a payload of the wrong length and an early word are refused (45_commands.md
R214). -/
def request : HostMove → Request
  | .transaction t =>
    match decode t with
    | .ok i => .run i
    | .error .reservedOpcode => .fail .illegal
    | .error .reservedBits => .fail .illegal
    | .error .payloadLength => .refuse .malformedTransaction
    | .error .shortWord => .refuse .malformedTransaction
  | .earlyWord _ => .refuse .earlyCommandWord
  | .powerOn => .powerOn

/-- Power-on reset (70_reset_and_hazards.md R270): the state of 10_state.md R43; LANES_MAX and the host's further
moves are not the block's to clear. -/
def State.applyPowerOn (s : State) : State := State.powerOn s.lanesMax s.port

/-- The transaction of a table word, put on the port as the next move. -/
def pushTableWord (s : State) (nbits w : Nat) : State :=
  { s with port := .transaction (tableTransaction nbits w) :: s.port }

end Sys2Proof.Machine
end

