-- ==== Sys2Proof/Machine/Step.lean ====
section
/-! DEFINITION. One step: the host's next move, if it has one. -/

namespace Sys2Proof.Machine

/-- One step of the machine (20_memory.md R56, R57): the next move of the host is taken off the port and performed.
With no move the host is idle and the block keeps its state (45_commands.md R214; 60_exceptions.md R251). -/
def step (s : State) : Host.Outcome State Fault Refusal :=
  match s.port with
  | [] => .next s
  | m :: rest =>
    match request m with
    | .run i => exec i { s with port := rest }
    | .fail code => .next (State.raise { s with port := rest } code)
    | .powerOn => .next (State.applyPowerOn { s with port := rest })
    | .refuse r => .refused r

/-- `s` with the instruction whose bits are w as the host's next move, before the moves already on the port. -/
def State.withFetchWord (s : State) (nbits w : Nat) : State := pushTableWord s nbits w

end Sys2Proof.Machine
end

