-- ==== Sys2Proof/Machine/Pseudo.lean ====
section
/-! DEFINITION. The pseudo-instructions of the host's programs and their expansions (30_encoding.md R83). -/

namespace Sys2Proof

/-- WRCFG of a one-byte register. -/
def writeByte (reg : BitVec 4) (val : BitVec 8) : Instr := .wrcfg reg [val]

/-- `SETUP S` and `SETUP B` (30_encoding.md R83): sequential, the variant's full digest. -/
def setupSequential : Variant → List Instr
  | .s => [writeByte 0 0x00, writeByte 1 32, .init]
  | .b => [writeByte 0 0x01, writeByte 1 64, .init]

/-- `SETUP SP, p` and `SETUP BP, p` (30_encoding.md R83): parallel with p lanes, the variant's full digest. -/
def setupParallel (v : Variant) (p : BitVec 8) : List Instr :=
  match v with
  | .s => [writeByte 0 0x02, writeByte 1 32, writeByte 2 p, .init]
  | .b => [writeByte 0 0x03, writeByte 1 64, writeByte 2 p, .init]

/-- The pieces of `ABSORB.L`; `fuel` bounds their number. -/
def absorbPieces : Nat → List Byte → List Instr
  | 0, s => [.absorb s]
  | fuel + 1, s =>
    if s.length > 65535 then .absorb (s.take 65535) :: absorbPieces fuel (s.drop 65535) else [.absorb s]

/-- `ABSORB.L bytes` (30_encoding.md R83): ABSORBs of 65535 bytes while more remain, then one of the rest; one
empty ABSORB for the empty string. -/
def absorbLong (s : List Byte) : List Instr := absorbPieces s.length s

/-- `HASH bytes` (30_encoding.md R83): it ends with RESET, which discards the key. -/
def hashProgram (s : List Byte) : List Instr := absorbLong s ++ [.final 255, .reset]

/-- `MAC key, bytes` (30_encoding.md R83). -/
def macProgram (key s : List Byte) : List Instr := .key key :: hashProgram s

/-- `NOP` (30_encoding.md R83): an RDSTAT whose output the host discards. -/
def nopProgram : List Instr := [.rdstat]

end Sys2Proof
end

