-- ==== Sys2Proof/Machine/Assembler.lean ====
section
/-! DEFINITION. The assembler syntax of the spec's programs (30_encoding.md R82, with the pseudo-instructions of
R83): one line of characters to the commands it stands for. Log entry 10 names the choices R82 leaves open. -/

namespace Sys2Proof

/-- The lexical units of a line. -/
inductive Token where
  /-- A mnemonic, a register name or a number, in upper case. -/
  | word (chars : List Char)
  /-- A byte string, written `x"…"` or `"…"`. -/
  | bytes (value : List Byte)
  | comma
deriving DecidableEq, Repr

/-- What the scanner is inside of; the characters and bytes taken so far are held last first. -/
inductive Scan where
  | blank
  | word (taken : List Char)
  | ascii (taken : List Byte)
  | hex (taken : List Byte) (high : Option Nat)
deriving DecidableEq, Repr

/-- The upper-case form of an ASCII letter; names are case-insensitive (30_encoding.md R82). -/
def upper (c : Char) : Char := if 'a' ≤ c ∧ c ≤ 'z' then Char.ofNat (c.toNat - 32) else c

/-- The value of a hexadecimal digit. -/
def hexDigit (c : Char) : Option Nat :=
  let n := (upper c).toNat
  if 48 ≤ n ∧ n ≤ 57 then some (n - 48) else if 65 ≤ n ∧ n ≤ 70 then some (n - 55) else none

/-- The characters of names and numbers. -/
def isWordChar (c : Char) : Bool :=
  let n := (upper c).toNat
  (65 ≤ n && n ≤ 90) || (48 ≤ n && n ≤ 57) || c == '_' || c == '.'

/-- The token of a finished word. -/
def wordToken (taken : List Char) : Token := .word (taken.reverse.map upper)

/-- The scanner: a `;` outside a byte string begins a comment, which ends the line. -/
def scan : Scan → List Char → Option (List Token)
  | .blank, [] => some []
  | .word w, [] => some [wordToken w]
  | .ascii _, [] => none
  | .hex _ _, [] => none
  | .blank, c :: cs =>
    if c = ';' then some []
    else if c = ' ' ∨ c = '\t' then scan .blank cs
    else if c = ',' then (scan .blank cs).map (Token.comma :: ·)
    else if c = '"' then scan (.ascii []) cs
    else if isWordChar c then scan (.word [c]) cs
    else none
  | .word w, c :: cs =>
    if c = ';' then some [wordToken w]
    else if c = ' ' ∨ c = '\t' then (scan .blank cs).map (wordToken w :: ·)
    else if c = ',' then (scan .blank cs).map fun ts => wordToken w :: Token.comma :: ts
    else if c = '"' then if w = ['x'] ∨ w = ['X'] then scan (.hex [] none) cs else none
    else if isWordChar c then scan (.word (c :: w)) cs
    else none
  | .ascii taken, c :: cs =>
    if c = '"' then (scan .blank cs).map (Token.bytes taken.reverse :: ·)
    else if c.toNat < 128 then scan (.ascii (BitVec.ofNat 8 c.toNat :: taken)) cs
    else none
  | .hex taken high, c :: cs =>
    if c = '"' then
      match high with
      | none => (scan .blank cs).map (Token.bytes taken.reverse :: ·)
      | some _ => none
    else
      match hexDigit c, high with
      | some d, none => scan (.hex taken (some d)) cs
      | some d, some h => scan (.hex (BitVec.ofNat 8 (16 * h + d) :: taken) none) cs
      | none, _ => none

/-- The number whose digits in the given base follow the value so far. -/
def digits (base : Nat) : Nat → List Char → Option Nat
  | acc, [] => some acc
  | acc, c :: cs =>
    match hexDigit c with
    | some d => if d < base then digits base (base * acc + d) cs else none
    | none => none

/-- A number: decimal, or `0x` and hexadecimal digits (30_encoding.md R82). -/
def parseNumber : List Char → Option Nat
  | [] => none
  | ['0', 'X'] => none
  | '0' :: 'X' :: ds => digits 16 0 ds
  | ds => digits 10 0 ds

/-- The register names and their indices (30_encoding.md R82; 10_state.md R23). -/
def registerNames : List (List Char × Nat) :=
  [("CTRL".toList, 0), ("DL".toList, 1), ("FANOUT".toList, 2), ("DEPTH".toList, 3), ("LEAF_LEN".toList, 4),
   ("NODE_OFFSET".toList, 5), ("NODE_DEPTH".toList, 6), ("INNER_LEN".toList, 7), ("SALT".toList, 8),
   ("PERSONAL".toList, 9)]

/-- `reg`: a register's name or its number 0 to 15 (30_encoding.md R82). -/
def parseReg (w : List Char) : Option (BitVec 4) :=
  match registerNames.lookup w with
  | some n => some (BitVec.ofNat 4 n)
  | none =>
    match parseNumber w with
    | some n => if n < 16 then some (BitVec.ofNat 4 n) else none
    | none => none

/-- A number below a bound. -/
def parseBelow (bound : Nat) (w : List Char) : Option Nat :=
  match parseNumber w with
  | some n => if n < bound then some n else none
  | none => none

/-- A command that a command word can encode, or none. -/
def encodable (i : Instr) : Option (List Instr) := if i.wellFormed then some [i] else none

/-- WRCFG of a register and a value: a number for registers 0 to 7, as many little-endian bytes as the register has;
bytes for registers 8 and 9 (30_encoding.md R82). R82 gives no value form for registers 10 to 15: that a line naming
one is rejected whatever its value is the model's choice (DESIGN CHOICE, log entry 10). -/
def assembleWrcfg (reg : BitVec 4) : Token → Option (List Instr)
  | .word w =>
    if reg.toNat ≤ 7 then
      match parseBelow (2 ^ (8 * Machine.regWidth reg.toNat)) w with
      | some n => some [.wrcfg reg (bytesLE (Machine.regWidth reg.toNat) n)]
      | none => none
    else none
  | .bytes value => if reg.toNat = 8 ∨ reg.toNat = 9 then encodable (.wrcfg reg value) else none
  | .comma => none

/-- The one-word commands (30_encoding.md R82) and the NOP pseudo-instruction (R83). -/
def assembleBare (w : List Char) : Option (List Instr) :=
  if w = "INIT".toList then some [.init]
  else if w = "RESET".toList then some [.reset]
  else if w = "ZEROIZE".toList then some [.zeroize]
  else if w = "RDSTAT".toList then some [.rdstat]
  else if w = "NOP".toList then some nopProgram
  else none

/-- The commands with a byte-string operand (30_encoding.md R82) and the pseudo-instructions with one (R83). -/
def assembleBytes (w : List Char) (value : List Byte) : Option (List Instr) :=
  if w = "KEY".toList then encodable (.key value)
  else if w = "ABSORB".toList then encodable (.absorb value)
  else if w = "ABSORB.L".toList then some (absorbLong value)
  else if w = "HASH".toList then some (hashProgram value)
  else none

/-- The commands and pseudo-instructions with a word operand. -/
def assembleWord (w arg : List Char) : Option (List Instr) :=
  if w = "RDCFG".toList then (parseReg arg).map fun reg => [.rdcfg reg]
  else if w = "FINAL".toList then (parseBelow 256 arg).map fun n => [.final (BitVec.ofNat 8 n)]
  else if w = "SETUP".toList then
    if arg = "S".toList then some (setupSequential .s)
    else if arg = "B".toList then some (setupSequential .b)
    else none
  else none

/-- `SETUP SP, p` and `SETUP BP, p` (30_encoding.md R83), and WRCFG with a number. -/
def assemblePair (w arg : List Char) (value : Token) : Option (List Instr) :=
  if w = "WRCFG".toList then
    match parseReg arg with
    | some reg => assembleWrcfg reg value
    | none => none
  else if w = "SETUP".toList then
    match value with
    | .word n =>
      match parseBelow 256 n with
      | some p =>
        if arg = "SP".toList then some (setupParallel .s (BitVec.ofNat 8 p))
        else if arg = "BP".toList then some (setupParallel .b (BitVec.ofNat 8 p))
        else none
      | none => none
    | _ => none
  else none

/-- The commands of a scanned line: none of them for an empty line (30_encoding.md R82). -/
def assembleTokens : List Token → Option (List Instr)
  | [] => some []
  | [.word w] => assembleBare w
  | [.word w, .bytes value] => assembleBytes w value
  | [.word w, .word arg] => assembleWord w arg
  | [.word w, .word arg, .comma, value] => assemblePair w arg value
  | [.word w, .bytes key, .comma, .bytes message] =>
    if w = "MAC".toList then
      match encodable (.key key) with
      | some _ => some (macProgram key message)
      | none => none
    else none
  | _ => none

/-- One line of a program (30_encoding.md R82): the commands it stands for, or none where it is no line. -/
def assembleLine (line : List Char) : Option (List Instr) :=
  match scan .blank line with
  | some ts => assembleTokens ts
  | none => none

end Sys2Proof
end

