-- ==== Sys2Proof/Machine/Reference.lean ====
section
/-! DEFINITION. The closed forms of the two digests (43_sequential_engine.md R147; 44_parallel_engine.md R172),
written over Compress alone, without the engines' buffers. Claims compare the engines with them. -/

namespace Sys2Proof.Machine

/-- The counter words for a byte count: low and high W-bit word of count mod 2^(2W) (41_block_state.md R125). -/
def counterWords (v : Variant) (count : Nat) : CoreWord v × CoreWord v :=
  (BitVec.ofNat v.wordBits count, BitVec.ofNat v.wordBits (count / 2 ^ v.wordBits))

/-- A flag word of exactly W bits: ONES or 0 (43_sequential_engine.md R147). -/
def coreFlag (v : Variant) (on : Bool) : CoreWord v := if on then BitVec.allOnes v.wordBits else 0

/-- H0 = IV xor the parameter words (43_sequential_engine.md R147). -/
def initialChain (v : Variant) (pblock : List Byte) : Vector (CoreWord v) 8 :=
  Vector.ofFn fun i => (iv v)[i] ^^^ wordAt v pblock i.val

/-- One compression of the closed form: block bytes, the count after them, the two flags. -/
def chainBlock (v : Variant) (h : Vector (CoreWord v) 8) (bytes : List Byte) (count : Nat) (final last : Bool) :
    Vector (CoreWord v) 8 :=
  let t := counterWords v count
  compress v h t.1 t.2 (coreFlag v final) (coreFlag v (final && last)) (padTo v.blockBytes bytes)

/-- k = ceil(len(D) / BB), at least 1: the blocks of D, one empty block when D is empty (43_sequential_engine.md
R147). -/
def blockCount (v : Variant) (d : List Byte) : Nat := max 1 ((d.length + v.blockBytes - 1) / v.blockBytes)

/-- H_final of a byte string D under a parameter block (43_sequential_engine.md R147): every block but the last is
compressed non-final with counter (j+1)·BB, the last is padded and final with counter len(D). -/
def closedChain (v : Variant) (pblock d : List Byte) (last : Bool) : Vector (CoreWord v) 8 :=
  let k := blockCount v d
  let h := (List.range (k - 1)).foldl
    (fun h j => chainBlock v h (blockAt v d j) ((j + 1) * v.blockBytes) false false) (initialChain v pblock)
  chainBlock v h (blockAt v d (k - 1)) d.length true last

/-- The NN-byte BLAKE2 hash of D under a parameter block (43_sequential_engine.md R147). -/
def closedHash (v : Variant) (pblock d : List Byte) (last : Bool) : List Byte :=
  (closedChain v pblock d last).toList.flatMap fun x => bytesLE v.wordBytes x.toNat

/-- The stream of lane i: blocks i, i + P, i + 2P, … of the byte string (44_parallel_engine.md R172; blocks beyond
the end are empty). -/
def stripe (v : Variant) (p i : Nat) (d : List Byte) : List Byte :=
  (List.range d.length).flatMap fun k => blockAt v d (i + k * p)

/-- The parallel hash of a message in closed form (44_parallel_engine.md R172): each lane hashes its stripe,
prefixed with the key block when keyed; the root hashes the lane digests. -/
def closedTreeHash (a : Act) (key message : List Byte) : List Byte :=
  let v := a.variant
  let p := a.laneCount
  let laneHash (i : Nat) : List Byte :=
    closedHash v (laneParamBlock a i a.kl) (keyBlock v key ++ stripe v p i message) (i + 1 == p)
  closedHash v (rootParamBlock a) ((List.range p).flatMap laneHash) true

end Sys2Proof.Machine
end

