-- ==== Sys2Proof/Safety.lean ====
section
/-! DEFINITION. What claims speak of: the host's duties, the steps of a run, and the invariants of the state between
commands. -/

namespace Sys2Proof.Machine

/-- A move that keeps the host's duties (45_commands.md R214): a power-on reset, or a transaction with exactly
plen(CW) payload bytes. -/
def HostMove.dutiful : HostMove → Prop
  | .transaction t => t.payload.length = plen t.cw
  | .earlyWord _ => False
  | .powerOn => True

/-- The host keeps its duties in every move it has still to make. -/
def State.dutiful (s : State) : Prop := ∀ m ∈ s.port, m.dutiful

/-- The commands of a list, performed one after another (20_memory.md R56, R57). -/
def execAll : List Instr → State → Result
  | [], s => .next s
  | i :: is, s =>
    match exec i s with
    | .next t => execAll is t
    | .fault r => .fault r
    | .refused r => .refused r

/-- `s` after a command that failed with `code`: the whole effect of 60_exceptions.md R241. -/
def State.failedWith (s : State) (code : ResultCode) : State :=
  { s with errCode := code, errSticky := true, resp := some ⟨code, []⟩ }

/-- A word of opcode `op` with one of the bits of `reserved` set fails with E_ILLEGAL and does nothing else, whatever
the state (30_encoding.md R72, R80 case 2). -/
def ReservedBitsFail (op : BitVec 4) (reserved : BitVec 32) : Prop :=
  ∀ (s : State) (rest : List HostMove) (t : Transaction), s.port = .transaction t :: rest →
    t.payload.length = plen t.cw → t.cw.extractLsb' 28 4 = op → t.cw &&& reserved ≠ 0 →
    step s = .next (State.failedWith { s with port := rest } .illegal)

/-- A cell holds a W-bit word: the bits above W are zero (10_state.md R39). -/
abbrev CellFits (v : Variant) (x : Cell64) : Prop := x.toNat < 2 ^ v.wordBits

/-- Every word of a node is a W-bit word (10_state.md R31, R39). -/
def Node.Fits (v : Variant) (n : Node) : Prop :=
  (∀ x ∈ n.h.toList, CellFits v x) ∧ CellFits v n.t0 ∧ CellFits v n.t1 ∧ CellFits v n.f0 ∧ CellFits v n.f1

/-- The flags of a node are 0 or ONES_W, and F[1] = ONES_W implies F[0] = ONES_W (10_state.md R40). -/
def Node.FlagsLegal (v : Variant) (n : Node) : Prop :=
  (n.f0 = 0 ∨ n.f0 = v.ones) ∧ (n.f1 = 0 ∨ n.f1 = v.ones) ∧ (n.f1 = v.ones → n.f0 = v.ones)

/-- No flag of a node is set. -/
def Node.Unflagged (n : Node) : Prop := n.f0 = 0 ∧ n.f1 = 0

/-- A byte store as WRCFG leaves one: a length of at most 16, zero bytes beyond it (10_state.md R29). -/
def ByteStore.Legal (b : ByteStore) : Prop := b.len ≤ 16 ∧ ∀ i : Fin 16, b.len ≤ i.val → b.bytes[i] = 0

/-- CFG as WRCFG leaves it: CTRL[7:3] = 0 and legal stores (10_state.md R24, R29). -/
structure Cfg.Legal (c : Cfg) : Prop where
  ctrl : c.ctrl.toNat < 8
  salt : c.salt.Legal
  personal : c.personal.Legal

/-- ACT as a successful INIT and KEY leave it (45_commands.md R205, R206). -/
structure Act.Legal (lanesMax : Nat) (a : Act) : Prop where
  dl : 1 ≤ a.dl.toNat ∧ a.dl.toNat ≤ a.variant.digestBytes
  kl : a.kl.toNat ≤ a.variant.keyBytes
  salt : a.salt.Legal ∧ (a.salt.len = 0 ∨ a.salt.len = a.variant.saltBytes)
  personal : a.personal.Legal ∧ (a.personal.len = 0 ∨ a.personal.len = a.variant.saltBytes)
  lanes : a.mode = .parallel → a.laneCount % 2 = 0 ∧ 2 ≤ a.laneCount ∧ a.laneCount ≤ lanesMax
  offset : a.mode = .sequential → a.variant = .s → a.nodeOffset.toNat < 2 ^ 48

/-- The sequential engine between commands (10_state.md R32–R34; 43_sequential_engine.md R144): no lane and no SB in
use, at most one block in BUF, a counter of whole blocks until FINAL. -/
structure SequentialShape (s : State) : Prop where
  lanes : ∀ n ∈ s.lanes, n = Node.zero
  sb : s.sb = []
  buf : s.buf.length ≤ s.act.variant.blockBytes
  whole : s.fsm ≠ .finalized → s.node.counter s.act.variant % s.act.variant.blockBytes = 0

/-- The parallel engine between commands (10_state.md R31–R34; 44_parallel_engine.md R177): BUF empty, SB below two
blocks per lane and, when keyed and running or once a lane has counted a block, at least one; lanes from P on zero;
before FINAL the root zero and lane counters of whole blocks. -/
structure ParallelShape (s : State) : Prop where
  buf : s.buf = []
  sb : s.sb.length < 2 * s.act.laneCount * s.act.variant.blockBytes
  keyed : s.fsm = .buffering → s.act.kl ≠ 0 → s.act.laneCount * s.act.variant.blockBytes ≤ s.sb.length
  batched : s.fsm ≠ .finalized → (∃ n ∈ s.lanes, n.counter s.act.variant ≠ 0) →
    s.act.laneCount * s.act.variant.blockBytes ≤ s.sb.length
  unused : ∀ n ∈ s.lanes.drop s.act.laneCount, n = Node.zero
  root : s.fsm ≠ .finalized → s.node = Node.zero
  whole : s.fsm ≠ .finalized → ∀ n ∈ s.lanes, n.counter s.act.variant % s.act.variant.blockBytes = 0

/-- What each FSM state says of the buffers and the key (10_state.md R22; 43_sequential_engine.md R144). -/
def FsmShape (s : State) : Prop :=
  match s.fsm with
  | .unconfigured => s.act = Act.zero ∧ s.node = Node.zero ∧ s.buf = [] ∧ s.sb = [] ∧ ∀ n ∈ s.lanes, n = Node.zero
  | .empty => s.act.kl = 0 ∧ s.buf = [] ∧ s.sb = []
  | .buffering => s.buf ≠ [] ∨ s.sb ≠ []
  | .finalized => s.buf = [] ∧ s.sb = []

/-- The invariant of the state between commands. -/
structure Inv (s : State) : Prop where
  lanesMax : LanesMaxLegal s.lanesMax
  laneCount : s.lanes.length = s.lanesMax
  cfg : s.cfg.Legal
  act : s.fsm ≠ .unconfigured → s.act.Legal s.lanesMax
  nodeFits : s.node.Fits s.act.variant
  lanesFit : ∀ n ∈ s.lanes, n.Fits s.act.variant
  nodeFlags : s.node.FlagsLegal s.act.variant
  laneFlags : ∀ n ∈ s.lanes, n.FlagsLegal s.act.variant
  unflagged : s.fsm ≠ .finalized → s.node.Unflagged ∧ ∀ n ∈ s.lanes, n.Unflagged
  sequential : s.fsm ≠ .unconfigured → s.act.mode = .sequential → SequentialShape s
  parallel : s.fsm ≠ .unconfigured → s.act.mode = .parallel → ParallelShape s
  fsm : FsmShape s

end Sys2Proof.Machine
end

