-- ==== Sys2Proof/Certificates/Slice0/Obligations.lean ====
section
/-! DEFINITION. The statements for the provers. -/

open Sys2Proof Sys2Proof.Machine

/-! ### Power-on and the port -/

/-- 10_state.md R43, every row of its table and the sentence on INIT as the first command. It speaks of a block with
any LANES_MAX; `State.reset` is such a block. -/
def Obligations.PowerOnStateHasTheTabledValues : Prop :=
  (∃ lanesMax port, State.reset = State.powerOn lanesMax port) ∧
  ∀ (lanesMax : Nat) (port : List HostMove),
    let s := State.powerOn lanesMax port
    let absent : ByteStore := ⟨Vector.replicate 16 0, 0⟩
    s.fsm.code = 0 ∧ s.fsm = .unconfigured ∧
    s.cfg = ⟨0x00, 32, 1, 1, 0, 0, 0, 0, absent, absent⟩ ∧
    s.act = ⟨.s, .sequential, false, 0, 0, 0, 0, 0, 0, 0, absent, absent, 0⟩ ∧
    s.node = ⟨Vector.replicate 8 0, 0, 0, 0, 0⟩ ∧ s.buf = [] ∧
    s.lanes.length = lanesMax ∧ (∀ n ∈ s.lanes, n = ⟨Vector.replicate 8 0, 0, 0, 0, 0⟩) ∧
    s.sb = [] ∧ s.errCode.code = 0 ∧ s.errSticky = false ∧ s.status = 0 ∧
    ∃ t, exec .init s = .next t ∧ t.resp = some ⟨.ok, []⟩ ∧ t.fsm = .empty ∧
      t.act = ⟨.s, .sequential, false, 32, 1, 1, 0, 0, 0, 0, absent, absent, 0⟩

/-- A step runs the command that the next transaction's word and payload decode to; what it adds around `exec` is
that the transaction leaves the port (30_encoding.md R70; 45_commands.md R200, R201). -/
def Obligations.StepRunsTheDecodedCommand : Prop :=
  ∀ (s : State) (t : Transaction) (rest : List HostMove) (i : Instr),
    s.port = .transaction t :: rest → decode t = .ok i → step s = exec i { s with port := rest }

/-- The other moves of the host (45_commands.md R214; 70_reset_and_hazards.md R270; 60_exceptions.md R251): idle
keeps the state, the reset signal gives the power-on state, a malformed transaction and an early word are refused.
That LANES_MAX and the host's later moves survive a power-on, and that an idle step is a step at all, are the
model's (log entries 1, 2 and 5). -/
def Obligations.StepOfTheOtherHostMoves : Prop :=
  (∀ s : State, s.port = [] → step s = .next s) ∧
  (∀ (s : State) (rest : List HostMove), s.port = .powerOn :: rest →
    step s = .next (State.powerOn s.lanesMax rest)) ∧
  (∀ (s : State) (rest : List HostMove) (t : Transaction), s.port = .transaction t :: rest →
    t.payload.length ≠ plen t.cw → step s = .refused .malformedTransaction) ∧
  (∀ (s : State) (rest : List HostMove) (cw : BitVec 32), s.port = .earlyWord cw :: rest →
    step s = .refused .earlyCommandWord)

/-- A host that keeps its duties always gets a next state, and a response to every transaction (45_commands.md R214:
"A response always arrives"). -/
def Obligations.DutifulHostIsNeverRefused : Prop :=
  ∀ s : State, s.dutiful → ∃ t, step s = .next t ∧ t.dutiful ∧
    ∀ tr rest, s.port = .transaction tr :: rest → t.port = rest ∧ ∃ r, t.resp = some r

/-! ### Encoding -/

/-- Words written out from the formats of 30_encoding.md R73–R78 decode to their commands. -/
def Obligations.WrittenOutWordsDecode : Prop :=
  decode ⟨0b00010001000000000000000000000001, [64]⟩ = .ok (.wrcfg 1 [64]) ∧
  decode ⟨0b00101000000000000000000000000000, []⟩ = .ok (.rdcfg 8) ∧
  decode ⟨0b00110000000000000000000000000000, []⟩ = .ok .init ∧
  decode ⟨0b01000000000000000000000000000011, [0x6B, 0x65, 0x79]⟩ = .ok (.key [0x6B, 0x65, 0x79]) ∧
  decode ⟨0b01010000000000000000000000000011, [0x61, 0x62, 0x63]⟩ = .ok (.absorb [0x61, 0x62, 0x63]) ∧
  decode ⟨0b01100000000000000000000000100000, []⟩ = .ok (.final 32) ∧
  decode ⟨0b01110000000000000000000000000000, []⟩ = .ok .reset ∧
  decode ⟨0b10000000000000000000000000000000, []⟩ = .ok .zeroize ∧
  decode ⟨0b10010000000000000000000000000000, []⟩ = .ok .rdstat

/-- Decoding the encoding of a well-formed command gives it back (30_encoding.md R73–R79). -/
def Obligations.DecodeInvertsEncode : Prop := ∀ i : Instr, i.WF → decode (encode i) = .ok i

/-- Each transaction that decodes is the encoding of its command, which is well-formed (30_encoding.md R81: a word
has one meaning). -/
def Obligations.EncodeInvertsDecode : Prop :=
  ∀ (t : Transaction) (i : Instr), decode t = .ok i → i.WF ∧ encode i = t

/-- The match and mask pairs of 30_encoding.md R78: no word belongs to two rows; a word with the payload plen(CW)
asks for belongs to a row exactly when it decodes to that row's command; and every other word has the one meaning
E_ILLEGAL (R81). -/
def Obligations.OpcodeRowsDecideTheMeaning : Prop :=
  (opcodeRows.Pairwise fun a b => ∀ w : BitVec 32, w &&& a.mask = a.value → w &&& b.mask ≠ b.value) ∧
  ∀ t : Transaction, t.payload.length = plen t.cw →
    (∀ row ∈ opcodeRows,
      t.cw &&& row.mask = row.value ↔ ∃ i, request (.transaction t) = .run i ∧ i.mnemonic = row.mnemonic) ∧
    ((∀ row ∈ opcodeRows, t.cw &&& row.mask ≠ row.value) ↔ request (.transaction t) = .fail .illegal)

/-- 30_encoding.md R80: each of its six cases fails with E_ILLEGAL and does nothing else. -/
def Obligations.IllegalEncodingsFailAndDoNothingElse : Prop :=
  ∀ (s : State) (rest : List HostMove) (t : Transaction), s.port = .transaction t :: rest →
    t.payload.length = plen t.cw →
    let op := (t.cw.extractLsb' 28 4).toNat
    let reg := (t.cw.extractLsb' 24 4).toNat
    let len := (t.cw.extractLsb' 0 8).toNat
    (op = 0 ∨ 10 ≤ op) ∨
    (op = 1 ∧ t.cw.extractLsb' 8 16 ≠ 0 ∨ op = 2 ∧ t.cw.extractLsb' 0 24 ≠ 0 ∨
      (op = 3 ∨ op = 7 ∨ op = 8 ∨ op = 9) ∧ t.cw.extractLsb' 0 28 ≠ 0 ∨
      (op = 4 ∨ op = 6) ∧ t.cw.extractLsb' 8 20 ≠ 0 ∨ op = 5 ∧ t.cw.extractLsb' 16 12 ≠ 0) ∨
    ((op = 1 ∨ op = 2) ∧ 10 ≤ reg) ∨
    (op = 1 ∧ reg ≤ 7 ∧ len ≠ (if reg = 4 then 4 else if reg = 5 then 8 else 1)) ∨
    (op = 1 ∧ (reg = 8 ∨ reg = 9) ∧ 16 < len) ∨
    (op = 1 ∧ reg = 0 ∧ ∃ b ∈ t.payload, b.extractLsb' 3 5 ≠ 0) →
    step s = .next (State.failedWith { s with port := rest } .illegal)

/-- A program of transactions with full payloads reads back from its byte stream (30_encoding.md R84, R79). -/
def Obligations.ByteStreamReadsBack : Prop :=
  ∀ ts : List Transaction, (∀ t ∈ ts, t.payload.length = plen t.cw) →
    readProgram (ts.flatMap fun t =>
      [t.cw.extractLsb' 0 8, t.cw.extractLsb' 8 8, t.cw.extractLsb' 16 8, t.cw.extractLsb' 24 8] ++ t.payload) = .ok ts

/-- Every command that a line of a program stands for can be encoded (30_encoding.md R82, R83). Which lines beside
the rule's grammar are accepted or rejected is the model's choice (log entry 10). -/
def Obligations.AssembledCommandsAreEncodable : Prop :=
  ∀ (line : List Char) (is : List Instr), assembleLine line = some is → ∀ i ∈ is, decode (encode i) = .ok i

/-- ABSORB.L of a byte string is a sequence of encodable ABSORBs with the effect of one ABSORB of all of it
(30_encoding.md R83; 00_scope.md R6). No command word carries an ABSORB of more than 65535 bytes: that `exec` has a
meaning for one, which the right side names, is the model's choice (log entry 4). -/
def Obligations.AbsorbLongActsAsOneAbsorb : Prop :=
  ∀ (m : List Byte) (s : State), (∀ i ∈ absorbLong m, i.WF) ∧ execAll (absorbLong m) s = exec (.absorb m) s

/-! ### What every command does -/

/-- 60_exceptions.md R241: a command that answers a code other than OK has changed ERRCODE, ERR_STICKY and the
response, with no output, and nothing else; so does a step whose word decodes to no command. -/
def Obligations.FailedCommandChangesOnlyTheErrorRegisters : Prop :=
  (∀ (i : Instr) (s t : State) (r : Response), exec i s = .next t → t.resp = some r → r.rc ≠ .ok →
    t = { s with errCode := r.rc, errSticky := true, resp := some ⟨r.rc, []⟩ }) ∧
  ∀ (s t : State) (tr : Transaction) (rest : List HostMove) (r : Response), s.port = .transaction tr :: rest →
    step s = .next t → t.resp = some r → r.rc ≠ .ok →
    t = { s with port := rest, errCode := r.rc, errSticky := true, resp := some ⟨r.rc, []⟩ }

/-- 60_exceptions.md R242: the error registers after a successful command, and what clears ERR_STICKY. -/
def Obligations.SuccessfulCommandErrorRegisters : Prop :=
  (∀ (i : Instr) (s t : State) (out : List Byte), exec i s = .next t → t.resp = some ⟨.ok, out⟩ →
    (match i with
      | .rdcfg _ | .rdstat => t.errCode = s.errCode
      | _ => t.errCode = .ok) ∧
    (match i with
      | .zeroize => t.errSticky = false
      | _ => t.errSticky = s.errSticky)) ∧
  (∀ (s t : State) (rest : List HostMove), s.port = .powerOn :: rest → step s = .next t → t.errSticky = false) ∧
  (∀ s t : State, step s = .next t → s.errSticky = true → t.errSticky = false →
    (∃ rest, s.port = .powerOn :: rest) ∨ ∃ tr rest, s.port = .transaction tr :: rest ∧ decode tr = .ok .zeroize)

/-- 30_encoding.md R71: every command answers; OUT is empty but for a successful RDCFG (the register's bytes), RDSTAT
(4 bytes) and FINAL (DL bytes, where DL is one that INIT admits). -/
def Obligations.OutputOfEveryResponse : Prop :=
  ∀ (i : Instr) (s : State), ∃ t r, exec i s = .next t ∧ t.resp = some r ∧
    (r.rc ≠ .ok → r.out = []) ∧
    (r.rc = .ok →
      match i with
      | .rdcfg reg => s.cfg.read reg.toNat = some r.out
      | .rdstat => r.out.length = 4
      | .final _ => s.act.dl.toNat ≤ s.act.variant.digestBytes → r.out.length = s.act.dl.toNat
      | _ => r.out = [])

/-- 45_commands.md R213: the FSM after every command, by the table; a dash, and nothing but a dash, fails with E_STATE,
and it changes nothing else; a command that fails for another reason leaves the FSM as it was. -/
def Obligations.FsmFollowsTheTransitionTable : Prop :=
  ∀ (i : Instr) (s t : State) (r : Response), exec i s = .next t → t.resp = some r →
    let dash := match i with
      | .key _ | .reset => s.fsm = .unconfigured
      | .absorb _ | .final _ => s.fsm = .unconfigured ∨ s.fsm = .finalized
      | _ => False
    (r.rc = .ok → t.fsm =
      match i with
      | .wrcfg _ _ | .rdcfg _ | .rdstat => s.fsm
      | .init | .reset => .empty
      | .key _ => .buffering
      | .absorb payload => if payload = [] then s.fsm else .buffering
      | .final _ => .finalized
      | .zeroize => .unconfigured) ∧
    (r.rc ≠ .ok → t.fsm = s.fsm) ∧
    (dash → t = { s with errCode := .badState, errSticky := true, resp := some ⟨.badState, []⟩ }) ∧
    (r.rc = .badState → dash)

/-- The write marks of 10_state.md R42, as frames: an element a command does not write keeps its value. LANES_MAX and
the port are no elements of R42: that they are fields which no command writes is the model's choice (log entries 1
and 2). -/
def Obligations.CommandsWriteOnlyTheirElements : Prop :=
  ∀ (i : Instr) (s t : State), exec i s = .next t →
    t.lanesMax = s.lanesMax ∧ t.port = s.port ∧
    (match i with
      | .wrcfg _ _ => t.fsm = s.fsm ∧ t.act = s.act ∧ t.node = s.node ∧ t.buf = s.buf ∧ t.lanes = s.lanes ∧ t.sb = s.sb
      | .rdcfg _ | .rdstat => t.fsm = s.fsm ∧ t.cfg = s.cfg ∧ t.act = s.act ∧ t.node = s.node ∧ t.buf = s.buf ∧
          t.lanes = s.lanes ∧ t.sb = s.sb
      | .init => t.cfg = s.cfg
      | .key _ | .reset => t.cfg = s.cfg ∧ { t.act with kl := s.act.kl } = s.act
      | .absorb _ => t.cfg = s.cfg ∧ t.act = s.act ∧
          (s.act.mode = .sequential → t.lanes = s.lanes ∧ t.sb = s.sb) ∧
          (s.act.mode = .parallel → t.node = s.node ∧ t.buf = s.buf)
      | .final _ => t.cfg = s.cfg ∧ t.act = s.act ∧ (s.act.mode = .sequential → t.lanes = s.lanes ∧ t.sb = s.sb)
      | .zeroize => True)

/-- 60_exceptions.md R243: the one code a command reports is the first failing check's, in the order of the rule.
E_ILLEGAL at decode comes first for every word, whatever the state. -/
def Obligations.FirstFailingCheckIsReported : Prop :=
  (∀ (s : State) (rest : List HostMove) (t : Transaction), s.port = .transaction t :: rest →
    t.payload.length = plen t.cw → (∀ i, decode t ≠ .ok i) →
    step s = .next (State.failedWith { s with port := rest } .illegal)) ∧
  ∀ s : State,
    let nn := s.cfg.variant.digestBytes
    let sl := s.cfg.variant.saltBytes
    let fails (i : Instr) (code : ResultCode) : Prop := exec i s = .next (s.failedWith code)
    let digest := s.cfg.dl = 0 ∨ nn < s.cfg.dl.toNat
    let lanes := s.cfg.mode = .parallel ∧
      (s.cfg.fanout.toNat % 2 = 1 ∨ s.cfg.fanout.toNat < 2 ∨ s.lanesMax < s.cfg.fanout.toNat)
    let salt := s.cfg.salt.len ≠ 0 ∧ s.cfg.salt.len ≠ sl
    let personal := s.cfg.personal.len ≠ 0 ∧ s.cfg.personal.len ≠ sl
    let offset := s.cfg.mode = .sequential ∧ s.cfg.variant = .s ∧ 2 ^ 48 ≤ s.cfg.nodeOffset.toNat
    (digest → fails .init .digestLen) ∧
    (¬ digest → lanes → fails .init .lanes) ∧
    (¬ digest → ¬ lanes → salt → fails .init .saltLen) ∧
    (¬ digest → ¬ lanes → ¬ salt → personal → fails .init .personalLen) ∧
    (¬ digest → ¬ lanes → ¬ salt → ¬ personal → offset → fails .init .nodeOffset) ∧
    (∀ key : List Byte,
      (s.fsm = .unconfigured → fails (.key key) .badState) ∧
      (s.fsm ≠ .unconfigured → (key.length = 0 ∨ s.act.variant.keyBytes < key.length) → fails (.key key) .keyLen) ∧
      (s.fsm ≠ .unconfigured → 1 ≤ key.length → key.length ≤ s.act.variant.keyBytes →
        s.act.variant.blockBytes < key.length + s.act.salt.len + s.act.personal.len → fails (.key key) .keyBlock)) ∧
    (∀ payload, s.fsm = .unconfigured ∨ s.fsm = .finalized → fails (.absorb payload) .badState) ∧
    (∀ olen, s.fsm = .unconfigured ∨ s.fsm = .finalized → fails (.final olen) .badState) ∧
    (∀ olen : BitVec 8, s.fsm = .empty ∨ s.fsm = .buffering → olen.toNat < s.act.dl.toNat →
      fails (.final olen) .outBuf) ∧
    (s.fsm = .unconfigured → fails .reset .badState)

/-! ### The register commands -/

/-- 45_commands.md R203: WRCFG, every register and every failing form; multi-byte values are little-endian. -/
def Obligations.WrcfgWritesTheNamedRegister : Prop :=
  ReservedBitsFail 0x1 0x00FFFF00 ∧
  ∀ (s : State) (payload : List Byte),
    let writes (reg : BitVec 4) (c : Cfg) : Prop :=
      exec (.wrcfg reg payload) s = .next { s with cfg := c, errCode := .ok, resp := some ⟨.ok, []⟩ }
    let illegal (reg : BitVec 4) : Prop :=
      exec (.wrcfg reg payload) s =
        .next { s with errCode := .illegal, errSticky := true, resp := some ⟨.illegal, []⟩ }
    let stored (x : ByteStore) : Prop := x.len = payload.length ∧ ∀ j : Fin 16, x.bytes[j] = payload.getD j.val 0
    (∀ reg : BitVec 4, 10 ≤ reg.toNat → illegal reg) ∧
    (∀ reg : BitVec 4, reg.toNat ≤ 7 → payload.length ≠ (if reg = 4 then 4 else if reg = 5 then 8 else 1) →
      illegal reg) ∧
    (16 < payload.length → illegal 8 ∧ illegal 9) ∧
    (∀ b, payload = [b] →
      (8 ≤ b.toNat → illegal 0) ∧ (b.toNat < 8 → writes 0 { s.cfg with ctrl := b }) ∧
      writes 1 { s.cfg with dl := b } ∧ writes 2 { s.cfg with fanout := b } ∧ writes 3 { s.cfg with depth := b } ∧
      writes 6 { s.cfg with nodeDepth := b } ∧ writes 7 { s.cfg with innerLen := b }) ∧
    (∀ b0 b1 b2 b3, payload = [b0, b1, b2, b3] → writes 4 { s.cfg with leafLen := b3 ++ b2 ++ b1 ++ b0 }) ∧
    (∀ b0 b1 b2 b3 b4 b5 b6 b7, payload = [b0, b1, b2, b3, b4, b5, b6, b7] →
      writes 5 { s.cfg with nodeOffset := b7 ++ b6 ++ b5 ++ b4 ++ b3 ++ b2 ++ b1 ++ b0 }) ∧
    (payload.length ≤ 16 →
      (∃ x, stored x ∧ writes 8 { s.cfg with salt := x }) ∧ (∃ x, stored x ∧ writes 9 { s.cfg with personal := x }))

/-- 45_commands.md R204: RDCFG, every register; only the response changes. CTRL reads with bits [7:3] zero in every
state that the invariant admits. -/
def Obligations.RdcfgOutputsTheNamedRegister : Prop :=
  ReservedBitsFail 0x2 0x00FFFFFF ∧
  ∀ s : State,
    let reads (reg : BitVec 4) (out : List Byte) : Prop :=
      exec (.rdcfg reg) s = .next { s with resp := some ⟨.ok, out⟩ }
    reads 0 [s.cfg.ctrl] ∧ reads 1 [s.cfg.dl] ∧ reads 2 [s.cfg.fanout] ∧ reads 3 [s.cfg.depth] ∧
    reads 4 [s.cfg.leafLen.extractLsb' 0 8, s.cfg.leafLen.extractLsb' 8 8, s.cfg.leafLen.extractLsb' 16 8,
      s.cfg.leafLen.extractLsb' 24 8] ∧
    reads 5 ((List.range 8).map fun k => s.cfg.nodeOffset.extractLsb' (8 * k) 8) ∧
    reads 6 [s.cfg.nodeDepth] ∧ reads 7 [s.cfg.innerLen] ∧
    reads 8 (s.cfg.salt.bytes.toList.take s.cfg.salt.len) ∧
    reads 9 (s.cfg.personal.bytes.toList.take s.cfg.personal.len) ∧
    (Inv s → s.cfg.ctrl.extractLsb' 3 5 = 0) ∧
    ∀ reg : BitVec 4, 10 ≤ reg.toNat →
      exec (.rdcfg reg) s = .next { s with errCode := .illegal, errSticky := true, resp := some ⟨.illegal, []⟩ }

/-- RDCFG after a successful WRCFG of the same register outputs the payload written (45_commands.md R203, R204;
20_memory.md R62). -/
def Obligations.ReadBackGivesTheWrittenPayload : Prop :=
  ∀ (reg : BitVec 4) (payload : List Byte) (s t : State), exec (.wrcfg reg payload) s = .next t →
    t.resp = some ⟨.ok, []⟩ → exec (.rdcfg reg) t = .next { t with resp := some ⟨.ok, payload⟩ }

/-- 45_commands.md R210: ZEROIZE succeeds in every state and leaves the power-on state. That the fields LANES_MAX and
port survive it is the model's choice (log entries 1 and 2). -/
def Obligations.ZeroizeLeavesThePowerOnState : Prop :=
  ReservedBitsFail 0x8 0x0FFFFFFF ∧
  ∀ s : State, exec .zeroize s = .next { State.powerOn s.lanesMax s.port with resp := some ⟨.ok, []⟩ } ∧
    (State.powerOn s.lanesMax s.port).status = 0

/-- 45_commands.md R211: RDSTAT succeeds in every state, outputs STATUS in 4 little-endian bytes, and changes only
the response; a second one outputs the same word. -/
def Obligations.RdstatOutputsStatus : Prop :=
  ReservedBitsFail 0x9 0x0FFFFFFF ∧
  ∀ s : State,
    let t : State := { s with resp := some ⟨.ok, [s.status.extractLsb' 0 8, s.status.extractLsb' 8 8,
      s.status.extractLsb' 16 8, s.status.extractLsb' 24 8]⟩ }
    exec .rdstat s = .next t ∧ exec .rdstat t = .next t

/-- 10_state.md R36: the fields of STATUS, in every state that the invariant admits, with the codes of R22 and of
60_exceptions.md R240 written out. -/
def Obligations.StatusFieldsReportTheState : Prop :=
  ∀ s : State, Inv s →
    (s.status.extractLsb' 0 3 =
      match s.fsm with
      | .unconfigured => 0
      | .empty => 1
      | .buffering => 2
      | .finalized => 3) ∧
    (s.status.getLsbD 3 = true ↔ s.fsm ≠ .unconfigured ∧ s.act.mode = .parallel) ∧
    (s.status.getLsbD 4 = true ↔ s.fsm ≠ .unconfigured ∧ s.act.variant = .b) ∧
    (s.status.getLsbD 5 = true ↔ s.act.kl ≠ 0) ∧
    s.status.getLsbD 6 = s.errSticky ∧ s.status.getLsbD 7 = false ∧
    (s.status.extractLsb' 8 8 =
      match s.errCode with
      | .ok => 0
      | .illegal => 1
      | .badState => 2
      | .digestLen => 3
      | .keyLen => 4
      | .lanes => 5
      | .saltLen => 6
      | .personalLen => 7
      | .nodeOffset => 8
      | .outBuf => 9
      | .keyBlock => 10) ∧
    (s.status.extractLsb' 16 16).toNat =
      (if s.fsm = .unconfigured then 0
       else
         match s.act.mode with
         | .sequential => s.buf.length
         | .parallel => s.sb.length)

/-! ### Starting the engine -/

/-- 45_commands.md R205: INIT, its checks in order and its effect; what the engine start writes is stated by the two
obligations after this one. -/
def Obligations.InitActivatesTheConfiguration : Prop :=
  ReservedBitsFail 0x3 0x0FFFFFFF ∧
  ∀ s : State,
    let v : Variant := if s.cfg.ctrl.getLsbD 0 then .b else .s
    let m : Mode := if s.cfg.ctrl.getLsbD 1 then .parallel else .sequential
    let act : Act := ⟨v, m, s.cfg.ctrl.getLsbD 2, s.cfg.dl, s.cfg.fanout, s.cfg.depth, s.cfg.leafLen,
      s.cfg.nodeOffset, s.cfg.nodeDepth, s.cfg.innerLen, s.cfg.salt, s.cfg.personal, 0⟩
    let digest := 1 ≤ s.cfg.dl.toNat ∧ s.cfg.dl.toNat ≤ v.digestBytes
    let lanes := m = .parallel →
      s.cfg.fanout.toNat % 2 = 0 ∧ 2 ≤ s.cfg.fanout.toNat ∧ s.cfg.fanout.toNat ≤ s.lanesMax
    let salt := s.cfg.salt.len = 0 ∨ s.cfg.salt.len = v.saltBytes
    let personal := s.cfg.personal.len = 0 ∨ s.cfg.personal.len = v.saltBytes
    let offset := m = .sequential → v = .s → s.cfg.nodeOffset.toNat < 2 ^ 48
    (¬ digest → exec .init s = .next (s.failedWith .digestLen)) ∧
    (digest → ¬ lanes → exec .init s = .next (s.failedWith .lanes)) ∧
    (digest → lanes → ¬ salt → exec .init s = .next (s.failedWith .saltLen)) ∧
    (digest → lanes → salt → ¬ personal → exec .init s = .next (s.failedWith .personalLen)) ∧
    (digest → lanes → salt → personal → ¬ offset → exec .init s = .next (s.failedWith .nodeOffset)) ∧
    (digest → lanes → salt → personal → offset →
      exec .init s = .next { engineStart [] { s with act := act } with
        fsm := .empty, errCode := .ok, resp := some ⟨.ok, []⟩ })

/-- 43_sequential_engine.md R140, R141 and the sequential branch of 45_commands.md R202: starting the sequential
engine, with every element it leaves alone. -/
def Obligations.SequentialStartLoadsNodeAndKeyBlock : Prop :=
  ∀ (s : State) (key : List Byte), s.act.mode = .sequential → key.length ≤ s.act.variant.keyBytes →
    let v := s.act.variant
    let kl : BitVec 8 := BitVec.ofNat 8 key.length
    let fields : ParamFields := ⟨s.act.dl, kl, s.act.fanout, s.act.depth, s.act.leafLen, s.act.nodeOffset,
      s.act.nodeDepth, s.act.innerLen, s.act.salt.bytes.toList.take v.saltBytes,
      s.act.personal.bytes.toList.take v.saltBytes⟩
    kl.toNat = key.length ∧
    engineStart key s =
      { s with
        act := { s.act with kl := kl }
        node := nodeInit v (paramBlock v fields)
        buf := if key = [] then [] else key ++ List.replicate (v.blockBytes - key.length) 0
        lanes := List.replicate s.lanesMax ⟨Vector.replicate 8 0, 0, 0, 0, 0⟩
        sb := [] }

/-- 44_parallel_engine.md R161, R162 and the parallel branch of 45_commands.md R202: starting the parallel engine,
with every element it leaves alone. -/
def Obligations.ParallelStartLoadsLanesAndKeyBlocks : Prop :=
  ∀ (s : State) (key : List Byte), s.act.mode = .parallel → s.act.fanout.toNat ≤ s.lanesMax →
    key.length ≤ s.act.variant.keyBytes →
    let v := s.act.variant
    let kl : BitVec 8 := BitVec.ofNat 8 key.length
    let lane (i : Nat) : ParamFields := ⟨s.act.dl, kl, s.act.fanout, 2, 0, BitVec.ofNat 64 i, 0,
      BitVec.ofNat 8 v.digestBytes, s.act.salt.bytes.toList.take v.saltBytes,
      s.act.personal.bytes.toList.take v.saltBytes⟩
    kl.toNat = key.length ∧
    ∃ lanes : List Node,
      engineStart key s =
        { s with
          act := { s.act with kl := kl }
          lanes := lanes
          sb := (List.replicate s.act.fanout.toNat
            (if key = [] then [] else key ++ List.replicate (v.blockBytes - key.length) 0)).flatten
          node := ⟨Vector.replicate 8 0, 0, 0, 0, 0⟩
          buf := [] } ∧
      lanes.length = s.lanesMax ∧
      (∀ i, i < s.act.fanout.toNat → lanes[i]? = some (nodeInit v (paramBlock v (lane i)))) ∧
      (∀ i, s.act.fanout.toNat ≤ i → i < s.lanesMax → lanes[i]? = some ⟨Vector.replicate 8 0, 0, 0, 0, 0⟩)

/-- 45_commands.md R206: KEY, its checks and its effect. -/
def Obligations.KeyRestartsTheEngineKeyed : Prop :=
  ReservedBitsFail 0x4 0x0FFFFF00 ∧
  ∀ (s : State) (key : List Byte),
    (s.fsm = .unconfigured → exec (.key key) s = .next (s.failedWith .badState)) ∧
    (s.fsm ≠ .unconfigured → (key.length = 0 ∨ s.act.variant.keyBytes < key.length) →
      exec (.key key) s = .next (s.failedWith .keyLen)) ∧
    (s.fsm ≠ .unconfigured → 1 ≤ key.length → key.length ≤ s.act.variant.keyBytes →
      (s.act.variant.blockBytes < key.length + s.act.salt.len + s.act.personal.len →
        exec (.key key) s = .next (s.failedWith .keyBlock)) ∧
      (key.length + s.act.salt.len + s.act.personal.len ≤ s.act.variant.blockBytes →
        exec (.key key) s = .next { engineStart key s with
          fsm := .buffering, errCode := .ok, resp := some ⟨.ok, []⟩ }))

/-- 45_commands.md R209: RESET keeps ACT but for KL, does not read CFG, and restarts the engine unkeyed. -/
def Obligations.ResetRestartsTheEngineUnkeyed : Prop :=
  ReservedBitsFail 0x7 0x0FFFFFFF ∧
  ∀ s : State,
    (s.fsm = .unconfigured → exec .reset s = .next (s.failedWith .badState)) ∧
    (s.fsm ≠ .unconfigured →
      exec .reset s = .next { engineStart [] s with fsm := .empty, errCode := .ok, resp := some ⟨.ok, []⟩ } ∧
      (engineStart [] s).act = { s.act with kl := 0 } ∧ (engineStart [] s).cfg = s.cfg ∧
      (engineStart [] s).errSticky = s.errSticky)

/-! ### Taking message bytes -/

/-- 43_sequential_engine.md R142: one byte in sequential mode. A full buffer is compressed, non-final, only now that a
further byte has come; a byte that fills the buffer compresses nothing. -/
def Obligations.AbsorbOneByteSequential : Prop :=
  ∀ (s : State) (b : Byte), s.fsm = .empty ∨ s.fsm = .buffering → s.act.mode = .sequential →
    exec (.absorb [b]) s = .next
      (if s.buf.length = s.act.variant.blockBytes then
        { s with
          node := nodeCompress s.act.variant s.node s.buf false false
          buf := [b]
          fsm := .buffering, errCode := .ok, resp := some ⟨.ok, []⟩ }
       else { s with buf := s.buf ++ [b], fsm := .buffering, errCode := .ok, resp := some ⟨.ok, []⟩ })

/-- 44_parallel_engine.md R164, R165: one byte in parallel mode. The byte that fills SB to 2·P·BB runs a batch. -/
def Obligations.AbsorbOneByteParallel : Prop :=
  ∀ (s : State) (b : Byte), s.fsm = .empty ∨ s.fsm = .buffering → s.act.mode = .parallel →
    let v := s.act.variant
    let p := s.act.fanout.toNat
    let full := s.sb ++ [b]
    (full.length ≠ 2 * p * v.blockBytes →
      exec (.absorb [b]) s =
        .next { s with sb := full, fsm := .buffering, errCode := .ok, resp := some ⟨.ok, []⟩ }) ∧
    (full.length = 2 * p * v.blockBytes →
      ∃ lanes : List Node,
        exec (.absorb [b]) s = .next
          { s with
            lanes := lanes
            sb := full.drop (p * v.blockBytes)
            fsm := .buffering, errCode := .ok, resp := some ⟨.ok, []⟩ } ∧
        lanes.length = s.lanes.length ∧
        ∀ (i : Nat) (n : Node), s.lanes[i]? = some n → lanes[i]? = some
          (if i < p then
            nodeCompress v n ((full.drop (i * v.blockBytes)).take v.blockBytes) false false
           else n))

/-- 45_commands.md R207: ABSORB in each state and mode; an empty ABSORB changes only ERRCODE. What one byte does is
stated by the two obligations before this one. -/
def Obligations.AbsorbCompletesWhileRunning : Prop :=
  ReservedBitsFail 0x5 0x0FFF0000 ∧
  ∀ (s : State) (payload : List Byte),
    (s.fsm = .unconfigured ∨ s.fsm = .finalized →
      exec (.absorb payload) s = .next (s.failedWith .badState)) ∧
    (s.fsm = .empty ∨ s.fsm = .buffering →
      (payload = [] → exec (.absorb payload) s = .next { s with errCode := .ok, resp := some ⟨.ok, []⟩ }) ∧
      (payload ≠ [] → s.act.mode = .sequential →
        let e := payload.foldl (seqAbsorbByte s.act.variant) ⟨s.node, s.buf⟩
        exec (.absorb payload) s = .next
          { s with node := e.node, buf := e.buf, fsm := .buffering, errCode := .ok, resp := some ⟨.ok, []⟩ }) ∧
      (payload ≠ [] → s.act.mode = .parallel →
        let e := payload.foldl (parAbsorbByte s.act.variant s.act.fanout.toNat) ⟨s.lanes, s.sb⟩
        exec (.absorb payload) s = .next
          { s with lanes := e.lanes, sb := e.sb, fsm := .buffering, errCode := .ok, resp := some ⟨.ok, []⟩ }))

/-- 43_sequential_engine.md R148 and 44_parallel_engine.md R173: a payload may be split anywhere, in every state and
both modes. -/
def Obligations.AbsorbSplitsAnywhere : Prop :=
  ∀ (s t : State) (p q : List Byte), exec (.absorb p) s = .next t →
    exec (.absorb (p ++ q)) s = exec (.absorb q) t

/-- After a non-empty ABSORB. 43_sequential_engine.md R144, in sequential mode: at least one byte and at most one block
stays resident, and the counter is the bytes taken in less those resident (mod 2^(2W)). 44_parallel_engine.md R177,
in parallel mode, where `batches` batches have run: SB is not empty and below two blocks per lane, a batch leaves at
least one block per lane, and each lane's counter has grown by one block per batch. -/
def Obligations.LastBlockStaysResident : Prop :=
  ∀ (s t : State) (payload : List Byte), s.fsm = .empty ∨ s.fsm = .buffering → payload ≠ [] →
    exec (.absorb payload) s = .next t →
    let v := s.act.variant
    let p := s.act.fanout.toNat
    let wrap := 2 ^ (2 * v.wordBits)
    (s.act.mode = .sequential → s.buf.length ≤ v.blockBytes →
      1 ≤ t.buf.length ∧ t.buf.length ≤ v.blockBytes ∧
      (t.node.counter v + t.buf.length) % wrap = (s.node.counter v + s.buf.length + payload.length) % wrap) ∧
    (s.act.mode = .parallel → s.sb.length < 2 * p * v.blockBytes →
      ∃ batches : Nat,
        t.sb.length + batches * p * v.blockBytes = s.sb.length + payload.length ∧
        1 ≤ t.sb.length ∧ t.sb.length < 2 * p * v.blockBytes ∧ (1 ≤ batches → p * v.blockBytes ≤ t.sb.length) ∧
        ∀ (i : Nat) (n : Node), i < p → s.lanes[i]? = some n →
          ∃ n', t.lanes[i]? = some n' ∧
            n'.counter v % wrap = (n.counter v + batches * v.blockBytes) % wrap)

/-- 44_parallel_engine.md R167: what a batch and the finalization do to lane i depends on that lane and its own
blocks of SB alone. -/
def Obligations.LanesDoNotInterfere : Prop :=
  ∀ (v : Variant) (p i : Nat) (e e' : ParEngine), e.lanes[i]? = e'.lanes[i]? → e.sb.length = e'.sb.length →
    blockAt v e.sb i = blockAt v e'.sb i → blockAt v e.sb (i + p) = blockAt v e'.sb (i + p) →
    (batch v p e).lanes[i]? = (batch v p e').lanes[i]? ∧
    (finalizeLanes v p e)[i]? = (finalizeLanes v p e')[i]?

/-! ### Finishing -/

/-- The sequential branch of 45_commands.md R208 with 43_sequential_engine.md R145 and R146: the resident bytes are the
final block, the output is the first DL bytes of H, little-endian. -/
def Obligations.FinalOutputsTheSequentialDigest : Prop :=
  ∀ (s : State) (olen : BitVec 8), s.fsm = .empty ∨ s.fsm = .buffering → s.act.mode = .sequential →
    s.act.dl.toNat ≤ olen.toNat →
    let v := s.act.variant
    let node := nodeCompress v s.node s.buf true s.act.lastNode
    exec (.final olen) s = .next
      { s with
        node := node, buf := [], fsm := .finalized, errCode := .ok
        resp := some ⟨.ok, (node.h.toList.flatMap fun x =>
          (List.range v.wordBytes).map fun k => x.extractLsb' (8 * k) 8).take s.act.dl.toNat⟩ }

/-- The parallel branch of 45_commands.md R208 with 44_parallel_engine.md R168–R171: each lane's case, the digests in
lane order, and the root. -/
def Obligations.FinalOutputsTheParallelDigest : Prop :=
  ∀ (s : State) (olen : BitVec 8), s.fsm = .empty ∨ s.fsm = .buffering → s.act.mode = .parallel →
    s.act.dl.toNat ≤ olen.toNat →
    let v := s.act.variant
    let bb := v.blockBytes
    let p := s.act.fanout.toNat
    let root : ParamFields := ⟨s.act.dl, s.act.kl, s.act.fanout, 2, 0, 0, 1, BitVec.ofNat 8 v.digestBytes,
      s.act.salt.bytes.toList.take v.saltBytes, s.act.personal.bytes.toList.take v.saltBytes⟩
    ∃ lanes : List Node,
      let digests := (lanes.take p).flatMap (nodeDigest v)
      let e := seqAbsorb v ⟨nodeInit v (paramBlock v root), []⟩ digests
      let node := nodeCompress v e.node e.buf true true
      exec (.final olen) s = .next
        { s with
          lanes := lanes, sb := [], node := node, buf := [], fsm := .finalized, errCode := .ok
          resp := some ⟨.ok, (nodeDigest v node).take s.act.dl.toNat⟩ } ∧
      lanes.length = s.lanes.length ∧
      ∀ (i : Nat) (n : Node), s.lanes[i]? = some n →
        let last := decide (i + 1 = p)
        let own := slice s.sb (i * bb) (min s.sb.length ((i + 1) * bb))
        let second := slice s.sb ((i + p) * bb) (min s.sb.length ((i + p + 1) * bb))
        lanes[i]? = some
          (if p ≤ i then n
           else if (i + p) * bb < s.sb.length then
             nodeCompress v (nodeCompress v n own false false) second true last
           else if i * bb < s.sb.length then nodeCompress v n own true last
           else nodeCompress v n [] true last)

/-- 45_commands.md R208: FINAL, its checks and its effect in each mode. What its parts compute is stated by the two
obligations before this one. -/
def Obligations.FinalCompletesWhileRunning : Prop :=
  ReservedBitsFail 0x6 0x0FFFFF00 ∧
  ∀ (s : State) (olen : BitVec 8),
    (s.fsm = .unconfigured ∨ s.fsm = .finalized → exec (.final olen) s = .next (s.failedWith .badState)) ∧
    (s.fsm = .empty ∨ s.fsm = .buffering →
      (olen.toNat < s.act.dl.toNat → exec (.final olen) s = .next (s.failedWith .outBuf)) ∧
      (s.act.dl.toNat ≤ olen.toNat → s.act.mode = .sequential →
        let e := seqFinal s.act.variant ⟨s.node, s.buf⟩ s.act.lastNode
        exec (.final olen) s = .next
          { s with
            node := e.node, buf := e.buf, fsm := .finalized, errCode := .ok
            resp := some ⟨.ok, (nodeDigest s.act.variant e.node).take s.act.dl.toNat⟩ }) ∧
      (s.act.dl.toNat ≤ olen.toNat → s.act.mode = .parallel →
        let lanes := finalizeLanes s.act.variant s.act.fanout.toNat ⟨s.lanes, s.sb⟩
        let e := rootEngine s.act.variant (rootParamBlock s.act)
          (laneDigests s.act.variant s.act.fanout.toNat lanes)
        exec (.final olen) s = .next
          { s with
            lanes := lanes, sb := [], node := e.node, buf := e.buf, fsm := .finalized, errCode := .ok
            resp := some ⟨.ok, (nodeDigest s.act.variant e.node).take s.act.dl.toNat⟩ }))

/-- 43_sequential_engine.md R147: from any start of the sequential engine, whatever the payloads, the digest is the
first DL bytes of the closed form over the key block and every byte absorbed. -/
def Obligations.SequentialDigestIsTheClosedForm : Prop :=
  ∀ (start : Instr) (key : List Byte) (s s0 : State) (payloads : List (List Byte)) (olen : BitVec 8),
    (start = .init ∧ key = [] ∨ start = .reset ∧ key = [] ∨ start = .key key) →
    exec start s = .next s0 → s0.resp = some ⟨.ok, []⟩ → s0.act.mode = .sequential →
    s0.act.dl.toNat ≤ olen.toNat →
    ∃ t, execAll (payloads.map Instr.absorb ++ [.final olen]) s0 = .next t ∧
      t.resp = some ⟨.ok, (closedHash s0.act.variant (seqParamBlock s0.act s0.act.kl)
        (keyBlock s0.act.variant key ++ payloads.flatten) s0.act.lastNode).take s0.act.dl.toNat⟩

/-- 44_parallel_engine.md R172: from any start of the parallel engine, whatever the payloads, the digest is the first
DL bytes of the root hash over the lane hashes of the message's stripes. -/
def Obligations.ParallelDigestIsTheClosedForm : Prop :=
  ∀ (start : Instr) (key : List Byte) (s s0 : State) (payloads : List (List Byte)) (olen : BitVec 8),
    (start = .init ∧ key = [] ∨ start = .reset ∧ key = [] ∨ start = .key key) →
    exec start s = .next s0 → s0.resp = some ⟨.ok, []⟩ → s0.act.mode = .parallel →
    s0.act.dl.toNat ≤ olen.toNat →
    ∃ t, execAll (payloads.map Instr.absorb ++ [.final olen]) s0 = .next t ∧
      t.resp = some ⟨.ok, (closedTreeHash s0.act key payloads.flatten).take s0.act.dl.toNat⟩

/-! ### Nodes and the compression core -/

/-- 41_block_state.md R121 and R122: the byte positions of the parameter block. -/
def Obligations.ParameterBlockLayout : Prop :=
  ∀ p : ParamFields,
    let ll := [p.leafLen.extractLsb' 0 8, p.leafLen.extractLsb' 8 8, p.leafLen.extractLsb' 16 8,
      p.leafLen.extractLsb' 24 8]
    (p.salt.length = 16 → p.personal.length = 16 →
      let pb := paramBlock .b p
      pb.length = 64 ∧ slice pb 0 4 = [p.dl, p.kl, p.fanout, p.depth] ∧ slice pb 4 8 = ll ∧
      slice pb 8 16 = (List.range 8).map (fun k => p.nodeOffset.extractLsb' (8 * k) 8) ∧
      slice pb 16 18 = [p.nodeDepth, p.innerLen] ∧ slice pb 18 32 = List.replicate 14 0 ∧
      slice pb 32 48 = p.salt ∧ slice pb 48 64 = p.personal) ∧
    (p.salt.length = 8 → p.personal.length = 8 →
      let pb := paramBlock .s p
      pb.length = 32 ∧ slice pb 0 4 = [p.dl, p.kl, p.fanout, p.depth] ∧ slice pb 4 8 = ll ∧
      slice pb 8 14 = (List.range 6).map (fun k => p.nodeOffset.extractLsb' (8 * k) 8) ∧
      slice pb 14 16 = [p.nodeDepth, p.innerLen] ∧ slice pb 16 24 = p.salt ∧ slice pb 24 32 = p.personal)

/-- 41_block_state.md R123, R124: NodeInit of a block whose words are P[0..7], each the little-endian value of its WB
bytes, with the worked examples of the two rules. -/
def Obligations.NodeInitXorsTheParameterWords : Prop :=
  (∀ (pb : List Byte) (i : Fin 8) (b0 b1 b2 b3 : Byte),
    (pb.drop (i.val * 4)).take 4 = [b0, b1, b2, b3] →
    (nodeInit .s pb).h[i] = (ivS[i] ^^^ (b3 ++ b2 ++ b1 ++ b0)).setWidth 64) ∧
  (∀ (pb : List Byte) (i : Fin 8) (b0 b1 b2 b3 b4 b5 b6 b7 : Byte),
    (pb.drop (i.val * 8)).take 8 = [b0, b1, b2, b3, b4, b5, b6, b7] →
    (nodeInit .b pb).h[i] = ivB[i] ^^^ (b7 ++ b6 ++ b5 ++ b4 ++ b3 ++ b2 ++ b1 ++ b0)) ∧
  (∀ (v : Variant) (pb : List Byte), (nodeInit v pb).t0 = 0 ∧ (nodeInit v pb).t1 = 0 ∧ (nodeInit v pb).f0 = 0 ∧
    (nodeInit v pb).f1 = 0) ∧
  (let fields (dl : BitVec 8) (sl : Nat) : ParamFields := ⟨dl, 0, 1, 1, 0, 0, 0, 0, zeros sl, zeros sl⟩
    let pbB := paramBlock .b (fields 64 16)
    let pbS := paramBlock .s (fields 32 8)
    (wordAt .b pbB 0).toNat = 0x0000000001010040 ∧ (∀ i : Fin 7, (wordAt .b pbB (i.val + 1)).toNat = 0) ∧
    (wordAt .s pbS 0).toNat = 0x01010020 ∧
    (nodeInit .b pbB).h[0] = 0x6A09E667F2BDC948 ∧ (nodeInit .s pbS).h[0] = 0x6B08E647)

/-- 41_block_state.md R125: CtrAdd adds to the 2W-bit counter, low word first, and wraps at 2^(2W); it changes no
other word of the node. -/
def Obligations.CounterAddsWithCarryAndWraps : Prop :=
  ∀ (v : Variant) (k : Nat) (n : Node),
    let t := (n.t0.toNat + 2 ^ v.wordBits * n.t1.toNat + k) % 2 ^ (2 * v.wordBits)
    (ctrAdd v k n).t0.toNat = t % 2 ^ v.wordBits ∧ (ctrAdd v k n).t1.toNat = t / 2 ^ v.wordBits ∧
    (ctrAdd v k n).h = n.h ∧ (ctrAdd v k n).f0 = n.f0 ∧ (ctrAdd v k n).f1 = n.f1

/-- 41_block_state.md R126: NodeCompress counts the true bytes, sets F from `final` and `last`, then takes H from
Compress of the updated counter and flags and the padded block. -/
def Obligations.NodeCompressCountsFlagsThenCompresses : Prop :=
  ∀ (v : Variant) (n : Node) (s : List Byte) (final last : Bool), s.length ≤ v.blockBytes →
    let c := ctrAdd v s.length n
    let r := nodeCompress v n s final last
    r.t0 = c.t0 ∧ r.t1 = c.t1 ∧
    r.f0 = (if final = true then v.ones else 0) ∧ r.f1 = (if final = true ∧ last = true then v.ones else 0) ∧
    r.h = (compress v (n.h.map fun x => x.setWidth v.wordBits) (c.t0.setWidth v.wordBits) (c.t1.setWidth v.wordBits)
      (if final = true then BitVec.allOnes v.wordBits else 0)
      (if final = true ∧ last = true then BitVec.allOnes v.wordBits else 0)
      (s ++ List.replicate (v.blockBytes - s.length) 0)).map fun x => x.setWidth 64

/-- 40_compression.md R101 and R102: the IV of variant B, each IV word of variant S as the upper half of it, and each
row of SIGMA as a permutation of 0..15 (the rows themselves are written out in RoundWrittenOut). -/
def Obligations.ConstantTablesAreConsistent : Prop :=
  ivB.toList = [0x6A09E667F3BCC908, 0xBB67AE8584CAA73B, 0x3C6EF372FE94F82B, 0xA54FF53A5F1D36F1,
    0x510E527FADE682D1, 0x9B05688C2B3E6C1F, 0x1F83D9ABFB41BD6B, 0x5BE0CD19137E2179] ∧
  (∀ i : Fin 8, ivS[i] = ivB[i].extractLsb' 32 32) ∧
  (∀ r : Fin 10, ∀ x : Fin 16, ∃ j : Fin 16, (sigmaRow r.val)[j] = x)

/-- 40_compression.md R107–R109: the working vector before round 0, one round after the other, 10 for variant S and
12 for variant B, and the new chaining value. -/
def Obligations.CompressRunsEveryRound : Prop :=
  ∀ (v : Variant) (h : Vector (CoreWord v) 8) (t0 t1 f0 f1 : CoreWord v) (block : List Byte),
    let rounds := match v with
      | .s => 10
      | .b => 12
    ∃ work : Nat → Vector (CoreWord v) 16,
      (∀ i : Fin 8, (work 0)[i.val] = h[i]) ∧ (∀ i : Fin 4, (work 0)[i.val + 8] = (iv v)[i.val]) ∧
      (work 0)[12] = (iv v)[4] ^^^ t0 ∧ (work 0)[13] = (iv v)[5] ^^^ t1 ∧
      (work 0)[14] = (iv v)[6] ^^^ f0 ∧ (work 0)[15] = (iv v)[7] ^^^ f1 ∧
      (∀ r, r < rounds → work (r + 1) = compressionRound v.rotations (messageWords v block) (work r) r) ∧
      ∀ i : Fin 8, (compress v h t0 t1 f0 f1 block)[i] = h[i] ^^^ (work rounds)[i.val] ^^^ (work rounds)[i.val + 8]

/-- 40_compression.md R104 and R110: the worked examples of the two rules. -/
def Obligations.CompressionWorkedExamples : Prop :=
  mixG (w := 32) (Variant.rotations .s) 0 0 0 0 1 0 = (0x00000011, 0x20220202, 0x11010100, 0x11000100) ∧
  (compress .b (initialChain .b (paramBlock .b ⟨64, 0, 1, 1, 0, 0, 0, 0, zeros 16, zeros 16⟩)) 3#64 0#64
    (BitVec.allOnes 64) 0#64 (padTo 128 [0x61, 0x62, 0x63]))[0].toNat = 0x0D4D1C983FA580BA

/-- 40_compression.md R105: G applications to disjoint words of the working vector can be made in either order. -/
def Obligations.DisjointApplicationsCommute : Prop :=
  ∀ (w : Nat) (rot : Rotations) (v : Vector (BitVec w) 16) (i j k l i' j' k' l' : Fin 16) (x y x' y' : BitVec w),
    [i, j, k, l, i', j', k', l'].Nodup →
    applyG rot (applyG rot v i j k l x y) i' j' k' l' x' y' = applyG rot (applyG rot v i' j' k' l' x' y') i j k l x y

/-! ### Invariants and whole-machine rules -/

/-- The invariant holds at reset. The value of LANES_MAX there is the model's choice (log entry 1). -/
def Obligations.ResetMeetsTheInvariant : Prop := Inv State.reset

/-- Every step keeps the invariant (10_state.md R24, R29, R31–R34, R39, R40; 43_sequential_engine.md R144;
44_parallel_engine.md R177). -/
def Obligations.StepKeepsTheInvariant : Prop := ∀ s t : State, Inv s → step s = .next t → Inv t

/-- 10_state.md R40: the flags of every node stay 0 or ONES_W, both 0 outside a final compression, and F[1] implies
F[0]. -/
def Obligations.StepKeepsTheFlagsLegal : Prop :=
  let legal (s : State) : Prop := ∀ n, n = s.node ∨ n ∈ s.lanes →
    n.FlagsLegal s.act.variant ∧ (s.fsm ≠ .finalized → n.f0 = 0 ∧ n.f1 = 0)
  legal State.reset ∧ ∀ s t : State, legal s → step s = .next t → legal t

/-- 10_state.md R39: a step keeps the bits above W of every stored word zero. -/
def Obligations.StepKeepsWordsOfWBits : Prop :=
  let fits (s : State) : Prop := s.node.Fits s.act.variant ∧ ∀ n ∈ s.lanes, n.Fits s.act.variant
  ∀ s t : State, fits s → step s = .next t → fits t

/-- 70_reset_and_hazards.md R275: WRCFG changes no element of the engine, KEY, ABSORB, FINAL, RESET and RDSTAT do the
same whatever CFG holds, RESET keeps ACT but for KL, and only INIT takes CFG over. -/
def Obligations.StagingDoesNotDisturbTheComputation : Prop :=
  (∀ (reg : BitVec 4) (payload : List Byte) (s t : State), exec (.wrcfg reg payload) s = .next t →
    t.fsm = s.fsm ∧ t.act = s.act ∧ t.node = s.node ∧ t.buf = s.buf ∧ t.lanes = s.lanes ∧ t.sb = s.sb) ∧
  (∀ (i : Instr) (s t : State) (c : Cfg),
    (match i with
      | .key _ | .absorb _ | .final _ | .reset | .rdstat => True
      | _ => False) →
    exec i s = .next t → exec i { s with cfg := c } = .next { t with cfg := c }) ∧
  (∀ s t : State, exec .reset s = .next t → { t.act with kl := s.act.kl } = s.act) ∧
  (∀ s t : State, exec .init s = .next t → t.resp = some ⟨.ok, []⟩ →
    t.act.dl = s.cfg.dl ∧ t.act.fanout = s.cfg.fanout ∧ t.act.depth = s.cfg.depth ∧ t.act.leafLen = s.cfg.leafLen ∧
    t.act.nodeOffset = s.cfg.nodeOffset ∧ t.act.nodeDepth = s.cfg.nodeDepth ∧ t.act.innerLen = s.cfg.innerLen ∧
    t.act.salt = s.cfg.salt ∧ t.act.personal = s.cfg.personal ∧ t.act.variant = s.cfg.variant ∧
    t.act.mode = s.cfg.mode ∧ t.act.lastNode = s.cfg.lastNode)

/-- After RESET nothing of the engine depends on the key or the message of before: two configured states with the same
parameters but for KL come to the same engine (45_commands.md R209; 90_conflicts.md C5). -/
def Obligations.ResetForgetsKeyAndMessage : Prop :=
  ∀ s s' t t' : State, s.fsm ≠ .unconfigured → s'.fsm ≠ .unconfigured → s.lanesMax = s'.lanesMax →
    { s.act with kl := 0 } = { s'.act with kl := 0 } → exec .reset s = .next t → exec .reset s' = .next t' →
    t.fsm = t'.fsm ∧ t.act = t'.act ∧ t.node = t'.node ∧ t.buf = t'.buf ∧ t.lanes = t'.lanes ∧ t.sb = t'.sb

/-- 41_block_state.md R127: once finalized, no node changes until a command that initializes every node anew (or the
power-on reset). -/
def Obligations.FinalizedNodesAreKept : Prop :=
  ∀ (i : Instr) (s t : State), s.fsm = .finalized → exec i s = .next t →
    (match i with
      | .init | .key _ | .reset | .zeroize => False
      | _ => True) → t.fsm = .finalized ∧ t.node = s.node ∧ t.lanes = s.lanes

/-- 41_block_state.md R128: E_KEY_BLOCK is never the answer in a state that the invariant admits. -/
def Obligations.KeyBlockErrorIsUnreachable : Prop :=
  ∀ (i : Instr) (s t : State) (r : Response), Inv s → exec i s = .next t → t.resp = some r → r.rc ≠ .keyBlock

/-! ### One round written out -/

/-- 40_compression.md R102–R105: for both variants, the eight steps of G with the variant's rotation amounts; then a
round, which applies G to the four columns of the working vector and then, in the vector they leave, to the four
diagonals, application n with the message words 2n and 2n + 1 of row r mod 10 of the schedule. -/
def Obligations.RoundWrittenOut : Prop :=
  (∀ (v : Variant) (a b c d x y : CoreWord v),
    let r1 := match v with
      | .s => 16
      | .b => 32
    let r2 := match v with
      | .s => 12
      | .b => 24
    let r3 := match v with
      | .s => 8
      | .b => 16
    let r4 := match v with
      | .s => 7
      | .b => 63
    let a1 := a + b + x
    let d1 := (d ^^^ a1).rotateRight r1
    let c1 := c + d1
    let b1 := (b ^^^ c1).rotateRight r2
    let a2 := a1 + b1 + y
    let d2 := (d1 ^^^ a2).rotateRight r3
    let c2 := c1 + d2
    let b2 := (b1 ^^^ c2).rotateRight r4
    mixG v.rotations a b c d x y = (a2, b2, c2, d2)) ∧
  ∀ (v : Variant) (m w : Vector (CoreWord v) 16) (r : Nat),
    let schedule : List (List (Fin 16)) :=
      [[0, 1, 2, 3, 4, 5, 6, 7, 8, 9, 10, 11, 12, 13, 14, 15],
       [14, 10, 4, 8, 9, 15, 13, 6, 1, 12, 0, 2, 11, 7, 5, 3],
       [11, 8, 12, 0, 5, 2, 15, 13, 10, 14, 3, 6, 7, 1, 9, 4],
       [7, 9, 3, 1, 13, 12, 11, 14, 2, 6, 5, 10, 4, 0, 15, 8],
       [9, 0, 5, 7, 2, 4, 10, 15, 14, 1, 11, 12, 6, 8, 3, 13],
       [2, 12, 6, 10, 0, 11, 8, 3, 4, 13, 7, 5, 15, 14, 1, 9],
       [12, 5, 1, 15, 14, 13, 4, 10, 0, 7, 6, 3, 9, 2, 8, 11],
       [13, 11, 7, 14, 12, 1, 3, 9, 5, 0, 15, 4, 8, 6, 2, 10],
       [6, 15, 14, 9, 11, 3, 0, 8, 12, 2, 13, 7, 1, 4, 10, 5],
       [10, 2, 8, 4, 7, 6, 1, 5, 15, 11, 9, 14, 3, 12, 13, 0]]
    let word (n : Nat) : CoreWord v := m[(schedule.getD (r % 10) []).getD n 0]
    let done := compressionRound v.rotations m w r
    ∃ mid : Vector (CoreWord v) 16,
      (∀ j : Fin 4, (mid[j.val], mid[j.val + 4], mid[j.val + 8], mid[j.val + 12]) =
        mixG v.rotations w[j.val] w[j.val + 4] w[j.val + 8] w[j.val + 12] (word (2 * j.val)) (word (2 * j.val + 1))) ∧
      ∀ j : Fin 4,
        (done[j.val], done[(j.val + 1) % 4 + 4], done[(j.val + 2) % 4 + 8], done[(j.val + 3) % 4 + 12]) =
          mixG v.rotations mid[j.val] mid[(j.val + 1) % 4 + 4] mid[(j.val + 2) % 4 + 8] mid[(j.val + 3) % 4 + 12]
            (word (2 * j.val + 8)) (word (2 * j.val + 9))

/-- 40_compression.md R106: the message words are the block's 16 words of WB bytes, byte 0 of a word lowest. -/
def Obligations.MessageWordsAreLittleEndian : Prop :=
  (∀ (block : List Byte) (j : Fin 16) (b0 b1 b2 b3 : Byte), (block.drop (j.val * 4)).take 4 = [b0, b1, b2, b3] →
    (messageWords .s block)[j] = b3 ++ b2 ++ b1 ++ b0) ∧
  (∀ (block : List Byte) (j : Fin 16) (b0 b1 b2 b3 b4 b5 b6 b7 : Byte),
    (block.drop (j.val * 8)).take 8 = [b0, b1, b2, b3, b4, b5, b6, b7] →
    (messageWords .b block)[j] = b7 ++ b6 ++ b5 ++ b4 ++ b3 ++ b2 ++ b1 ++ b0)
end

