-- ==== Sys2Proof/Laws/Bytes.lean ====
section
/-! SUPPORT. Lengths, slices and the little-endian round trips. -/

namespace Sys2Proof

@[simp] theorem zeros_length (n : Nat) : (zeros n).length = n := by simp [zeros]

@[simp] theorem slice_length (s : List Byte) (a b : Nat) : (slice s a b).length = min b s.length - a := by
  simp [slice]

@[simp] theorem padTo_length (n : Nat) (s : List Byte) : (padTo n s).length = max n s.length := by
  simp [padTo]; omega

@[simp] theorem bytesLE_length (n x : Nat) : (bytesLE n x).length = n := by
  induction n generalizing x with
  | zero => rfl
  | succ n ih => simp [bytesLE, ih]

theorem leNat_lt (s : List Byte) : leNat s < 256 ^ s.length := by
  induction s with
  | nil => simp [leNat]
  | cons b s ih =>
    have hb := b.isLt
    simp only [leNat, List.length_cons, Nat.pow_succ]
    omega

/-- Reading back the bytes of a number: the number modulo 256^n. -/
theorem leNat_bytesLE (n x : Nat) : leNat (bytesLE n x) = x % 256 ^ n := by
  induction n generalizing x with
  | zero => simp [bytesLE, leNat, Nat.mod_one]
  | succ n ih =>
    have hpow : 256 ^ (n + 1) = 256 * 256 ^ n := by ring
    simp only [bytesLE, leNat, ih, BitVec.toNat_ofNat]
    rw [hpow, Nat.mod_mul]

/-- Writing back the number of a byte string: the byte string. -/
theorem bytesLE_leNat (s : List Byte) : bytesLE s.length (leNat s) = s := by
  induction s with
  | nil => rfl
  | cons b s ih =>
    have hb := b.isLt
    have h1 : BitVec.ofNat 8 (b.toNat + 256 * leNat s) = b := by
      apply BitVec.eq_of_toNat_eq
      simp only [BitVec.toNat_ofNat]
      omega
    have h2 : (b.toNat + 256 * leNat s) / 256 = leNat s := by omega
    simp [bytesLE, leNat, h1, h2, ih]

theorem bytesLE_leNat_of_length {n : Nat} {s : List Byte} (h : s.length = n) : bytesLE n (leNat s) = s := by
  subst h; exact bytesLE_leNat s

/-- The little-endian bytes of a bit vector are its 8-bit fields from bit 0 up. -/
theorem bytesLE_eq_extract (w n : Nat) (x : BitVec w) :
    bytesLE n x.toNat = (List.range n).map fun k => x.extractLsb' (8 * k) 8 := by
  suffices h : ∀ n y, bytesLE n y = (List.range n).map fun k => BitVec.ofNat 8 (y / 2 ^ (8 * k)) by
    rw [h]; apply List.map_congr_left; intro k _
    apply BitVec.eq_of_toNat_eq; simp [Nat.shiftRight_eq_div_pow]
  intro n
  induction n with
  | zero => intro; rfl
  | succ n ih =>
    intro y
    rw [bytesLE, ih, List.range_succ_eq_map, List.map_cons, List.map_map]
    congr 1
    · simp
    · apply List.map_congr_left; intro k _
      simp only [Function.comp, Nat.succ_eq_add_one, Nat.mul_add, pow_add, Nat.div_div_eq_div_mul]
      congr 2; ring

/-- Four little-endian bytes as a 32-bit word. -/
theorem leNat_four (b0 b1 b2 b3 : Byte) :
    BitVec.ofNat 32 (leNat [b0, b1, b2, b3]) = b3 ++ b2 ++ b1 ++ b0 := by
  apply BitVec.eq_of_toNat_eq
  have := b0.isLt; have := b1.isLt; have := b2.isLt; have := b3.isLt
  simp only [leNat, BitVec.toNat_ofNat, BitVec.toNat_append]
  rw [← Nat.shiftLeft_add_eq_or_of_lt ‹_›, ← Nat.shiftLeft_add_eq_or_of_lt ‹_›, ← Nat.shiftLeft_add_eq_or_of_lt ‹_›]
  simp only [Nat.shiftLeft_eq]; omega

/-- Eight little-endian bytes as a 64-bit word. -/
theorem leNat_eight (b0 b1 b2 b3 b4 b5 b6 b7 : Byte) :
    BitVec.ofNat 64 (leNat [b0, b1, b2, b3, b4, b5, b6, b7]) =
      b7 ++ b6 ++ b5 ++ b4 ++ b3 ++ b2 ++ b1 ++ b0 := by
  apply BitVec.eq_of_toNat_eq
  have := b0.isLt; have := b1.isLt; have := b2.isLt; have := b3.isLt
  have := b4.isLt; have := b5.isLt; have := b6.isLt; have := b7.isLt
  simp only [leNat, BitVec.toNat_ofNat, BitVec.toNat_append]
  simp only [← Nat.shiftLeft_add_eq_or_of_lt, *]
  simp only [Nat.shiftLeft_eq]; omega

/-- Slicing inside the first of two strings. -/
theorem slice_append_left {s t : List Byte} {a b : Nat} (h : b ≤ s.length) : slice (s ++ t) a b = slice s a b := by
  simp [slice, List.take_append_of_le_length h]

/-- Slicing inside the second of two strings. -/
theorem slice_append_right {s t : List Byte} {a b : Nat} (h : s.length ≤ a) :
    slice (s ++ t) a b = slice t (a - s.length) (b - s.length) := by
  by_cases hb : b ≤ s.length
  · have h1 : b - s.length = 0 := by omega
    rw [slice_append_left hb, h1]
    simp [slice]
    omega
  · simp only [slice, List.take_append, List.drop_append]
    have : (List.take b s).length ≤ a := by simp; omega
    rw [List.drop_eq_nil_of_le this, List.length_take, List.nil_append]
    congr 1; omega

theorem slice_zero (s : List Byte) (b : Nat) : slice s 0 b = s.take b := by simp [slice]

theorem slice_self (s : List Byte) {b : Nat} (h : s.length ≤ b) (a : Nat) : slice s a b = s.drop a := by
  simp [slice, List.take_of_length_le h]

theorem slice_eq_nil {s : List Byte} {a b : Nat} (h : s.length ≤ a) : slice s a b = [] := by
  apply List.eq_nil_of_length_eq_zero; simp; omega

end Sys2Proof
end

