-- ==== Sys2Proof/Laws/Compression.lean ====
section
/-! SUPPORT. The words of the working vector under one application of G. -/

namespace Sys2Proof.Machine

theorem getElem_set_fin {w : Nat} {v : Vector (BitVec w) 16} {i j : Fin 16} {x : BitVec w} :
    (v.set i x)[j] = if i = j then x else v[j] := by
  simp [Vector.getElem_set, Fin.ext_iff]

/-- G leaves the words it does not name. -/
theorem applyG_other {w : Nat} (rot : Rotations) {v : Vector (BitVec w) 16} {i j k l m : Fin 16} {x y : BitVec w}
    (a : m ≠ i) (b : m ≠ j) (c : m ≠ k) (d : m ≠ l) : (applyG rot v i j k l x y)[m] = v[m] := by
  simp only [applyG, getElem_set_fin]
  rw [if_neg d.symm, if_neg c.symm, if_neg b.symm, if_neg a.symm]

/-- G writes its four results to the words it names, when they are distinct. -/
theorem applyG_named {w : Nat} (rot : Rotations) (v : Vector (BitVec w) 16) {i j k l : Fin 16} (x y : BitVec w)
    (h : [i, j, k, l].Nodup) :
    ((applyG rot v i j k l x y)[i], (applyG rot v i j k l x y)[j], (applyG rot v i j k l x y)[k],
      (applyG rot v i j k l x y)[l]) = mixG rot v[i] v[j] v[k] v[l] x y := by
  simp only [List.nodup_cons, List.mem_cons, List.not_mem_nil, or_false, not_or] at h
  obtain ⟨⟨a, b, c⟩, ⟨d, e⟩, f, _⟩ := h
  simp only [applyG, getElem_set_fin]
  simp [Ne.symm a, Ne.symm b, Ne.symm c, Ne.symm d, Ne.symm e, Ne.symm f]

/-- G reads only the words it names. -/
theorem applyG_congr {w : Nat} (rot : Rotations) {v v' : Vector (BitVec w) 16} {i j k l m : Fin 16} {x y : BitVec w}
    (h1 : v[i] = v'[i]) (h2 : v[j] = v'[j]) (h3 : v[k] = v'[k]) (h4 : v[l] = v'[l]) (h : v[m] = v'[m]) :
    (applyG rot v i j k l x y)[m] = (applyG rot v' i j k l x y)[m] := by
  simp only [applyG, getElem_set_fin, h1, h2, h3, h4, h]

end Sys2Proof.Machine
end

