-- ==== Sys2Proof/Laws/Decode.lean ====
section
/-! SUPPORT. The fields of encoded words, what the decoder can answer, and the framing of byte streams. -/

namespace Sys2Proof

/-- Every word is the concatenation of its opcode and its lower 28 bits. -/
theorem opField_toNat (cw : BitVec 32) : (opField cw).toNat = cw.toNat / 2 ^ 28 := by
  have := cw.isLt
  simp only [opField, BitVec.extractLsb'_toNat, Nat.shiftRight_eq_div_pow]
  omega

theorem regField_toNat (cw : BitVec 32) : (regField cw).toNat = cw.toNat / 2 ^ 24 % 16 := by
  simp [regField, BitVec.extractLsb'_toNat, Nat.shiftRight_eq_div_pow]

theorem byteField_toNat (cw : BitVec 32) : (byteField cw).toNat = cw.toNat % 256 := by
  simp [byteField, BitVec.extractLsb'_toNat]

theorem halfField_toNat (cw : BitVec 32) : (halfField cw).toNat = cw.toNat % 65536 := by
  simp [halfField, BitVec.extractLsb'_toNat]

/-- The number of an encoded word (30_encoding.md R73–R78). -/
theorem encodeWord_toNat (i : Instr) : (encodeWord i).toNat =
    match i with
    | .wrcfg reg p => 2 ^ 28 + reg.toNat * 2 ^ 24 + p.length % 256
    | .rdcfg reg => 2 * 2 ^ 28 + reg.toNat * 2 ^ 24
    | .init => 3 * 2 ^ 28
    | .key k => 4 * 2 ^ 28 + k.length % 256
    | .absorb p => 5 * 2 ^ 28 + p.length % 65536
    | .final olen => 6 * 2 ^ 28 + olen.toNat
    | .reset => 7 * 2 ^ 28
    | .zeroize => 8 * 2 ^ 28
    | .rdstat => 9 * 2 ^ 28 := by
  have app : ∀ {m n : Nat} (x : BitVec m) (y : BitVec n), (x ++ y).toNat = x.toNat * 2 ^ n + y.toNat := by
    intro m n x y
    rw [BitVec.toNat_append, Nat.shiftLeft_eq_mul_pow, Nat.mul_comm, ← Nat.two_pow_add_eq_or_of_lt y.isLt, Nat.mul_comm]
  cases i <;> simp only [encodeWord, app, BitVec.toNat_ofNat] <;> omega

/-- The reserved bits of each format, as numbers. -/
theorem and_mask_eq_zero_iff (cw : BitVec 32) (lo hi : Nat) (h : lo + hi ≤ 32) :
    cw &&& BitVec.ofNat 32 ((2 ^ hi - 1) * 2 ^ lo) = 0 ↔ cw.extractLsb' lo hi = 0 := by
  have hm : ∀ j, (BitVec.ofNat 32 ((2 ^ hi - 1) * 2 ^ lo)).getLsbD j = decide (lo ≤ j ∧ j < lo + hi) := by
    intro j
    simp only [BitVec.getLsbD_ofNat, Nat.testBit_mul_two_pow, Nat.testBit_two_pow_sub_one]
    by_cases h1 : j < 32 <;> by_cases h2 : lo ≤ j <;> simp [h1, h2] <;> omega
  constructor
  · intro hz
    apply BitVec.eq_of_getLsbD_eq
    intro j hj
    have := congrArg (fun x => x.getLsbD (lo + j)) hz
    simp only [BitVec.getLsbD_and, hm] at this
    simp only [BitVec.getLsbD_extractLsb']
    have hd : decide (lo ≤ lo + j ∧ lo + j < lo + hi) = true := by simp; omega
    rw [hd] at this
    simpa [hj] using this
  · intro hz
    apply BitVec.eq_of_getLsbD_eq
    intro j hj
    simp only [BitVec.getLsbD_and, hm]
    by_cases hr : lo ≤ j ∧ j < lo + hi
    · have := congrArg (fun x => x.getLsbD (j - lo)) hz
      simp only [BitVec.getLsbD_extractLsb'] at this
      have e : lo + (j - lo) = j := by omega
      rw [e] at this
      have hlt : j - lo < hi := by omega
      simp [hlt] at this
      simp [this]
    · simp [hr]

/-- The reserved field of each opcode: its lowest bit and its width (30_encoding.md R73–R77). -/
def reservedField (op : Nat) : Nat × Nat :=
  match op with
  | 1 => (8, 16)
  | 2 => (0, 24)
  | 4 => (8, 20)
  | 5 => (16, 12)
  | 6 => (8, 20)
  | _ => (0, 28)

theorem extract_eq_zero_iff (cw : BitVec 32) (lo hi : Nat) :
    cw.extractLsb' lo hi = 0 ↔ cw.toNat / 2 ^ lo % 2 ^ hi = 0 := by
  rw [← BitVec.toNat_inj, BitVec.extractLsb'_toNat, Nat.shiftRight_eq_div_pow]
  simp

theorem reservedMask_and (cw : BitVec 32) (op : Nat) : cw &&& reservedMask op = 0 ↔
    cw.extractLsb' (reservedField op).1 (reservedField op).2 = 0 := by
  have hm : reservedMask op = BitVec.ofNat 32 ((2 ^ (reservedField op).2 - 1) * 2 ^ (reservedField op).1) := by
    unfold reservedMask reservedField
    repeat' split
    all_goals first | rfl | simp_all
  have hb : (reservedField op).1 + (reservedField op).2 ≤ 32 := by
    unfold reservedField; split <;> decide
  rw [hm, and_mask_eq_zero_iff cw _ _ hb]

/-- Legality, as a fact about the word's number. -/
theorem legal_iff (cw : BitVec 32) : legal cw = true ↔
    cw.toNat / 2 ^ (reservedField (cw.toNat / 2 ^ 28)).1 % 2 ^ (reservedField (cw.toNat / 2 ^ 28)).2 = 0 := by
  simp only [legal, beq_iff_eq, reservedMask_and, extract_eq_zero_iff, opField_toNat]

/-- What the decoder answers for a word whose payload has the right length. -/
theorem decode_of_length {t : Transaction} (h : t.payload.length = plen t.cw) :
    decode t = decodeWord t.cw t.payload := by simp [decode, h]

/-- A word with its payload either decodes or is illegal by one of the two causes. -/
theorem decodeWord_error {cw : BitVec 32} {p : List Byte} {e : DecodeError} (h : decodeWord cw p = .error e) :
    e = .reservedOpcode ∨ e = .reservedBits := by
  cases hl : legal cw
  all_goals
    simp only [decodeWord, hl] at h
    split at h <;> simp_all

/-- A transaction with its full payload runs a command or fails with E_ILLEGAL; nothing else. -/
theorem request_of_length {t : Transaction} (h : t.payload.length = plen t.cw) :
    (∃ i, decode t = .ok i ∧ Machine.request (.transaction t) = .run i) ∨
    ((∀ i, decode t ≠ .ok i) ∧ Machine.request (.transaction t) = .fail .illegal) := by
  rw [decode_of_length h]
  cases hd : decodeWord t.cw t.payload with
  | ok i => left; exact ⟨i, rfl, by simp [Machine.request, decode_of_length h, hd]⟩
  | error e =>
    right
    refine ⟨by simp, ?_⟩
    rcases decodeWord_error hd with rfl | rfl <;> simp [Machine.request, decode_of_length h, hd]

/-- The payload length depends on the opcode. -/
theorem plen_eq (cw : BitVec 32) : plen cw =
    if cw.toNat / 2 ^ 28 = 1 then cw.toNat % 256 else if cw.toNat / 2 ^ 28 = 4 then cw.toNat % 256
    else if cw.toNat / 2 ^ 28 = 5 then cw.toNat % 65536 else 0 := by
  simp only [plen, opField_toNat, byteField_toNat, halfField_toNat]
  generalize cw.toNat / 2 ^ 28 = q
  split <;> simp_all

end Sys2Proof
end

