-- ==== Sys2Proof/Laws/State.lean ====
section
/-! SUPPORT. One lemma per field for each shared update of State, true by rfl, so that no proof unfolds a record
update. -/

namespace Sys2Proof.Machine

/-! Failing -/

@[simp] theorem State.raise_fsm (s : State) (c : ResultCode) : (s.raise c).fsm = s.fsm := rfl
@[simp] theorem State.raise_cfg (s : State) (c : ResultCode) : (s.raise c).cfg = s.cfg := rfl
@[simp] theorem State.raise_act (s : State) (c : ResultCode) : (s.raise c).act = s.act := rfl
@[simp] theorem State.raise_node (s : State) (c : ResultCode) : (s.raise c).node = s.node := rfl
@[simp] theorem State.raise_buf (s : State) (c : ResultCode) : (s.raise c).buf = s.buf := rfl
@[simp] theorem State.raise_lanes (s : State) (c : ResultCode) : (s.raise c).lanes = s.lanes := rfl
@[simp] theorem State.raise_sb (s : State) (c : ResultCode) : (s.raise c).sb = s.sb := rfl
@[simp] theorem State.raise_errCode (s : State) (c : ResultCode) : (s.raise c).errCode = c := rfl
@[simp] theorem State.raise_errSticky (s : State) (c : ResultCode) : (s.raise c).errSticky = true := rfl
@[simp] theorem State.raise_lanesMax (s : State) (c : ResultCode) : (s.raise c).lanesMax = s.lanesMax := rfl
@[simp] theorem State.raise_port (s : State) (c : ResultCode) : (s.raise c).port = s.port := rfl
@[simp] theorem State.raise_resp (s : State) (c : ResultCode) : (s.raise c).resp = some ⟨c, []⟩ := rfl

/-! Succeeding -/

@[simp] theorem State.respond_fsm (s : State) (out : List Byte) : (s.respond out).fsm = s.fsm := rfl
@[simp] theorem State.respond_cfg (s : State) (out : List Byte) : (s.respond out).cfg = s.cfg := rfl
@[simp] theorem State.respond_act (s : State) (out : List Byte) : (s.respond out).act = s.act := rfl
@[simp] theorem State.respond_node (s : State) (out : List Byte) : (s.respond out).node = s.node := rfl
@[simp] theorem State.respond_buf (s : State) (out : List Byte) : (s.respond out).buf = s.buf := rfl
@[simp] theorem State.respond_lanes (s : State) (out : List Byte) : (s.respond out).lanes = s.lanes := rfl
@[simp] theorem State.respond_sb (s : State) (out : List Byte) : (s.respond out).sb = s.sb := rfl
@[simp] theorem State.respond_errCode (s : State) (out : List Byte) : (s.respond out).errCode = s.errCode := rfl
@[simp] theorem State.respond_errSticky (s : State) (out : List Byte) : (s.respond out).errSticky = s.errSticky := rfl
@[simp] theorem State.respond_lanesMax (s : State) (out : List Byte) : (s.respond out).lanesMax = s.lanesMax := rfl
@[simp] theorem State.respond_port (s : State) (out : List Byte) : (s.respond out).port = s.port := rfl
@[simp] theorem State.respond_resp (s : State) (out : List Byte) : (s.respond out).resp = some ⟨.ok, out⟩ := rfl

/-! Power-on -/

@[simp] theorem State.powerOn_fsm (n : Nat) (port : List HostMove) : (State.powerOn n port).fsm = .unconfigured := rfl
@[simp] theorem State.powerOn_cfg (n : Nat) (port : List HostMove) : (State.powerOn n port).cfg = Cfg.powerOn := rfl
@[simp] theorem State.powerOn_act (n : Nat) (port : List HostMove) : (State.powerOn n port).act = Act.zero := rfl
@[simp] theorem State.powerOn_node (n : Nat) (port : List HostMove) : (State.powerOn n port).node = Node.zero := rfl
@[simp] theorem State.powerOn_buf (n : Nat) (port : List HostMove) : (State.powerOn n port).buf = [] := rfl
@[simp] theorem State.powerOn_lanes (n : Nat) (port : List HostMove) : (State.powerOn n port).lanes = List.replicate n Node.zero := rfl
@[simp] theorem State.powerOn_sb (n : Nat) (port : List HostMove) : (State.powerOn n port).sb = [] := rfl
@[simp] theorem State.powerOn_errCode (n : Nat) (port : List HostMove) : (State.powerOn n port).errCode = .ok := rfl
@[simp] theorem State.powerOn_errSticky (n : Nat) (port : List HostMove) : (State.powerOn n port).errSticky = false := rfl
@[simp] theorem State.powerOn_lanesMax (n : Nat) (port : List HostMove) : (State.powerOn n port).lanesMax = n := rfl
@[simp] theorem State.powerOn_port (n : Nat) (port : List HostMove) : (State.powerOn n port).port = port := rfl
@[simp] theorem State.powerOn_resp (n : Nat) (port : List HostMove) : (State.powerOn n port).resp = none := rfl

/-! Starting the sequential engine -/

@[simp] theorem seqStart_fsm (key : List Byte) (s : State) : (seqStart key s).fsm = s.fsm := rfl
@[simp] theorem seqStart_cfg (key : List Byte) (s : State) : (seqStart key s).cfg = s.cfg := rfl
@[simp] theorem seqStart_act (key : List Byte) (s : State) : (seqStart key s).act = s.act := rfl
@[simp] theorem seqStart_node (key : List Byte) (s : State) : (seqStart key s).node = nodeInit s.act.variant (seqParamBlock s.act (BitVec.ofNat 8 key.length)) := rfl
@[simp] theorem seqStart_buf (key : List Byte) (s : State) : (seqStart key s).buf = keyBlock s.act.variant key := rfl
@[simp] theorem seqStart_lanes (key : List Byte) (s : State) : (seqStart key s).lanes = List.replicate s.lanesMax Node.zero := rfl
@[simp] theorem seqStart_sb (key : List Byte) (s : State) : (seqStart key s).sb = [] := rfl
@[simp] theorem seqStart_errCode (key : List Byte) (s : State) : (seqStart key s).errCode = s.errCode := rfl
@[simp] theorem seqStart_errSticky (key : List Byte) (s : State) : (seqStart key s).errSticky = s.errSticky := rfl
@[simp] theorem seqStart_lanesMax (key : List Byte) (s : State) : (seqStart key s).lanesMax = s.lanesMax := rfl
@[simp] theorem seqStart_port (key : List Byte) (s : State) : (seqStart key s).port = s.port := rfl
@[simp] theorem seqStart_resp (key : List Byte) (s : State) : (seqStart key s).resp = s.resp := rfl

/-! Starting the parallel engine -/

@[simp] theorem parStart_fsm (key : List Byte) (s : State) : (parStart key s).fsm = s.fsm := rfl
@[simp] theorem parStart_cfg (key : List Byte) (s : State) : (parStart key s).cfg = s.cfg := rfl
@[simp] theorem parStart_act (key : List Byte) (s : State) : (parStart key s).act = s.act := rfl
@[simp] theorem parStart_node (key : List Byte) (s : State) : (parStart key s).node = Node.zero := rfl
@[simp] theorem parStart_buf (key : List Byte) (s : State) : (parStart key s).buf = [] := rfl
@[simp] theorem parStart_lanes (key : List Byte) (s : State) : (parStart key s).lanes = (List.range s.act.laneCount).map
        (fun i => nodeInit s.act.variant (laneParamBlock s.act i (BitVec.ofNat 8 key.length))) ++
      List.replicate (s.lanesMax - s.act.laneCount) Node.zero := rfl
@[simp] theorem parStart_sb (key : List Byte) (s : State) : (parStart key s).sb = copies s.act.laneCount (keyBlock s.act.variant key) := rfl
@[simp] theorem parStart_errCode (key : List Byte) (s : State) : (parStart key s).errCode = s.errCode := rfl
@[simp] theorem parStart_errSticky (key : List Byte) (s : State) : (parStart key s).errSticky = s.errSticky := rfl
@[simp] theorem parStart_lanesMax (key : List Byte) (s : State) : (parStart key s).lanesMax = s.lanesMax := rfl
@[simp] theorem parStart_port (key : List Byte) (s : State) : (parStart key s).port = s.port := rfl
@[simp] theorem parStart_resp (key : List Byte) (s : State) : (parStart key s).resp = s.resp := rfl

/-- Failing is the whole effect that claims name. -/
theorem State.raise_eq_failedWith (s : State) (c : ResultCode) : s.raise c = s.failedWith c := rfl

/-! Starting either engine: the elements it leaves alone, and KL -/

@[simp] theorem engineStart_fsm (key : List Byte) (s : State) : (engineStart key s).fsm = s.fsm := by
  simp only [engineStart]; split <;> rfl

@[simp] theorem engineStart_cfg (key : List Byte) (s : State) : (engineStart key s).cfg = s.cfg := by
  simp only [engineStart]; split <;> rfl

@[simp] theorem engineStart_errCode (key : List Byte) (s : State) : (engineStart key s).errCode = s.errCode := by
  simp only [engineStart]; split <;> rfl

@[simp] theorem engineStart_errSticky (key : List Byte) (s : State) : (engineStart key s).errSticky = s.errSticky := by
  simp only [engineStart]; split <;> rfl

@[simp] theorem engineStart_lanesMax (key : List Byte) (s : State) : (engineStart key s).lanesMax = s.lanesMax := by
  simp only [engineStart]; split <;> rfl

@[simp] theorem engineStart_port (key : List Byte) (s : State) : (engineStart key s).port = s.port := by
  simp only [engineStart]; split <;> rfl

@[simp] theorem engineStart_resp (key : List Byte) (s : State) : (engineStart key s).resp = s.resp := by
  simp only [engineStart]; split <;> rfl

@[simp] theorem engineStart_act (key : List Byte) (s : State) :
    (engineStart key s).act = { s.act with kl := BitVec.ofNat 8 key.length } := by
  simp only [engineStart]; split <;> rfl

/-! Absorbing and finishing: the elements they leave alone -/

@[simp] theorem absorbBytes_fsm (payload : List Byte) (s : State) : (absorbBytes payload s).fsm = s.fsm := by
  simp only [absorbBytes]; split <;> rfl

@[simp] theorem absorbBytes_cfg (payload : List Byte) (s : State) : (absorbBytes payload s).cfg = s.cfg := by
  simp only [absorbBytes]; split <;> rfl

@[simp] theorem absorbBytes_act (payload : List Byte) (s : State) : (absorbBytes payload s).act = s.act := by
  simp only [absorbBytes]; split <;> rfl

@[simp] theorem absorbBytes_errCode (payload : List Byte) (s : State) : (absorbBytes payload s).errCode = s.errCode := by
  simp only [absorbBytes]; split <;> rfl

@[simp] theorem absorbBytes_errSticky (payload : List Byte) (s : State) : (absorbBytes payload s).errSticky = s.errSticky := by
  simp only [absorbBytes]; split <;> rfl

@[simp] theorem absorbBytes_lanesMax (payload : List Byte) (s : State) : (absorbBytes payload s).lanesMax = s.lanesMax := by
  simp only [absorbBytes]; split <;> rfl

@[simp] theorem absorbBytes_port (payload : List Byte) (s : State) : (absorbBytes payload s).port = s.port := by
  simp only [absorbBytes]; split <;> rfl

@[simp] theorem absorbBytes_resp (payload : List Byte) (s : State) : (absorbBytes payload s).resp = s.resp := by
  simp only [absorbBytes]; split <;> rfl

@[simp] theorem finishEngine_fsm (s : State) : (finishEngine s).fsm = s.fsm := by
  simp only [finishEngine]; split <;> rfl

@[simp] theorem finishEngine_cfg (s : State) : (finishEngine s).cfg = s.cfg := by
  simp only [finishEngine]; split <;> rfl

@[simp] theorem finishEngine_act (s : State) : (finishEngine s).act = s.act := by
  simp only [finishEngine]; split <;> rfl

@[simp] theorem finishEngine_errCode (s : State) : (finishEngine s).errCode = s.errCode := by
  simp only [finishEngine]; split <;> rfl

@[simp] theorem finishEngine_errSticky (s : State) : (finishEngine s).errSticky = s.errSticky := by
  simp only [finishEngine]; split <;> rfl

@[simp] theorem finishEngine_lanesMax (s : State) : (finishEngine s).lanesMax = s.lanesMax := by
  simp only [finishEngine]; split <;> rfl

@[simp] theorem finishEngine_port (s : State) : (finishEngine s).port = s.port := by
  simp only [finishEngine]; split <;> rfl

@[simp] theorem finishEngine_resp (s : State) : (finishEngine s).resp = s.resp := by
  simp only [finishEngine]; split <;> rfl

end Sys2Proof.Machine
end

