-- ==== Sys2Proof/Laws/Exec.lean ====
section
/-! SUPPORT. Everything a command can do, said once per command: which next states `exec` answers. -/

namespace Sys2Proof.Machine

/-- The command frame answers exactly one next state. -/
theorem transact_cases {s done t : State} {check : Option ResultCode} {out : List Byte}
    (h : transact s check done out = .next t) :
    (∃ c, check = some c ∧ t = s.raise c) ∨ (check = none ∧ t = done.respond out) := by
  cases check with
  | none => right; simpa [transact, eq_comm] using h
  | some c => left; exact ⟨c, rfl, by simpa [transact, eq_comm] using h⟩

@[simp] theorem transact_some (s done : State) (c : ResultCode) (out : List Byte) :
    transact s (some c) done out = .next (s.raise c) := rfl

@[simp] theorem transact_none (s done : State) (out : List Byte) :
    transact s none done out = .next (done.respond out) := rfl

theorem wrcfg_cases {s t : State} {reg : BitVec 4} {payload : List Byte} (h : exec (.wrcfg reg payload) s = .next t) :
    (s.cfg.write reg.toNat payload = none ∧ t = s.raise .illegal) ∨
    ∃ c, s.cfg.write reg.toNat payload = some c ∧ t = State.respond { s with cfg := c, errCode := .ok } [] := by
  simp only [exec, execWrcfg] at h
  split at h
  · rename_i hw; left; exact ⟨hw, by simpa [eq_comm] using h⟩
  · rename_i c hw; right; exact ⟨c, hw, by simpa [eq_comm] using h⟩

theorem rdcfg_cases {s t : State} {reg : BitVec 4} (h : exec (.rdcfg reg) s = .next t) :
    (s.cfg.read reg.toNat = none ∧ t = s.raise .illegal) ∨
    ∃ out, s.cfg.read reg.toNat = some out ∧ t = s.respond out := by
  simp only [exec, execRdcfg] at h
  split at h
  · rename_i hw; left; exact ⟨hw, by simpa [eq_comm] using h⟩
  · rename_i out hw; right; exact ⟨out, hw, by simpa [eq_comm] using h⟩

theorem init_cases {s t : State} (h : exec .init s = .next t) :
    (∃ c, initCheck s = some c ∧ t = s.raise c) ∨
    (initCheck s = none ∧
      t = State.respond { engineStart [] { s with act := s.cfg.toAct } with fsm := .empty, errCode := .ok } []) :=
  transact_cases h

theorem key_cases {s t : State} {key : List Byte} (h : exec (.key key) s = .next t) :
    (∃ c, keyCheck s key.length = some c ∧ t = s.raise c) ∨
    (keyCheck s key.length = none ∧
      t = State.respond { engineStart key s with fsm := .buffering, errCode := .ok } []) :=
  transact_cases h

theorem absorb_cases {s t : State} {payload : List Byte} (h : exec (.absorb payload) s = .next t) :
    (running s = false ∧ t = s.raise .badState) ∨
    (running s = true ∧ t = State.respond { absorbBytes payload s with
      fsm := if payload.length > 0 then .buffering else s.fsm, errCode := .ok } []) := by
  rcases transact_cases h with ⟨c, hc, ht⟩ | ⟨hc, ht⟩
  · left
    by_cases hr : running s = true
    · simp [hr] at hc
    · simp only [hr] at hc; exact ⟨by simpa using hr, by simp_all⟩
  · right
    by_cases hr : running s = true
    · exact ⟨hr, ht⟩
    · simp [hr] at hc

theorem final_cases {s t : State} {olen : BitVec 8} (h : exec (.final olen) s = .next t) :
    (∃ c, finalCheck s olen.toNat = some c ∧ t = s.raise c) ∨
    (finalCheck s olen.toNat = none ∧
      t = State.respond { finishEngine s with fsm := .finalized, errCode := .ok }
        (slice (nodeDigest s.act.variant (finishEngine s).node) 0 s.act.dl.toNat)) :=
  transact_cases h

theorem reset_cases {s t : State} (h : exec .reset s = .next t) :
    (s.fsm = .unconfigured ∧ t = s.raise .badState) ∨
    (s.fsm ≠ .unconfigured ∧ t = State.respond { engineStart [] s with fsm := .empty, errCode := .ok } []) := by
  rcases transact_cases h with ⟨c, hc, ht⟩ | ⟨hc, ht⟩
  · left; by_cases hu : s.fsm = .unconfigured <;> simp_all
  · right; by_cases hu : s.fsm = .unconfigured <;> simp_all

theorem zeroize_cases {s t : State} (h : exec .zeroize s = .next t) :
    t = (State.powerOn s.lanesMax s.port).respond [] := by
  simpa [exec, execZeroize, eq_comm] using h

theorem rdstat_cases {s t : State} (h : exec .rdstat s = .next t) :
    t = s.respond (bytesLE 4 s.status.toNat) := by
  simpa [exec, execRdstat, eq_comm] using h

/-- The codes of the checks: none of them is OK. -/
theorem initCheck_ne_ok {s : State} {c : ResultCode} (h : initCheck s = some c) : c ≠ .ok ∧ c ≠ .badState ∧ c ≠ .keyBlock := by
  simp only [initCheck] at h
  repeat' split at h
  all_goals first | (cases h; decide) | simp at h

theorem keyCheck_ne_ok {s : State} {n : Nat} {c : ResultCode} (h : keyCheck s n = some c) :
    c ≠ .ok ∧ (c = .badState ↔ s.fsm = .unconfigured) := by
  simp only [keyCheck] at h
  repeat' split at h
  all_goals first | (cases h; simp_all) | simp at h

theorem running_iff {s : State} : running s = true ↔ s.fsm = .empty ∨ s.fsm = .buffering := by
  simp [running]

theorem not_running_iff {s : State} : running s = false ↔ s.fsm = .unconfigured ∨ s.fsm = .finalized := by
  cases h : s.fsm <;> simp [running, h]

theorem finalCheck_cases {s : State} {n : Nat} {c : ResultCode} (h : finalCheck s n = some c) :
    (running s = false ∧ c = .badState) ∨ (running s = true ∧ n < s.act.dl.toNat ∧ c = .outBuf) := by
  simp only [finalCheck] at h
  split at h
  · left; simp_all
  · split at h
    · right; simp_all
    · simp at h

theorem finalCheck_none {s : State} {n : Nat} (h : finalCheck s n = none) :
    running s = true ∧ s.act.dl.toNat ≤ n := by
  simp only [finalCheck] at h
  split at h
  · simp at h
  · split at h
    · simp at h
    · exact ⟨by simp_all, by omega⟩

/-- ABSORB while the engine runs. -/
theorem absorb_running {s : State} {p : List Byte} (h : s.fsm = .empty ∨ s.fsm = .buffering) :
    exec (.absorb p) s = .next (State.respond { absorbBytes p s with
      fsm := if p.length > 0 then .buffering else s.fsm, errCode := .ok } []) := by
  simp only [exec, execAbsorb, running_iff.2 h]; rfl

/-- ABSORB while it does not. -/
theorem absorb_not_running {s : State} {p : List Byte} (h : s.fsm = .unconfigured ∨ s.fsm = .finalized) :
    exec (.absorb p) s = .next (s.failedWith .badState) := by
  simp only [exec, execAbsorb, not_running_iff.2 h]; rfl

/-- FINAL while the engine runs, with room for the digest. -/
theorem final_running {s : State} {olen : BitVec 8} (h : s.fsm = .empty ∨ s.fsm = .buffering)
    (hd : s.act.dl.toNat ≤ olen.toNat) :
    exec (.final olen) s = .next (State.respond { finishEngine s with fsm := .finalized, errCode := .ok }
      (slice (nodeDigest s.act.variant (finishEngine s).node) 0 s.act.dl.toNat)) := by
  have : finalCheck s olen.toNat = none := by
    simp [finalCheck, running_iff.2 h]; omega
  simp only [exec, execFinal, this]; rfl

/-- `exec` always answers a next state with a response. -/
theorem exec_total (i : Instr) (s : State) : ∃ t r, exec i s = .next t ∧ t.resp = some r := by
  have key : ∀ check done out, ∃ t r, transact s check done out = .next t ∧ t.resp = some r := by
    intro check done out
    cases check with
    | none => exact ⟨_, _, rfl, rfl⟩
    | some c => exact ⟨_, _, rfl, rfl⟩
  cases i with
  | wrcfg reg payload => simp only [exec, execWrcfg]; split <;> exact key _ _ _
  | rdcfg reg => simp only [exec, execRdcfg]; split <;> exact key _ _ _
  | init => exact key _ _ _
  | key k => exact key _ _ _
  | absorb payload => exact key _ _ _
  | final olen => exact key _ _ _
  | reset => exact key _ _ _
  | zeroize => exact ⟨_, _, rfl, rfl⟩
  | rdstat => exact ⟨_, _, rfl, rfl⟩

end Sys2Proof.Machine
end

