-- ==== Sys2Proof/Laws/Operands.lean ====
section
/-! SUPPORT. The register file: widths, what a write stores, what a read gives back. -/

namespace Sys2Proof.Machine

theorem regWidth_eq (reg : BitVec 4) : regWidth reg.toNat = if reg = 4 then 4 else if reg = 5 then 8 else 1 := by
  revert reg; decide

/-- A fixed-width register holds the value written to it. -/
theorem Cfg.fixedValue_setFixed (c : Cfg) (reg : Nat) (h : reg ≤ 7) (p : List Byte)
    (hp : p.length = regWidth reg) :
    bytesLE (regWidth reg) ((c.setFixed reg (leNat p)).fixedValue reg) = p := by
  have hl := leNat_lt p
  have : (c.setFixed reg (leNat p)).fixedValue reg = leNat p := by
    have : reg = 0 ∨ reg = 1 ∨ reg = 2 ∨ reg = 3 ∨ reg = 4 ∨ reg = 5 ∨ reg = 6 ∨ reg = 7 := by omega
    rcases this with h | h | h | h | h | h | h | h <;> subst h <;> simp only [regWidth] at hp <;> rw [hp] at hl <;>
      simp [Cfg.setFixed, Cfg.fixedValue] <;> omega
  rw [this]; exact bytesLE_leNat_of_length hp

/-- A store reads back the bytes written to it. -/
theorem ByteStore.content_ofPayload (p : List Byte) (h : p.length ≤ 16) : (ByteStore.ofPayload p).content = p := by
  simp only [ByteStore.content, ByteStore.ofPayload, Vector.toList_ofFn]
  apply List.ext_getElem?
  intro i
  by_cases hi : i < p.length
  · rw [List.getElem?_take_of_lt hi, List.getElem?_ofFn]; simp [hi, show i < 16 by omega]
  · simp at hi; rw [List.getElem?_take_eq_none hi, List.getElem?_eq_none hi]

/-- A write of at most 16 bytes leaves a legal store. -/
theorem ByteStore.ofPayload_legal (p : List Byte) (h : p.length ≤ 16) : (ByteStore.ofPayload p).Legal := by
  refine ⟨h, ?_⟩
  intro i hi
  simp only [ByteStore.ofPayload] at hi ⊢
  simp [List.getElem?_eq_none hi]

theorem ByteStore.zero_legal : ByteStore.zero.Legal := by
  refine ⟨by decide, ?_⟩
  intro i _; simp [ByteStore.zero]

/-- WRCFG keeps the register file legal. -/
theorem Cfg.write_legal {c c' : Cfg} {reg p} (h : c.Legal) (hw : c.write reg p = some c') : c'.Legal := by
  simp only [Cfg.write] at hw
  obtain ⟨a, b, d⟩ := h
  split at hw
  · simp at hw
  split at hw
  · split at hw
    · simp at hw
    split at hw
    · simp at hw
    rename_i hz
    simp at hw; subst hw
    simp only [Cfg.setFixed]
    split <;> refine ⟨?_, ?_, ?_⟩ <;> (try assumption)
    simp at hz ⊢; omega
  split at hw
  · simp at hw
  rename_i hl
  split at hw <;> simp at hw <;> subst hw
  · exact ⟨a, ByteStore.ofPayload_legal _ (by omega), d⟩
  · exact ⟨a, b, ByteStore.ofPayload_legal _ (by omega)⟩

end Sys2Proof.Machine
end

