-- ==== Sys2Proof/Laws/Node.lean ====
section
/-! SUPPORT. The block state manager: the counter, the flags, the widths of the stored words, and a node seen as a
chaining value with a byte count. -/

namespace Sys2Proof.Machine

theorem wordBits_le (v : Variant) : v.wordBits ≤ 64 := by cases v <;> decide

theorem wordBits_pos (v : Variant) : 0 < v.wordBits := by cases v <;> decide

theorem two_pow_wordBits_le (v : Variant) : 2 ^ v.wordBits ≤ 2 ^ 64 := by cases v <;> decide

theorem blockBytes_pos (v : Variant) : 0 < v.blockBytes := by cases v <;> decide

/-! Cells -/

theorem toCell_fits (v : Variant) (x : CoreWord v) : CellFits v (toCell v x) := by
  have hx := x.isLt
  have := two_pow_wordBits_le v
  simp only [CellFits, toCell, BitVec.toNat_setWidth]
  rw [Nat.mod_eq_of_lt (by omega)]; exact hx

@[simp] theorem fromCell_toCell (v : Variant) (x : CoreWord v) : fromCell v (toCell v x) = x := by
  apply BitVec.eq_of_toNat_eq
  have hx := x.isLt
  have := two_pow_wordBits_le v
  simp only [fromCell, toCell, BitVec.toNat_setWidth]
  rw [Nat.mod_eq_of_lt (by omega : x.toNat < 2 ^ 64), Nat.mod_eq_of_lt hx]

theorem toCell_toNat (v : Variant) (x : CoreWord v) : (toCell v x).toNat = x.toNat := by
  have hx := x.isLt
  have := two_pow_wordBits_le v
  simp only [toCell, BitVec.toNat_setWidth]
  exact Nat.mod_eq_of_lt (by omega)

/-! The counter -/

theorem ctrAdd_t0 (v : Variant) (k : Nat) (n : Node) :
    (ctrAdd v k n).t0.toNat = (n.counter v + k) % 2 ^ v.wordBits := by
  have := two_pow_wordBits_le v
  have h0 := Nat.mod_lt (n.counter v + k) (Nat.two_pow_pos v.wordBits)
  simp only [ctrAdd, BitVec.toNat_ofNat]
  rw [Nat.mod_mod_of_dvd (_ : Nat) (Nat.pow_dvd_pow 2 (by omega : v.wordBits ≤ 2 * v.wordBits)),
    Nat.mod_eq_of_lt (by omega)]

theorem ctrAdd_t1 (v : Variant) (k : Nat) (n : Node) :
    (ctrAdd v k n).t1.toNat = (n.counter v + k) / 2 ^ v.wordBits % 2 ^ v.wordBits := by
  have := two_pow_wordBits_le v
  have h0 := Nat.mod_lt ((n.counter v + k) / 2 ^ v.wordBits) (Nat.two_pow_pos v.wordBits)
  simp only [ctrAdd, BitVec.toNat_ofNat]
  rw [two_mul, pow_add, Nat.mod_mul_right_div_self, Nat.mod_eq_of_lt (by omega)]

/-- CtrAdd adds modulo 2^(2W). -/
theorem ctrAdd_counter (v : Variant) (k : Nat) (n : Node) :
    (ctrAdd v k n).counter v = (n.counter v + k) % 2 ^ (2 * v.wordBits) := by
  rw [Node.counter, ctrAdd_t0, ctrAdd_t1, two_mul, pow_add, Nat.mod_mul]

@[simp] theorem ctrAdd_h (v : Variant) (k : Nat) (n : Node) : (ctrAdd v k n).h = n.h := rfl
@[simp] theorem ctrAdd_f0 (v : Variant) (k : Nat) (n : Node) : (ctrAdd v k n).f0 = n.f0 := rfl
@[simp] theorem ctrAdd_f1 (v : Variant) (k : Nat) (n : Node) : (ctrAdd v k n).f1 = n.f1 := rfl

/-! NodeCompress, field by field -/

@[simp] theorem nodeCompress_t0 (v : Variant) (n : Node) (s : List Byte) (f l : Bool) :
    (nodeCompress v n s f l).t0 = (ctrAdd v s.length n).t0 := rfl
@[simp] theorem nodeCompress_t1 (v : Variant) (n : Node) (s : List Byte) (f l : Bool) :
    (nodeCompress v n s f l).t1 = (ctrAdd v s.length n).t1 := rfl
@[simp] theorem nodeCompress_f0 (v : Variant) (n : Node) (s : List Byte) (f l : Bool) :
    (nodeCompress v n s f l).f0 = flagWord v f := rfl
@[simp] theorem nodeCompress_f1 (v : Variant) (n : Node) (s : List Byte) (f l : Bool) :
    (nodeCompress v n s f l).f1 = flagWord v (f && l) := rfl

theorem nodeCompress_counter (v : Variant) (n : Node) (s : List Byte) (f l : Bool) :
    (nodeCompress v n s f l).counter v = (n.counter v + s.length) % 2 ^ (2 * v.wordBits) := ctrAdd_counter v s.length n

theorem fromCell_flagWord (v : Variant) (b : Bool) : fromCell v (flagWord v b) = coreFlag v b := by
  cases v <;> cases b <;> decide

theorem nodeCompress_h (v : Variant) (n : Node) (s : List Byte) (f l : Bool) :
    (nodeCompress v n s f l).h = (compress v (n.h.map (fromCell v)) (fromCell v (ctrAdd v s.length n).t0)
      (fromCell v (ctrAdd v s.length n).t1) (coreFlag v f) (coreFlag v (f && l)) (padTo v.blockBytes s)).map
      (toCell v) := by
  rw [← fromCell_flagWord, ← fromCell_flagWord]; rfl

/-! Widths and flags -/

theorem ones_toNat (v : Variant) : v.ones.toNat = 2 ^ v.wordBits - 1 := by cases v <;> decide

theorem flagWord_fits (v : Variant) (b : Bool) : CellFits v (flagWord v b) := by cases v <;> cases b <;> decide

theorem ctrAdd_fits (v : Variant) (k : Nat) (n : Node) :
    CellFits v (ctrAdd v k n).t0 ∧ CellFits v (ctrAdd v k n).t1 := by
  simp only [CellFits, ctrAdd_t0, ctrAdd_t1]
  exact ⟨Nat.mod_lt _ (Nat.two_pow_pos _), Nat.mod_lt _ (Nat.two_pow_pos _)⟩

/-- Whatever the node was, after NodeCompress every word of it is a W-bit word. -/
theorem nodeCompress_fits (v : Variant) (n : Node) (s : List Byte) (f l : Bool) : (nodeCompress v n s f l).Fits v := by
  refine ⟨?_, (ctrAdd_fits v s.length n).1, (ctrAdd_fits v s.length n).2, flagWord_fits v _, flagWord_fits v _⟩
  rw [nodeCompress_h]
  intro x hx
  simp only [Vector.toList_map, List.mem_map] at hx
  obtain ⟨y, _, rfl⟩ := hx
  exact toCell_fits v y

theorem nodeInit_fits (v : Variant) (pb : List Byte) : (nodeInit v pb).Fits v := by
  have h0 : CellFits v 0 := by cases v <;> decide
  refine ⟨?_, h0, h0, h0, h0⟩
  intro x hx
  simp only [nodeInit, Vector.mem_toList_iff, Vector.mem_ofFn] at hx
  obtain ⟨i, rfl⟩ := hx
  exact toCell_fits v _

theorem zero_fits (v : Variant) : Node.zero.Fits v := by
  have h0 : CellFits v 0 := by cases v <;> decide
  refine ⟨?_, h0, h0, h0, h0⟩
  intro x hx
  have : x = 0 := by simp [Node.zero] at hx; exact hx
  subst this; exact h0

theorem nodeCompress_flags (v : Variant) (n : Node) (s : List Byte) (f l : Bool) :
    (nodeCompress v n s f l).FlagsLegal v := by
  simp only [Node.FlagsLegal, nodeCompress_f0, nodeCompress_f1]
  cases v <;> cases f <;> cases l <;> decide

theorem unflagged_legal {v : Variant} {n : Node} (h : n.Unflagged) : n.FlagsLegal v := by
  obtain ⟨h0, h1⟩ := h
  refine ⟨Or.inl h0, Or.inl h1, ?_⟩
  rw [h1]; cases v <;> simp [Variant.ones, Variant.wordBits]

theorem nodeCompress_unflagged (v : Variant) (n : Node) (s : List Byte) (l : Bool) :
    (nodeCompress v n s false l).Unflagged := ⟨rfl, rfl⟩

theorem nodeInit_unflagged (v : Variant) (pb : List Byte) : (nodeInit v pb).Unflagged := ⟨rfl, rfl⟩

theorem zero_unflagged : Node.zero.Unflagged := ⟨rfl, rfl⟩

@[simp] theorem nodeInit_counter (v : Variant) (pb : List Byte) : (nodeInit v pb).counter v = 0 := by
  simp [Node.counter, nodeInit]

@[simp] theorem zero_counter (v : Variant) : Node.zero.counter v = 0 := by simp [Node.counter, Node.zero]

/-! A node as a chaining value and a byte count -/

/-- The node holds the chaining value `h` and has counted `count` bytes, modulo 2^(2W). -/
structure Node.Holds (v : Variant) (n : Node) (h : Vector (CoreWord v) 8) (count : Nat) : Prop where
  h : n.h = h.map (toCell v)
  counter : n.counter v = count % 2 ^ (2 * v.wordBits)

theorem map_fromCell_toCell (v : Variant) (h : Vector (CoreWord v) 8) : (h.map (toCell v)).map (fromCell v) = h := by
  ext i hi; simp

/-- A fresh node holds IV xor the parameter words and has counted nothing. -/
theorem nodeInit_holds (v : Variant) (pb : List Byte) : (nodeInit v pb).Holds v (initialChain v pb) 0 := by
  refine ⟨?_, by simp⟩
  ext i hi; simp [nodeInit, initialChain]

theorem fromCell_t0 (v : Variant) (k count : Nat) (n : Node) (h : n.counter v = count % 2 ^ (2 * v.wordBits)) :
    fromCell v (ctrAdd v k n).t0 = (counterWords v (count + k)).1 := by
  apply BitVec.eq_of_toNat_eq
  simp only [fromCell, BitVec.toNat_setWidth, ctrAdd_t0, counterWords, BitVec.toNat_ofNat, h, Nat.mod_mod]
  rw [Nat.add_mod, Nat.mod_mod_of_dvd _ (Nat.pow_dvd_pow 2 (by omega)), ← Nat.add_mod]

theorem mod_div_mod (a b m : Nat) (hm : 0 < m) : (a % (m * m) + b) / m % m = (a + b) / m % m := by
  conv_rhs => rw [← Nat.div_add_mod a (m * m)]
  have : m * m * (a / (m * m)) + a % (m * m) + b = a % (m * m) + b + m * (m * (a / (m * m))) := by ring
  rw [this, Nat.add_mul_div_left _ _ hm, Nat.add_mul_mod_self_left]

theorem fromCell_t1 (v : Variant) (k count : Nat) (n : Node) (h : n.counter v = count % 2 ^ (2 * v.wordBits)) :
    fromCell v (ctrAdd v k n).t1 = (counterWords v (count + k)).2 := by
  apply BitVec.eq_of_toNat_eq
  simp only [fromCell, BitVec.toNat_setWidth, ctrAdd_t1, counterWords, BitVec.toNat_ofNat, h, Nat.mod_mod]
  rw [two_mul, pow_add, mod_div_mod _ _ _ (Nat.two_pow_pos _)]

/-- NodeCompress is one compression of the closed form. -/
theorem nodeCompress_holds {v : Variant} {n : Node} {h : Vector (CoreWord v) 8} {count : Nat} (hn : n.Holds v h count)
    (s : List Byte) (f l : Bool) :
    (nodeCompress v n s f l).Holds v (chainBlock v h s (count + s.length) f l) (count + s.length) := by
  refine ⟨?_, ?_⟩
  · rw [nodeCompress_h, fromCell_t0 v s.length count n hn.counter, fromCell_t1 v s.length count n hn.counter, hn.h,
      map_fromCell_toCell]; rfl
  · rw [nodeCompress_counter, hn.counter, Nat.mod_add_mod]

/-- The digest bytes are those of the chaining value held. -/
theorem nodeDigest_holds {v : Variant} {n : Node} {h : Vector (CoreWord v) 8} {count : Nat} (hn : n.Holds v h count) :
    nodeDigest v n = h.toList.flatMap fun x => bytesLE v.wordBytes x.toNat := by
  simp only [nodeDigest, hn.h, Vector.toList_map, List.flatMap_map, toCell_toNat]

theorem flatMap_const_length {α : Type} (f : α → List Byte) (k : Nat) (l : List α) (h : ∀ x, (f x).length = k) :
    (l.flatMap f).length = l.length * k := by
  induction l with
  | nil => simp
  | cons a l ih => simp [h, ih, Nat.succ_mul]; omega

/-- The digest has NN bytes. -/
@[simp] theorem nodeDigest_length (v : Variant) (n : Node) : (nodeDigest v n).length = v.digestBytes := by
  simp only [nodeDigest]
  rw [flatMap_const_length _ v.wordBytes _ (by simp)]
  cases v <;> simp [Variant.wordBytes, Variant.digestBytes]

end Sys2Proof.Machine
end

