-- ==== Sys2Proof/Laws/Sequential.lean ====
section
/-! SUPPORT. The sequential engine: splitting a payload, the buffer's bound, and what the engine holds after any byte
string in terms of the closed form. -/

namespace Sys2Proof.Machine

@[simp] theorem seqAbsorb_nil (v : Variant) (e : SeqEngine) : seqAbsorb v e [] = e := rfl

theorem seqAbsorb_append (v : Variant) (e : SeqEngine) (p q : List Byte) :
    seqAbsorb v e (p ++ q) = seqAbsorb v (seqAbsorb v e p) q := by simp [seqAbsorb]

theorem seqAbsorb_concat (v : Variant) (e : SeqEngine) (p : List Byte) (b : Byte) :
    seqAbsorb v e (p ++ [b]) = seqAbsorbByte v (seqAbsorb v e p) b := by simp [seqAbsorb]

theorem keyBlock_length_le {v : Variant} {key : List Byte} (h : key.length ≤ v.keyBytes) :
    (keyBlock v key).length ≤ v.blockBytes := by
  have : v.keyBytes ≤ v.blockBytes := by cases v <;> decide
  simp only [keyBlock]; split <;> simp; omega

theorem keyBlock_length {v : Variant} {key : List Byte} (hk : key ≠ []) (h : key.length ≤ v.keyBytes) :
    (keyBlock v key).length = v.blockBytes := by
  have : v.keyBytes ≤ v.blockBytes := by cases v <;> decide
  simp [keyBlock, hk]; omega

/-- Everything one byte can do. -/
theorem seqAbsorbByte_cases (v : Variant) (e : SeqEngine) (b : Byte) :
    (e.buf.length = v.blockBytes ∧ seqAbsorbByte v e b = ⟨nodeCompress v e.node e.buf false false, [b]⟩) ∨
    (e.buf.length ≠ v.blockBytes ∧ seqAbsorbByte v e b = ⟨e.node, e.buf ++ [b]⟩) := by
  by_cases h : e.buf.length = v.blockBytes <;> simp [seqAbsorbByte, h]

/-- The buffer never holds more than one block. -/
theorem seqAbsorb_buf_le (v : Variant) (e : SeqEngine) (p : List Byte) (h : e.buf.length ≤ v.blockBytes) :
    (seqAbsorb v e p).buf.length ≤ v.blockBytes := by
  induction p using List.reverseRecOn with
  | nil => exact h
  | append_singleton p b ih =>
    have := blockBytes_pos v
    rw [seqAbsorb_concat]
    rcases seqAbsorbByte_cases v (seqAbsorb v e p) b with ⟨_, h⟩ | ⟨_, h⟩ <;> rw [h] <;> simp <;> omega

/-- After at least one byte something is resident. -/
theorem seqAbsorb_buf_ne_nil (v : Variant) (e : SeqEngine) {p : List Byte} (hp : p ≠ []) :
    (seqAbsorb v e p).buf ≠ [] := by
  rcases List.eq_nil_or_concat p with rfl | ⟨p, b, rfl⟩
  · exact absurd rfl hp
  · rw [List.concat_eq_append, seqAbsorb_concat]
    rcases seqAbsorbByte_cases v (seqAbsorb v e p) b with ⟨_, h⟩ | ⟨_, h⟩ <;> rw [h] <;> simp

/-- Bytes counted and bytes resident add up to the bytes taken in, modulo 2^(2W). -/
theorem seqAbsorb_count (v : Variant) (e : SeqEngine) (p : List Byte) :
    ((seqAbsorb v e p).node.counter v + (seqAbsorb v e p).buf.length) % 2 ^ (2 * v.wordBits) =
      (e.node.counter v + e.buf.length + p.length) % 2 ^ (2 * v.wordBits) := by
  induction p using List.reverseRecOn with
  | nil => simp
  | append_singleton p b ih =>
    have hs : (e.node.counter v + e.buf.length + (p ++ [b]).length) % 2 ^ (2 * v.wordBits) =
        ((seqAbsorb v e p).node.counter v + (seqAbsorb v e p).buf.length + 1) % 2 ^ (2 * v.wordBits) := by
      rw [Nat.add_mod _ 1, ih, ← Nat.add_mod]; simp; ring_nf
    rw [seqAbsorb_concat, hs]
    rcases seqAbsorbByte_cases v (seqAbsorb v e p) b with ⟨_, h⟩ | ⟨_, h⟩ <;> rw [h]
    · simp [nodeCompress_counter]
    · simp [Nat.add_assoc]

theorem blockBytes_dvd (v : Variant) : v.blockBytes ∣ 2 ^ (2 * v.wordBits) := by
  cases v
  · exact ⟨2 ^ 58, by decide⟩
  · exact ⟨2 ^ 121, by decide⟩

/-- A counter of whole blocks stays one. -/
theorem nodeCompress_whole {v : Variant} {n : Node} {s : List Byte} (f l : Bool)
    (hn : n.counter v % v.blockBytes = 0) (hs : s.length = v.blockBytes) :
    (nodeCompress v n s f l).counter v % v.blockBytes = 0 := by
  rw [nodeCompress_counter, Nat.mod_mod_of_dvd _ (blockBytes_dvd v), hs]; simpa using hn

theorem seqAbsorb_whole (v : Variant) (e : SeqEngine) (p : List Byte) (h : e.node.counter v % v.blockBytes = 0) :
    (seqAbsorb v e p).node.counter v % v.blockBytes = 0 := by
  induction p using List.reverseRecOn with
  | nil => exact h
  | append_singleton p b ih =>
    rw [seqAbsorb_concat]
    rcases seqAbsorbByte_cases v (seqAbsorb v e p) b with ⟨hl, h⟩ | ⟨_, h⟩ <;> rw [h]
    · exact nodeCompress_whole _ _ ih hl
    · exact ih

theorem seqAbsorb_fits (v : Variant) (e : SeqEngine) (p : List Byte) (h : e.node.Fits v) :
    (seqAbsorb v e p).node.Fits v := by
  induction p using List.reverseRecOn with
  | nil => exact h
  | append_singleton p b ih =>
    rw [seqAbsorb_concat]
    rcases seqAbsorbByte_cases v (seqAbsorb v e p) b with ⟨_, h⟩ | ⟨_, h⟩ <;> rw [h]
    · exact nodeCompress_fits _ _ _ _ _
    · exact ih

theorem seqAbsorb_unflagged (v : Variant) (e : SeqEngine) (p : List Byte) (h : e.node.Unflagged) :
    (seqAbsorb v e p).node.Unflagged := by
  induction p using List.reverseRecOn with
  | nil => exact h
  | append_singleton p b ih =>
    rw [seqAbsorb_concat]
    rcases seqAbsorbByte_cases v (seqAbsorb v e p) b with ⟨_, h⟩ | ⟨_, h⟩ <;> rw [h]
    · exact nodeCompress_unflagged _ _ _ _
    · exact ih

/-! The closed form -/

/-- The chaining value after the first `m` blocks of D, each non-final. -/
def chainPrefix (v : Variant) (pblock d : List Byte) (m : Nat) : Vector (CoreWord v) 8 :=
  (List.range m).foldl (fun h j => chainBlock v h (blockAt v d j) ((j + 1) * v.blockBytes) false false)
    (initialChain v pblock)

@[simp] theorem chainPrefix_zero (v : Variant) (pblock d : List Byte) :
    chainPrefix v pblock d 0 = initialChain v pblock := by simp [chainPrefix]

theorem chainPrefix_succ (v : Variant) (pblock d : List Byte) (m : Nat) :
    chainPrefix v pblock d (m + 1) =
      chainBlock v (chainPrefix v pblock d m) (blockAt v d m) ((m + 1) * v.blockBytes) false false := by
  simp [chainPrefix, List.range_succ]

theorem blockAt_append {v : Variant} {d e : List Byte} {j : Nat} (h : (j + 1) * v.blockBytes ≤ d.length) :
    blockAt v (d ++ e) j = blockAt v d j := slice_append_left h

theorem blockAt_length_le (v : Variant) (d : List Byte) (j : Nat) : (blockAt v d j).length ≤ v.blockBytes := by
  simp [blockAt, Nat.succ_mul]; omega

theorem blockAt_length {v : Variant} {d : List Byte} {j : Nat} (h : (j + 1) * v.blockBytes ≤ d.length) :
    (blockAt v d j).length = v.blockBytes := by
  rw [blockAt, slice_length, Nat.min_eq_left h, Nat.succ_mul]; omega

theorem chainPrefix_append (v : Variant) (pblock d e : List Byte) (m : Nat) (h : m * v.blockBytes ≤ d.length) :
    chainPrefix v pblock (d ++ e) m = chainPrefix v pblock d m := by
  induction m with
  | zero => simp
  | succ m ih =>
    rw [chainPrefix_succ, chainPrefix_succ, blockAt_append h, ih (by rw [Nat.succ_mul] at h; omega)]

/-- The number of blocks of a byte string, from the block its last byte is in. -/
theorem blockCount_eq {v : Variant} {d : List Byte} {m : Nat} (h1 : m = 0 ∨ m * v.blockBytes < d.length)
    (h2 : d.length ≤ (m + 1) * v.blockBytes) : blockCount v d = m + 1 := by
  have hb := blockBytes_pos v
  rw [blockCount]
  rcases Nat.eq_zero_or_pos d.length with h0 | h0
  · have : m = 0 := by rcases h1 with h | h <;> omega
    rw [h0, this, Nat.zero_add, Nat.div_eq_of_lt (by omega)]; rfl
  · have h1' : m * v.blockBytes < d.length := by rcases h1 with rfl | h <;> omega
    have : (d.length + v.blockBytes - 1) / v.blockBytes = m + 1 := by
      rw [Nat.div_eq_iff hb]
      simp only [Nat.succ_mul] at *
      omega
    omega

/-- The engine has taken in exactly D under the parameter block: it holds the chaining value of every block but the
last, and the last block resident. -/
structure SeqEngine.Holds (v : Variant) (pblock d : List Byte) (e : SeqEngine) : Prop where
  buf : e.buf = d.drop ((blockCount v d - 1) * v.blockBytes)
  node : e.node.Holds v (chainPrefix v pblock d (blockCount v d - 1)) ((blockCount v d - 1) * v.blockBytes)

/-- A fresh node with at most one block in the buffer. -/
theorem holds_start {v : Variant} {pblock d : List Byte} (h : d.length ≤ v.blockBytes) :
    SeqEngine.Holds v pblock d ⟨nodeInit v pblock, d⟩ := by
  have hk : blockCount v d = 1 := by simpa using blockCount_eq (v := v) (d := d) (m := 0) (.inl rfl) (by simpa using h)
  refine ⟨by simp [hk], ?_⟩
  rw [hk]; simpa using nodeInit_holds v pblock

theorem seqAbsorbByte_holds {v : Variant} {pblock d : List Byte} {e : SeqEngine} (h : e.Holds v pblock d) (b : Byte) :
    (seqAbsorbByte v e b).Holds v pblock (d ++ [b]) := by
  have hb := blockBytes_pos v
  obtain ⟨m, hm1, hm2⟩ : ∃ m, (m = 0 ∨ m * v.blockBytes < d.length) ∧ d.length ≤ (m + 1) * v.blockBytes := by
    refine ⟨(d.length - 1) / v.blockBytes, ?_, ?_⟩
    · have h1 := Nat.div_mul_le_self (d.length - 1) v.blockBytes
      rcases Nat.eq_zero_or_pos d.length with h0 | h0
      · left; rw [h0]; simp
      · right; omega
    · have h1 := Nat.lt_div_mul_add (a := d.length - 1) hb
      rw [Nat.succ_mul]; omega
  have hk := blockCount_eq hm1 hm2
  obtain ⟨hbuf, hnode⟩ := h
  rw [hk, Nat.add_sub_cancel] at hbuf hnode
  have hmle : m * v.blockBytes ≤ d.length := by rcases hm1 with rfl | h <;> omega
  rcases seqAbsorbByte_cases v e b with ⟨hl, he⟩ | ⟨hl, he⟩ <;> rw [he]
  · rw [hbuf, List.length_drop] at hl
    have hd : d.length = (m + 1) * v.blockBytes := by rw [Nat.succ_mul]; omega
    have hk' : blockCount v (d ++ [b]) = m + 1 + 1 :=
      blockCount_eq (.inr (by simp; omega)) (by simp [Nat.succ_mul] at *; omega)
    refine ⟨?_, ?_⟩
    · simp [hk', hd]
    · rw [hk', Nat.add_sub_cancel, chainPrefix_append _ _ _ _ _ (by omega), chainPrefix_succ]
      have hblk : e.buf = blockAt v d m := by rw [hbuf, blockAt, slice_self _ (by omega)]
      have := nodeCompress_holds hnode e.buf false false
      rw [hblk, blockAt_length (by omega)] at this
      rw [hblk]
      simpa [Nat.succ_mul] using this
  · rw [hbuf, List.length_drop] at hl
    have hd : d.length < (m + 1) * v.blockBytes := by rw [Nat.succ_mul] at *; omega
    have hk' : blockCount v (d ++ [b]) = m + 1 := blockCount_eq (by simp; omega) (by simp; omega)
    refine ⟨?_, ?_⟩
    · simp only [hk', Nat.add_sub_cancel, hbuf]
      rw [List.drop_append_of_le_length hmle]
    · rw [hk', Nat.add_sub_cancel, chainPrefix_append _ _ _ _ _ hmle]; exact hnode

/-- Absorbing more bytes. -/
theorem seqAbsorb_holds {v : Variant} {pblock d : List Byte} {e : SeqEngine} (h : e.Holds v pblock d)
    (p : List Byte) : (seqAbsorb v e p).Holds v pblock (d ++ p) := by
  induction p using List.reverseRecOn with
  | nil => simpa using h
  | append_singleton p b ih => rw [seqAbsorb_concat, ← List.append_assoc]; exact seqAbsorbByte_holds ih b

/-- Finalizing gives the closed form's chaining value. -/
theorem seqFinal_digest {v : Variant} {pblock d : List Byte} {e : SeqEngine} (h : e.Holds v pblock d) (last : Bool) :
    nodeDigest v (seqFinal v e last).node = closedHash v pblock d last := by
  have hb := blockBytes_pos v
  obtain ⟨hbuf, hnode⟩ := h
  have hle : (blockCount v d - 1) * v.blockBytes ≤ d.length ∧ d.length ≤ blockCount v d * v.blockBytes := by
    rw [blockCount]
    have h1 := Nat.lt_div_mul_add (a := d.length + v.blockBytes - 1) hb
    have h2 := Nat.div_mul_le_self (d.length + v.blockBytes - 1) v.blockBytes
    generalize (d.length + v.blockBytes - 1) / v.blockBytes = q at *
    rcases Nat.eq_zero_or_pos q with rfl | hq
    · simp at *; omega
    · rw [Nat.max_eq_right hq, Nat.sub_mul]; omega
  have hpos : blockCount v d - 1 + 1 = blockCount v d := by
    have : 1 ≤ blockCount v d := Nat.le_max_left _ _
    omega
  have hblk : e.buf = blockAt v d (blockCount v d - 1) := by
    rw [hbuf, blockAt, slice_self _ (by rw [hpos]; exact hle.2)]
  have hlen : (blockCount v d - 1) * v.blockBytes + e.buf.length = d.length := by
    rw [hbuf, List.length_drop]; omega
  have := nodeCompress_holds hnode e.buf true last
  rw [hlen] at this
  rw [seqFinal, nodeDigest_holds this, closedHash, closedChain, hblk]; rfl

end Sys2Proof.Machine
end

