-- ==== Sys2Proof/Laws/Parallel.lean ====
section
/-! SUPPORT. The parallel engine: the lanes under a batch, splitting a payload, the bounds of the shared buffer, and
what the engine holds after any byte string in terms of the closed form. -/

namespace Sys2Proof.Machine

/-! The lanes -/

@[simp] theorem eachLane_length (p : Nat) (f : Nat → Node → Node) (lanes : List Node) :
    (eachLane p f lanes).length = lanes.length := by simp [eachLane]

theorem eachLane_get (p : Nat) (f : Nat → Node → Node) (lanes : List Node) (i : Nat) :
    (eachLane p f lanes)[i]? = lanes[i]?.map fun n => if i < p then f i n else n := by
  simp [eachLane]

/-- A property that the work on a lane establishes or keeps holds of every lane after it. -/
theorem eachLane_forall {P : Node → Prop} {p : Nat} {f : Nat → Node → Node} {lanes : List Node}
    (hf : ∀ i n, i < p → n ∈ lanes → P (f i n)) (hl : ∀ n ∈ lanes, P n) : ∀ n ∈ eachLane p f lanes, P n := by
  intro n hn
  simp only [eachLane, List.mem_mapIdx] at hn
  obtain ⟨i, hi, rfl⟩ := hn
  split
  · exact hf _ _ ‹_› (List.getElem_mem hi)
  · exact hl _ (List.getElem_mem hi)

/-- The lanes from P on keep their state. -/
theorem eachLane_drop (p : Nat) (f : Nat → Node → Node) (lanes : List Node) :
    (eachLane p f lanes).drop p = lanes.drop p := by
  apply List.ext_getElem?
  intro i
  simp only [List.getElem?_drop, eachLane_get]
  cases lanes[p + i]? <;> simp

theorem batch_lanes (v : Variant) (p : Nat) (e : ParEngine) (i : Nat) :
    (batch v p e).lanes[i]? = e.lanes[i]?.map fun n =>
      if i < p then nodeCompress v n (blockAt v e.sb i) false false else n := eachLane_get _ _ _ _

theorem batch_sb (v : Variant) (p : Nat) (e : ParEngine) (h : e.sb.length = 2 * p * v.blockBytes) :
    (batch v p e).sb = e.sb.drop (p * v.blockBytes) := slice_self _ (by omega) _

/-! Bytes -/

@[simp] theorem parAbsorb_nil (v : Variant) (p : Nat) (e : ParEngine) : parAbsorb v p e [] = e := rfl

theorem parAbsorb_append (v : Variant) (p : Nat) (e : ParEngine) (s t : List Byte) :
    parAbsorb v p e (s ++ t) = parAbsorb v p (parAbsorb v p e s) t := by simp [parAbsorb]

theorem parAbsorb_concat (v : Variant) (p : Nat) (e : ParEngine) (s : List Byte) (b : Byte) :
    parAbsorb v p e (s ++ [b]) = parAbsorbByte v p (parAbsorb v p e s) b := by simp [parAbsorb]

/-- Everything one byte can do. -/
theorem parAbsorbByte_cases (v : Variant) (p : Nat) (e : ParEngine) (b : Byte) :
    (e.sb.length + 1 = 2 * p * v.blockBytes ∧ parAbsorbByte v p e b = batch v p ⟨e.lanes, e.sb ++ [b]⟩) ∨
    (e.sb.length + 1 ≠ 2 * p * v.blockBytes ∧ parAbsorbByte v p e b = ⟨e.lanes, e.sb ++ [b]⟩) := by
  by_cases h : e.sb.length + 1 = 2 * p * v.blockBytes <;> simp [parAbsorbByte, h]

/-- What one byte keeps, any number of bytes keep. -/
theorem parAbsorb_induct {P : ParEngine → Prop} {v : Variant} {p : Nat}
    (step : ∀ e b, P e → P (parAbsorbByte v p e b)) (e : ParEngine) (s : List Byte) (h : P e) :
    P (parAbsorb v p e s) := by
  induction s using List.reverseRecOn with
  | nil => exact h
  | append_singleton s b ih => rw [parAbsorb_concat]; exact step _ _ ih

theorem parAbsorb_lanes_length (v : Variant) (p : Nat) (e : ParEngine) (s : List Byte) :
    (parAbsorb v p e s).lanes.length = e.lanes.length := by
  refine parAbsorb_induct (P := fun x => x.lanes.length = e.lanes.length) (fun x b hx => ?_) e s rfl
  rcases parAbsorbByte_cases v p x b with ⟨_, h⟩ | ⟨_, h⟩ <;> rw [h]
  · simpa [batch] using hx
  · exact hx

theorem parAbsorb_lanes_drop (v : Variant) (p : Nat) (e : ParEngine) (s : List Byte) :
    (parAbsorb v p e s).lanes.drop p = e.lanes.drop p := by
  refine parAbsorb_induct (P := fun x => x.lanes.drop p = e.lanes.drop p) (fun x b hx => ?_) e s rfl
  rcases parAbsorbByte_cases v p x b with ⟨_, h⟩ | ⟨_, h⟩ <;> rw [h]
  · simpa [batch, eachLane_drop] using hx
  · exact hx

/-- A property of the lanes that a batch establishes. -/
theorem parAbsorb_lanes_forall {P : Node → Prop} {v : Variant} {p : Nat}
    (hc : ∀ n s, P n → s.length = v.blockBytes → P (nodeCompress v n s false false)) (e : ParEngine) (s : List Byte)
    (h : ∀ n ∈ e.lanes, P n) : ∀ n ∈ (parAbsorb v p e s).lanes, P n := by
  refine parAbsorb_induct (P := fun x => ∀ n ∈ x.lanes, P n) (fun x b hx => ?_) e s h
  rcases parAbsorbByte_cases v p x b with ⟨hl, h⟩ | ⟨_, h⟩ <;> rw [h]
  · refine eachLane_forall (fun i n hi hn => hc _ _ (hx n hn) (blockAt_length ?_)) hx
    have := Nat.mul_le_mul_right v.blockBytes (show i + 1 ≤ 2 * p by omega)
    simp; omega
  · exact hx

/-- SB stays below two blocks per lane. -/
theorem parAbsorb_sb_lt (v : Variant) (p : Nat) (e : ParEngine) (s : List Byte) (h : e.sb.length < 2 * p * v.blockBytes) :
    (parAbsorb v p e s).sb.length < 2 * p * v.blockBytes := by
  refine parAbsorb_induct (P := fun x => x.sb.length < 2 * p * v.blockBytes) (fun x b hx => ?_) e s h
  rcases parAbsorbByte_cases v p x b with ⟨hl, h⟩ | ⟨hl, h⟩ <;> rw [h]
  · rw [batch_sb _ _ _ (by simpa using hl)]
    simp only [List.length_drop, List.length_append, List.length_singleton, hl]
    have := blockBytes_pos v
    have : 0 < p := by rcases Nat.eq_zero_or_pos p with rfl | h <;> omega
    have := Nat.mul_pos this (blockBytes_pos v)
    rw [Nat.mul_assoc] at *; omega
  · simp; omega

/-- What any bytes do to the shared buffer and the lane counters: `batches` batches have run. -/
theorem parAbsorb_count (v : Variant) (p : Nat) (e : ParEngine) (s : List Byte)
    (hl : e.sb.length < 2 * p * v.blockBytes) :
    ∃ batches, (parAbsorb v p e s).sb.length + batches * p * v.blockBytes = e.sb.length + s.length ∧
      (1 ≤ batches → p * v.blockBytes ≤ (parAbsorb v p e s).sb.length) ∧
      ∀ (i : Nat) (n : Node), i < p → e.lanes[i]? = some n → ∃ n', (parAbsorb v p e s).lanes[i]? = some n' ∧
        n'.counter v % 2 ^ (2 * v.wordBits) = (n.counter v + batches * v.blockBytes) % 2 ^ (2 * v.wordBits) := by
  induction s using List.reverseRecOn with
  | nil => exact ⟨0, by simp, by simp, fun i n _ h => ⟨n, h, by simp⟩⟩
  | append_singleton s b ih =>
    obtain ⟨k, h1, h2, h3⟩ := ih
    have hlt := parAbsorb_sb_lt v p e s hl
    rw [parAbsorb_concat]
    rcases parAbsorbByte_cases v p (parAbsorb v p e s) b with ⟨hf, h⟩ | ⟨hf, h⟩ <;> rw [h]
    · have hfull : ((parAbsorb v p e s).sb ++ [b]).length = 2 * p * v.blockBytes := by simpa using hf
      have hsb := batch_sb v p ⟨(parAbsorb v p e s).lanes, (parAbsorb v p e s).sb ++ [b]⟩ hfull
      have e2 : 2 * p * v.blockBytes = p * v.blockBytes + p * v.blockBytes := by ring
      have e1 : (k + 1) * p * v.blockBytes = k * p * v.blockBytes + p * v.blockBytes := by ring
      refine ⟨k + 1, ?_, fun _ => ?_, fun i n hi hn => ?_⟩
      · simp only [hsb, List.length_drop, List.length_append, List.length_cons, List.length_nil] at hfull ⊢; omega
      · simp only [hsb, List.length_drop]; omega
      · obtain ⟨n', hn', hc⟩ := h3 i n hi hn
        refine ⟨_, by rw [batch_lanes, hn']; simp only [Option.map_some, hi, if_true]; rfl, ?_⟩
        have hb : (blockAt v ((parAbsorb v p e s).sb ++ [b]) i).length = v.blockBytes := by
          have : (i + 1) * v.blockBytes ≤ p * v.blockBytes := Nat.mul_le_mul_right _ hi
          have e3 : (i + 1) * v.blockBytes = i * v.blockBytes + v.blockBytes := by ring
          simp only [blockAt, slice, List.length_drop, List.length_take, hfull]; omega
        rw [nodeCompress_counter, hb, Nat.mod_mod, Nat.add_mod, hc, ← Nat.add_mod]
        congr 1; ring
    · refine ⟨k, by simp; omega, fun hk => ?_, h3⟩
      have := h2 hk
      simp; omega

/-- Once one block per lane is resident, it stays so. -/
theorem parAbsorb_sb_ge (v : Variant) (p : Nat) (e : ParEngine) (s : List Byte) (h : p * v.blockBytes ≤ e.sb.length) :
    p * v.blockBytes ≤ (parAbsorb v p e s).sb.length := by
  refine parAbsorb_induct (P := fun x => p * v.blockBytes ≤ x.sb.length) (fun x b hx => ?_) e s h
  rcases parAbsorbByte_cases v p x b with ⟨hl, h⟩ | ⟨hl, h⟩ <;> rw [h]
  · rw [batch_sb _ _ _ (by simpa using hl)]
    simp only [List.length_drop, List.length_append, List.length_singleton, hl]
    rw [Nat.mul_assoc] at *; omega
  · simp; omega

/-- After at least one byte something is resident. -/
theorem parAbsorb_sb_ne_nil (v : Variant) (p : Nat) (e : ParEngine) {s : List Byte} (hs : s ≠ []) :
    (parAbsorb v p e s).sb ≠ [] := by
  rcases List.eq_nil_or_concat s with rfl | ⟨s, b, rfl⟩
  · exact absurd rfl hs
  · rw [List.concat_eq_append, parAbsorb_concat]
    rcases parAbsorbByte_cases v p (parAbsorb v p e s) b with ⟨hl, h⟩ | ⟨_, h⟩ <;> rw [h]
    · rw [batch_sb _ _ _ (by simpa using hl)]
      intro hn
      have := congrArg List.length hn
      simp only [List.length_drop, List.length_append, List.length_singleton, hl, List.length_nil] at this
      have hp : 0 < p := by rcases Nat.eq_zero_or_pos p with rfl | h <;> omega
      have := Nat.mul_pos hp (blockBytes_pos v)
      rw [Nat.mul_assoc] at *; omega
    · simp

/-! Finalizing the lanes -/

/-- A finalized lane is the result of a final compression. -/
theorem finalizeLane_eq (v : Variant) (p : Nat) (sb : List Byte) (i : Nat) (n : Node) :
    ∃ m s, finalizeLane v p sb i n = nodeCompress v m s true (i + 1 == p) := by
  simp only [finalizeLane]; split
  · exact ⟨_, _, rfl⟩
  · split <;> exact ⟨_, _, rfl⟩

theorem finalizeLanes_get (v : Variant) (p : Nat) (e : ParEngine) (i : Nat) :
    (finalizeLanes v p e)[i]? = e.lanes[i]?.map fun n => if i < p then finalizeLane v p e.sb i n else n :=
  eachLane_get _ _ _ _

/-! The closed form -/

/-- Block 0 of a byte string that begins with a whole block. -/
theorem blockAt_zero_append {v : Variant} {a b : List Byte} (h : a.length = v.blockBytes) :
    blockAt v (a ++ b) 0 = a := by simp [blockAt, slice, ← h]

/-- The later blocks of a byte string that begins with `k` whole blocks. -/
theorem blockAt_append_right {v : Variant} {a b : List Byte} {k : Nat} (h : a.length = k * v.blockBytes) (j : Nat) :
    blockAt v (a ++ b) (k + j) = blockAt v b j := by
  rw [blockAt, slice_append_right (by rw [h]; exact Nat.mul_le_mul_right _ (by omega)), h, blockAt]
  congr 1
  · rw [Nat.add_mul]; omega
  · simp only [Nat.add_mul]; omega

theorem blockAt_nil (v : Variant) (j : Nat) : blockAt v [] j = [] := by simp [blockAt, slice]

/-- A byte string glued from blocks, of which only the last non-empty one may be partial, has those blocks. -/
theorem blockAt_flatMap {v : Variant} (n j : Nat) (f : Nat → List Byte) (hle : ∀ k, (f k).length ≤ v.blockBytes)
    (hlast : ∀ k, (f k).length < v.blockBytes → f (k + 1) = []) (hj : n ≤ j → f j = []) :
    blockAt v ((List.range n).flatMap f) j = f j := by
  have hb := blockBytes_pos v
  induction n generalizing j f with
  | zero => simp [blockAt_nil, hj]
  | succ n ih =>
    rw [List.range_succ_eq_map, List.flatMap_cons, List.flatMap_map]
    rcases Nat.lt_or_eq_of_le (hle 0) with h0 | h0
    · have hnil : ∀ k, f (k + 1) = [] := by
        intro k
        induction k with
        | zero => exact hlast 0 h0
        | succ k ih => exact hlast (k + 1) (by rw [ih]; simpa using hb)
      have : (List.range n).flatMap (fun a => f a.succ) = [] := by simp [hnil]
      rw [this, List.append_nil]
      cases j with
      | zero =>
        rw [blockAt, Nat.zero_mul, slice_self _ (by omega)]; rfl
      | succ j =>
        rw [hnil, blockAt, slice_eq_nil]
        rw [Nat.succ_mul]; omega
    · cases j with
      | zero => exact blockAt_zero_append h0
      | succ j =>
        rw [Nat.add_comm, blockAt_append_right (by simpa using h0)]
        rw [Nat.add_comm 1 j]
        exact ih j (fun a => f a.succ) (fun k => hle _) (fun k hk => hlast _ hk) (fun h => hj (by omega))

theorem blockAt_eq_nil {v : Variant} {d : List Byte} {j : Nat} (h : d.length ≤ j * v.blockBytes) : blockAt v d j = [] :=
  slice_eq_nil h

/-- The blocks of lane i's stripe. -/
theorem blockAt_stripe {v : Variant} {p i : Nat} (hp : 1 ≤ p) (d : List Byte) (j : Nat) :
    blockAt v (stripe v p i d) j = blockAt v d (i + j * p) := by
  have hb := blockBytes_pos v
  refine blockAt_flatMap d.length j (fun k => blockAt v d (i + k * p)) (fun k => blockAt_length_le _ _ _) ?_ ?_
  · intro k hk
    apply blockAt_eq_nil
    by_contra hc
    have h1 : (i + k * p + 1) * v.blockBytes ≤ (i + (k + 1) * p) * v.blockBytes :=
      Nat.mul_le_mul_right _ (by rw [Nat.succ_mul]; omega)
    have := blockAt_length (v := v) (d := d) (j := i + k * p) (by omega)
    omega
  · intro hj
    apply blockAt_eq_nil
    calc d.length ≤ j := hj
      _ ≤ j * p := Nat.le_mul_of_pos_right _ hp
      _ ≤ (i + j * p) * v.blockBytes := by
        calc j * p ≤ i + j * p := by omega
          _ ≤ _ := Nat.le_mul_of_pos_right _ hb

/-- The length of a byte string from its last non-empty block. -/
theorem length_of_blocks {v : Variant} {d : List Byte} {m : Nat} (h : 0 < (blockAt v d m).length)
    (h' : blockAt v d (m + 1) = []) : d.length = m * v.blockBytes + (blockAt v d m).length := by
  have hb := blockBytes_pos v
  have h'' := congrArg List.length h'
  simp only [blockAt, slice_length, List.length_nil, Nat.add_mul, Nat.one_mul] at *
  omega

/-- A byte string whose first block is empty is empty. -/
theorem eq_nil_of_block {v : Variant} {d : List Byte} (h : blockAt v d 0 = []) : d = [] := by
  have hb := blockBytes_pos v
  have := congrArg List.length h
  simp only [blockAt, slice_length, List.length_nil] at this
  exact List.eq_nil_of_length_eq_zero (by omega)

/-- The parallel engine has taken in exactly X (key blocks first): after q batches, SB holds X from byte q·P·BB on, and
lane i the chaining value of its first q blocks under `pb i`. -/
structure ParEngine.Holds (v : Variant) (p : Nat) (pb : Nat → List Byte) (x : List Byte) (e : ParEngine) (q : Nat) :
    Prop where
  sb : e.sb = x.drop (q * p * v.blockBytes)
  upper : x.length < (q + 2) * p * v.blockBytes
  lower : q = 0 ∨ (q + 1) * p * v.blockBytes ≤ x.length
  lanes : ∀ i, i < p → ∃ n, e.lanes[i]? = some n ∧
    ∀ d : List Byte, (∀ j, j < q → blockAt v d j = blockAt v x (i + j * p)) →
      n.Holds v (chainPrefix v (pb i) d q) (q * v.blockBytes)

theorem chainPrefix_congr {v : Variant} {pb d d' : List Byte} {m : Nat}
    (h : ∀ j, j < m → blockAt v d j = blockAt v d' j) : chainPrefix v pb d m = chainPrefix v pb d' m := by
  induction m with
  | zero => simp
  | succ m ih => rw [chainPrefix_succ, chainPrefix_succ, h m (by omega), ih fun j hj => h j (by omega)]

theorem parAbsorbByte_holds {v : Variant} {p q : Nat} {pb : Nat → List Byte} {x : List Byte} {e : ParEngine}
    (hp : 1 ≤ p) (h : e.Holds v p pb x q) (b : Byte) : ∃ q', (parAbsorbByte v p e b).Holds v p pb (x ++ [b]) q' := by
  have hb := blockBytes_pos v
  obtain ⟨hsb, hup, hlo, hl⟩ := h
  have hpb : 0 < p * v.blockBytes := Nat.mul_pos hp hb
  have e1 : (q + 1) * p * v.blockBytes = q * p * v.blockBytes + p * v.blockBytes := by ring
  have e2 : (q + 2) * p * v.blockBytes = q * p * v.blockBytes + 2 * p * v.blockBytes := by ring
  have e2' : (q + 1 + 1) * p * v.blockBytes = q * p * v.blockBytes + 2 * p * v.blockBytes := by ring
  have e3 : (q + 1 + 2) * p * v.blockBytes = q * p * v.blockBytes + 3 * (p * v.blockBytes) := by ring
  have e4 : 2 * p * v.blockBytes = 2 * (p * v.blockBytes) := by ring
  have hle : q * p * v.blockBytes ≤ x.length := by rcases hlo with rfl | h <;> simp at * ; omega
  have hlen : e.sb.length = x.length - q * p * v.blockBytes := by rw [hsb, List.length_drop]
  have hsame : ∀ i j, i < p → j < q → blockAt v (x ++ [b]) (i + j * p) = blockAt v x (i + j * p) := by
    intro i j hi hj
    apply blockAt_append
    have : i + j * p + 1 ≤ q * p := by
      have := Nat.mul_le_mul_right p (show j + 1 ≤ q from hj)
      rw [Nat.succ_mul] at this; omega
    exact le_trans (Nat.mul_le_mul_right _ this) hle
  have hsb' : e.sb ++ [b] = (x ++ [b]).drop (q * p * v.blockBytes) := by
    rw [hsb, List.drop_append_of_le_length hle]
  rcases parAbsorbByte_cases v p e b with ⟨hl', he⟩ | ⟨hl', he⟩ <;> rw [he]
  · refine ⟨q + 1, ?_, ?_, ?_, ?_⟩
    · rw [batch_sb _ _ _ (by simpa using hl'), hsb', List.drop_drop, e1]
    · simp; omega
    · right; simp; omega
    · intro i hi
      obtain ⟨n, hn, hN⟩ := hl i hi
      refine ⟨nodeCompress v n (blockAt v (e.sb ++ [b]) i) false false, by simp [batch_lanes, hn, hi], ?_⟩
      intro d hd
      have hN' := hN d fun j hj => by rw [hd j (by omega), hsame i j hi hj]
      have hblk : blockAt v (e.sb ++ [b]) i = blockAt v d q := by
        rw [hd q (by omega), hsb']
        have ha := blockAt_append_right (v := v) (a := (x ++ [b]).take (q * p * v.blockBytes))
          (b := (x ++ [b]).drop (q * p * v.blockBytes)) (k := q * p) (by simp; omega) i
        rw [List.take_append_drop] at ha
        rw [← ha, Nat.add_comm]
      have hbl : (blockAt v (e.sb ++ [b]) i).length = v.blockBytes := by
        apply blockAt_length
        have := Nat.mul_le_mul_right v.blockBytes (show i + 1 ≤ p from hi)
        simp; omega
      have := nodeCompress_holds hN' (blockAt v (e.sb ++ [b]) i) false false
      rw [hbl] at this
      rw [chainPrefix_succ, ← hblk, Nat.succ_mul]
      exact this
  · refine ⟨q, hsb', ?_, ?_, ?_⟩
    · simp; omega
    · simp; omega
    · intro i hi
      obtain ⟨n, hn, hN⟩ := hl i hi
      exact ⟨n, hn, fun d hd => hN d fun j hj => by rw [hd j hj, hsame i j hi hj]⟩

theorem parAbsorb_holds {v : Variant} {p : Nat} {pb : Nat → List Byte} {x : List Byte} {e : ParEngine} (hp : 1 ≤ p)
    (h : ∃ q, e.Holds v p pb x q) (s : List Byte) : ∃ q, (parAbsorb v p e s).Holds v p pb (x ++ s) q := by
  induction s using List.reverseRecOn with
  | nil => simpa using h
  | append_singleton s b ih =>
    obtain ⟨q, hq⟩ := ih
    rw [parAbsorb_concat, ← List.append_assoc]; exact parAbsorbByte_holds hp hq b

/-- Finalizing lane i gives the closed form's hash of any byte string with the lane's blocks. -/
theorem finalizeLane_digest {v : Variant} {p q i : Nat} {pb : Nat → List Byte} {x d : List Byte} {e : ParEngine}
    {n : Node} (hp : 1 ≤ p) (h : e.Holds v p pb x q) (hi : i < p) (hn : e.lanes[i]? = some n)
    (hd : ∀ j, blockAt v d j = blockAt v x (i + j * p)) :
    nodeDigest v (finalizeLane v p e.sb i n) = closedHash v (pb i) d (i + 1 == p) := by
  have hb := blockBytes_pos v
  obtain ⟨hsb, hup, hlo, hl⟩ := h
  have hpb : 0 < p * v.blockBytes := Nat.mul_pos hp hb
  have hqpb : q * p * v.blockBytes = q * (p * v.blockBytes) := Nat.mul_assoc _ _ _
  have hle : q * p * v.blockBytes ≤ x.length := by
    rcases hlo with rfl | h
    · simp
    · have : (q + 1) * p * v.blockBytes = q * p * v.blockBytes + p * v.blockBytes := by ring
      omega
  have hlen : e.sb.length = x.length - q * p * v.blockBytes := by rw [hsb, List.length_drop]
  obtain ⟨n', hn', hN⟩ := hl i hi
  obtain rfl : n = n' := by rw [hn] at hn'; simpa using hn'
  have hN := hN d fun j _ => hd j
  have hblk : ∀ j, blockAt v e.sb (i + j * p) = blockAt v d (q + j) := by
    intro j
    rw [hd, hsb]
    have ha := blockAt_append_right (v := v) (a := x.take (q * p * v.blockBytes)) (b := x.drop (q * p * v.blockBytes))
      (k := q * p) (by simp; omega) (i + j * p)
    rw [List.take_append_drop] at ha
    rw [← ha]; congr 1; ring
  have hblk0 := hblk 0
  have hblk1 := hblk 1
  rw [Nat.zero_mul, Nat.add_zero, Nat.add_zero] at hblk0
  rw [Nat.one_mul] at hblk1
  have hlenblk : ∀ j, (blockAt v e.sb j).length = min ((j + 1) * v.blockBytes) e.sb.length - j * v.blockBytes := by
    intro j; rw [blockAt, slice_length]
  have hbig : ∀ j, 2 ≤ j → blockAt v d (q + j) = [] := by
    intro j hj
    rw [← hblk]; apply blockAt_eq_nil
    have h1 : (q + 2) * p * v.blockBytes = q * p * v.blockBytes + 2 * p * v.blockBytes := by ring
    have h2 : 2 * p * v.blockBytes ≤ (i + j * p) * v.blockBytes :=
      Nat.mul_le_mul_right _ (le_trans (Nat.mul_le_mul_right p hj) (by omega))
    omega
  have hfin : ∀ (m : Nat) (node : Node) (blk : List Byte),
      node.Holds v (chainPrefix v (pb i) d m) (m * v.blockBytes) → blk = blockAt v d m →
      blockCount v d = m + 1 → d.length = m * v.blockBytes + blk.length →
      nodeDigest v (nodeCompress v node blk true (i + 1 == p)) = closedHash v (pb i) d (i + 1 == p) := by
    intro m node blk hnode hblk hcount hdl
    have := nodeCompress_holds hnode blk true (i + 1 == p)
    rw [← hdl] at this
    rw [nodeDigest_holds this, closedHash, closedChain, hcount, hblk]; rfl
  simp only [finalizeLane]
  split
  · rename_i hc
    have hB1 : (blockAt v e.sb (i + p)).length > 0 := by rw [hlenblk, Nat.succ_mul]; omega
    have hdl := length_of_blocks (v := v) (d := d) (m := q + 1) (by rw [← hblk1]; exact hB1) (hbig 2 (by omega))
    have hB1' := blockAt_length_le v d (q + 1)
    have hB0 : (blockAt v e.sb i).length = v.blockBytes := by
      apply blockAt_length
      have := Nat.mul_le_mul_right v.blockBytes (show i + 1 ≤ i + p by omega)
      omega
    have := nodeCompress_holds hN (blockAt v e.sb i) false false
    rw [hB0, hblk0] at this
    refine hfin (q + 1) _ _ ?_ hblk1 (blockCount_eq (.inr ?_) ?_) (by rw [hblk1]; exact hdl)
    · rw [chainPrefix_succ, Nat.succ_mul, hblk0]; exact this
    · rw [← hblk1] at hdl; omega
    · rw [Nat.succ_mul (q + 1)]; omega
  · rename_i hc
    have hB1 : blockAt v d (q + 1) = [] := by rw [← hblk1]; exact blockAt_eq_nil (by omega)
    split
    · have hB0 : (blockAt v e.sb i).length > 0 := by rw [hlenblk, Nat.succ_mul]; omega
      have hdl := length_of_blocks (v := v) (d := d) (m := q) (by rw [← hblk0]; exact hB0) hB1
      have hB0' := blockAt_length_le v d q
      refine hfin q _ _ hN hblk0 (blockCount_eq (.inr ?_) ?_) (by rw [hblk0]; exact hdl)
      · rw [← hblk0] at hdl; omega
      · rw [Nat.succ_mul]; omega
    · rename_i hc0
      have hq : q = 0 := by
        rcases hlo with h | h
        · exact h
        · exfalso
          have h1 : (q + 1) * p * v.blockBytes = q * p * v.blockBytes + p * v.blockBytes := by ring
          have h2 := Nat.mul_lt_mul_of_pos_right hi hb
          omega
      subst hq
      have hnil : d = [] := by
        apply eq_nil_of_block (v := v)
        rw [← hblk0]; exact blockAt_eq_nil (by omega)
      subst hnil
      refine hfin 0 _ _ hN (blockAt_nil v 0).symm (blockCount_eq (.inl rfl) (by simp)) (by simp)

/-- The lane digests after any message are the lane hashes of the closed form. -/
theorem laneDigests_closed (v : Variant) (p : Nat) (lanes rest : List Node) (sb key m : List Byte)
    (pb : Nat → List Byte) (hkey : key.length ≤ v.keyBytes) (hl : lanes = (List.range p).map (fun i => nodeInit v (pb i)) ++ rest)
    (hs : sb = copies p (keyBlock v key)) :
    laneDigests v p (finalizeLanes v p (parAbsorb v p ⟨lanes, sb⟩ m)) =
      (List.range p).flatMap fun i => closedHash v (pb i) (keyBlock v key ++ stripe v p i m) (i + 1 == p) := by
  rw [laneDigests]
  rcases Nat.eq_zero_or_pos p with hp0 | hp0
  · simp [hp0]
  have hkl : (keyBlock v key).length ≤ v.blockBytes := keyBlock_length_le hkey
  have hkl' : keyBlock v key = [] ∨ (keyBlock v key).length = v.blockBytes := by
    by_cases hk : key = []
    · left; simp [keyBlock, hk]
    · right; exact keyBlock_length hk hkey
  generalize keyBlock v key = kb at *
  have hstart : ParEngine.Holds v p pb (copies p kb) ⟨lanes, sb⟩ 0 := by
    refine ⟨by simp [hs], ?_, .inl rfl, ?_⟩
    · have : (copies p kb).length = p * kb.length := by simp [copies]
      have h2 := Nat.mul_le_mul_left p hkl
      have h3 := Nat.mul_pos hp0 (blockBytes_pos v)
      rw [this, Nat.mul_assoc]; omega
    · intro i hi
      refine ⟨nodeInit v (pb i), ?_, ?_⟩
      · simp only [hl]; rw [List.getElem?_append_left (by simpa using hi)]; simp [hi]
      · intro d _; simpa using nodeInit_holds v _
  obtain ⟨q, hq⟩ := parAbsorb_holds (v := v) hp0 ⟨0, hstart⟩ m
  have hle : p ≤ (parAbsorb v p ⟨lanes, sb⟩ m).lanes.length := by rw [parAbsorb_lanes_length, hl]; simp
  generalize parAbsorb v p ⟨lanes, sb⟩ m = e at *
  have htake : (finalizeLanes v p e).take p =
      (List.range p).map fun i => finalizeLane v p e.sb i (e.lanes.getD i Node.zero) := by
    apply List.ext_getElem?
    intro i
    by_cases hi : i < p
    · have : i < e.lanes.length := by omega
      simp [hi, finalizeLanes_get, this]
    · simp [hi]
  rw [htake, List.flatMap_map]
  apply List.flatMap_congr
  intro i hi
  have hi : i < p := by simpa using hi
  refine finalizeLane_digest hp0 hq hi (by simp [show i < e.lanes.length by omega]) ?_
  intro j
  rcases hkl' with hk0 | hk0
  · rw [hk0]; simp [copies, blockAt_stripe hp0]
  · have hcl : (copies p kb).length = p * v.blockBytes := by simp [copies, hk0]
    cases j with
    | zero =>
      rw [blockAt_zero_append hk0, Nat.zero_mul, Nat.add_zero,
        blockAt_append (by rw [hcl]; exact Nat.mul_le_mul_right _ hi)]
      have : copies p kb = copies i kb ++ (kb ++ copies (p - i - 1) kb) := by
        conv_lhs => rw [show p = i + (p - i - 1 + 1) by omega]
        simp [copies, List.replicate_add, List.replicate_succ]
      rw [this]
      have := blockAt_append_right (v := v) (a := copies i kb) (b := kb ++ copies (p - i - 1) kb) (k := i)
        (by simp [copies, hk0]) 0
      rw [Nat.add_zero] at this; rw [this, blockAt_zero_append hk0]
    | succ j =>
      have h1 := blockAt_append_right (v := v) (a := kb) (b := stripe v p i m) (k := 1) (by simpa using hk0) j
      have h2 := blockAt_append_right (v := v) (a := copies p kb) (b := m) (k := p) hcl (i + j * p)
      rw [Nat.add_comm j 1, h1, blockAt_stripe hp0, show i + (1 + j) * p = p + (i + j * p) by ring, h2]

/-- Once a lane has counted a block, one block per lane is resident. -/
theorem parAbsorb_batched (v : Variant) (p : Nat) (e : ParEngine) (s : List Byte)
    (h : (∃ n ∈ e.lanes, n.counter v ≠ 0) → p * v.blockBytes ≤ e.sb.length) :
    (∃ n ∈ (parAbsorb v p e s).lanes, n.counter v ≠ 0) → p * v.blockBytes ≤ (parAbsorb v p e s).sb.length := by
  refine parAbsorb_induct
    (P := fun x => (∃ n ∈ x.lanes, n.counter v ≠ 0) → p * v.blockBytes ≤ x.sb.length) (fun x b hx => ?_) e s h
  rcases parAbsorbByte_cases v p x b with ⟨hl, h⟩ | ⟨hl, h⟩ <;> rw [h]
  · intro _
    rw [batch_sb _ _ _ (by simpa using hl)]
    simp only [List.length_drop, List.length_append, List.length_singleton, hl]
    rw [Nat.mul_assoc] at *; omega
  · intro hn; have := hx hn; simp; omega

end Sys2Proof.Machine
end

