-- ==== Sys2Proof/Laws/Invariant.lean ====
section
/-! SUPPORT. What starting, absorbing and finishing do to every node, and to the invariant. -/

namespace Sys2Proof.Machine

theorem eq_of_mem_replicate {n x : Node} {k : Nat} (h : x ∈ List.replicate k n) : x = n := by simp at h; exact h.2

@[simp] theorem laneCount_kl (a : Act) (kl : BitVec 8) : Act.laneCount { a with kl := kl } = a.laneCount := rfl

/-- Absorbing a payload in two pieces. -/
theorem absorbBytes_append (p q : List Byte) (s : State) :
    absorbBytes (p ++ q) s = absorbBytes q (absorbBytes p s) := by
  cases hm : s.act.mode <;> simp [absorbBytes, hm, seqAbsorb_append, parAbsorb_append]

/-- A property of every node of a state. -/
def AllNodes (P : Node → Prop) (s : State) : Prop := P s.node ∧ ∀ n ∈ s.lanes, P n

theorem start_nodes (P : Node → Prop) (key s) (h0 : P Node.zero) (h1 : ∀ pb, P (nodeInit s.act.variant pb)) : AllNodes P (engineStart key s) := by
  cases hm : s.act.mode <;> simp only [AllNodes, engineStart, hm]
  · exact ⟨h1 _, fun n hn => by rw [eq_of_mem_replicate hn]; exact h0⟩
  · refine ⟨h0, ?_⟩
    intro n hn
    simp only [parStart, List.mem_append, List.mem_map] at hn
    rcases hn with ⟨i, _, rfl⟩ | hn
    · exact h1 _
    · rw [eq_of_mem_replicate hn]; exact h0

theorem absorb_nodes (P : Node → Prop) (p s) (hs : AllNodes P s) (h1 : ∀ n b, P (nodeCompress s.act.variant n b false false)) : AllNodes P (absorbBytes p s) := by
  cases hm : s.act.mode <;> simp only [AllNodes, absorbBytes, hm]
  · refine ⟨?_, hs.2⟩
    induction p using List.reverseRecOn with
    | nil => exact hs.1
    | append_singleton p b ih =>
      rw [seqAbsorb_concat]
      rcases seqAbsorbByte_cases s.act.variant (seqAbsorb s.act.variant ⟨s.node, s.buf⟩ p) b with ⟨hl, h⟩ | ⟨_, h⟩ <;> rw [h]
      · exact h1 _ _
      · exact ih
  · exact ⟨hs.1, parAbsorb_lanes_forall (fun n b _ _ => h1 n b) _ _ hs.2⟩

theorem finish_nodes (P : Node → Prop) (s) (hs : AllNodes P s) (h1 : ∀ n b l, P (nodeCompress s.act.variant n b true l)) : AllNodes P (finishEngine s) := by
  cases hm : s.act.mode <;> simp only [AllNodes, finishEngine, hm]
  · exact ⟨h1 _ _ _, hs.2⟩
  · refine ⟨h1 _ _ _, eachLane_forall (fun i n _ _ => ?_) hs.2⟩
    obtain ⟨m, s', he⟩ := finalizeLane_eq s.act.variant s.act.laneCount s.sb i n
    rw [he]; exact h1 _ _ _

/-- The power-on state has the invariant. -/
theorem powerOn_inv (n port) (h : LanesMaxLegal n) : Inv (State.powerOn n port) := by
  constructor
  · exact h
  · simp
  · exact ⟨(by decide : Cfg.powerOn.ctrl.toNat < 8), ByteStore.zero_legal, ByteStore.zero_legal⟩
  · simp
  · exact zero_fits _
  · intro x hx; rw [eq_of_mem_replicate hx]; exact zero_fits _
  · exact unflagged_legal zero_unflagged
  · intro x hx; rw [eq_of_mem_replicate hx]; exact unflagged_legal zero_unflagged
  · intro _; exact ⟨zero_unflagged, fun x hx => by rw [eq_of_mem_replicate hx]; exact zero_unflagged⟩
  · simp
  · simp
  · exact ⟨rfl, rfl, rfl, rfl, fun x hx => eq_of_mem_replicate hx⟩

/-- The invariant speaks of no element but these. -/
theorem inv_frame {s t : State} (h : Inv s) (h1 : t.fsm = s.fsm) (h2 : t.cfg.Legal) (h3 : t.act = s.act) (h4 : t.node = s.node) (h5 : t.buf = s.buf)
    (h6 : t.lanes = s.lanes) (h7 : t.sb = s.sb) (h8 : t.lanesMax = s.lanesMax) : Inv t := by
  obtain ⟨a1, a2, a3, a4, a5, a6, a7, a8, a9, a10, a11, a12⟩ := h
  constructor
  · rw [h8]; exact a1
  · rw [h6, h8]; exact a2
  · exact h2
  · rw [h1, h3, h8]; exact a4
  · rw [h4, h3]; exact a5
  · rw [h6, h3]; exact a6
  · rw [h4, h3]; exact a7
  · rw [h6, h3]; exact a8
  · rw [h1, h4, h6]; exact a9
  · rw [h1, h3]; intro x y; obtain ⟨b1, b2, b3, b4⟩ := a10 x y
    constructor
    · rw [h6]; exact b1
    · rw [h7]; exact b2
    · rw [h5, h3]; exact b3
    · rw [h1, h4, h3]; exact b4
  · rw [h1, h3]; intro x y; obtain ⟨b1, b2, b3, b7, b4, b5, b6⟩ := a11 x y
    constructor
    · rw [h5]; exact b1
    · rw [h7, h3]; exact b2
    · rw [h1, h3, h7]; exact b3
    · rw [h1, h6, h3, h7]; exact b7
    · rw [h6, h3]; exact b4
    · rw [h1, h4]; exact b5
    · rw [h1, h6, h3]; exact b6
  · simp only [FsmShape, h1, h3, h4, h5, h6, h7] at a12 ⊢; exact a12

/-- Starting the engine establishes the invariant. -/
theorem start_inv (key : List Byte) (s : State) (f : Fsm) (out) (hmax : LanesMaxLegal s.lanesMax) (hc : s.cfg.Legal) (ha : s.act.Legal s.lanesMax)
    (hk : key.length ≤ s.act.variant.keyBytes) (hf : f = .empty ∧ key = [] ∨ f = .buffering ∧ key ≠ []) :
    Inv (State.respond { engineStart key s with fsm := f, errCode := .ok } out) := by
  have hkk : s.act.variant.keyBytes ≤ 64 := by cases s.act.variant <;> decide
  have hf1 : f ≠ .finalized := by rcases hf with ⟨rfl, _⟩ | ⟨rfl, _⟩ <;> simp
  have hkl : (BitVec.ofNat 8 key.length).toNat = key.length := by simp; omega
  have hlane : s.act.mode = .parallel → s.act.laneCount ≤ s.lanesMax ∧ 2 ≤ s.act.laneCount := fun hm => ⟨(ha.lanes hm).2.2, (ha.lanes hm).2.1⟩
  have hlanes : ∀ n ∈ (engineStart key s).lanes, n = Node.zero ∨ ∃ pb, n = nodeInit s.act.variant pb := by
    intro n hn
    cases hm : s.act.mode <;> simp only [engineStart, hm] at hn
    · left; exact eq_of_mem_replicate hn
    · simp only [parStart, List.mem_append, List.mem_map] at hn
      rcases hn with ⟨i, _, rfl⟩ | hn
      · right; exact ⟨_, rfl⟩
      · left; exact eq_of_mem_replicate hn
  have hnode : (engineStart key s).node = Node.zero ∨ ∃ pb, (engineStart key s).node = nodeInit s.act.variant pb := by
    cases hm : s.act.mode <;> simp only [engineStart, hm]
    · right; exact ⟨_, rfl⟩
    · left; rfl
  have all : ∀ (P : Node → Prop), P Node.zero → (∀ pb, P (nodeInit s.act.variant pb)) → P (engineStart key s).node ∧ ∀ n ∈ (engineStart key s).lanes, P n := by
    intro P h0 h1
    constructor
    · rcases hnode with h | ⟨pb, h⟩ <;> rw [h]; exacts [h0, h1 _]
    · intro n hn; rcases hlanes n hn with h | ⟨pb, h⟩ <;> rw [h]; exacts [h0, h1 _]
  have v1 : (State.respond { engineStart key s with fsm := f, errCode := .ok } out).act.variant = s.act.variant := by simp
  constructor
  · simpa using hmax
  · simp only [State.respond_lanes, State.respond_lanesMax, engineStart_lanesMax]
    cases hm : s.act.mode
    · simp [engineStart, hm]
    · have := hlane hm; simp [engineStart, hm, Act.laneCount] at this ⊢; omega
  · simpa using hc
  · intro _
    obtain ⟨c1, c2, c3, c4, c5, c6⟩ := ha
    simp only [State.respond_act, engineStart_act, State.respond_lanesMax, engineStart_lanesMax]
    exact ⟨c1, by rw [hkl]; exact hk, c3, c4, c5, c6⟩
  · rw [v1]; exact (all (Node.Fits _) (zero_fits _) (fun _ => nodeInit_fits _ _)).1
  · rw [v1]; exact (all (Node.Fits _) (zero_fits _) (fun _ => nodeInit_fits _ _)).2
  · exact unflagged_legal (all Node.Unflagged zero_unflagged (fun _ => nodeInit_unflagged _ _)).1
  · exact fun n hn => unflagged_legal ((all Node.Unflagged zero_unflagged (fun _ => nodeInit_unflagged _ _)).2 n hn)
  · exact fun _ => all Node.Unflagged zero_unflagged (fun _ => nodeInit_unflagged _ _)
  · intro _ hm
    have hm : s.act.mode = .sequential := by simpa using hm
    constructor
    · simp only [State.respond_lanes, engineStart, hm]; exact fun n hn => eq_of_mem_replicate hn
    · simp [engineStart, hm]
    · rw [v1]; simpa [engineStart, hm] using keyBlock_length_le hk
    · intro _; rw [v1]; simp [engineStart, hm]
  · intro _ hm
    have hm : s.act.mode = .parallel := by simpa using hm
    obtain ⟨l1, l2⟩ := hlane hm
    have vl : (State.respond { engineStart key s with fsm := f, errCode := .ok } out).act.laneCount = s.act.laneCount := by simp [Act.laneCount]
    have hsb : (State.respond { engineStart key s with fsm := f, errCode := .ok } out).sb = copies s.act.laneCount (keyBlock s.act.variant key) := by simp [engineStart, hm, Act.laneCount]
    have hcl : ∀ kb : List Byte, (copies s.act.laneCount kb).length = s.act.laneCount * kb.length := by simp [copies]
    constructor
    · simp [engineStart, hm]
    · rw [v1, vl, hsb, hcl, Nat.mul_assoc]
      have h1 := Nat.mul_le_mul_left s.act.laneCount (keyBlock_length_le hk)
      have h2 := Nat.mul_pos (show 0 < s.act.laneCount by omega) (blockBytes_pos s.act.variant)
      omega
    · intro hb hkl0
      rw [v1, vl, hsb, hcl]
      have : key ≠ [] := by
        rintro rfl; simp at hkl0
      rw [keyBlock_length this hk]
    · rintro _ ⟨n, hn, hne⟩
      exact absurd ((all (fun n => n.counter s.act.variant = 0) (by simp) (by simp)).2 n hn) (by rw [v1] at hne; exact hne)
    · rw [vl]; simp only [State.respond_lanes, engineStart, hm]
      intro n hn
      simp only [parStart] at hn
      have : (List.map (fun i => nodeInit s.act.variant (laneParamBlock { s.act with kl := BitVec.ofNat 8 key.length } i (BitVec.ofNat 8 key.length))) (List.range s.act.laneCount)).length = s.act.laneCount := by simp
      rw [List.drop_append_of_le_length (by simp [Act.laneCount]), List.drop_eq_nil_of_le (by simp [Act.laneCount])] at hn
      exact eq_of_mem_replicate (by simpa using hn)
    · intro _; simp [engineStart, hm]
    · intro _; rw [v1]
      exact (all (fun n => n.counter s.act.variant % s.act.variant.blockBytes = 0) (by simp) (by simp)).2
  · rcases hf with ⟨rfl, rfl⟩ | ⟨rfl, hne⟩
    · simp only [FsmShape, State.respond_fsm]
      cases hm : s.act.mode <;> simp [engineStart, hm, keyBlock, copies]
    · simp only [FsmShape, State.respond_fsm]
      have h0 := keyBlock_length hne hk
      have := blockBytes_pos s.act.variant
      have hne' : keyBlock s.act.variant key ≠ [] := by intro h; rw [h] at h0; simp at h0; omega
      cases hm : s.act.mode
      · left; simpa [engineStart, hm] using hne'
      · right
        obtain ⟨l1, l2⟩ := hlane hm
        simp only [State.respond_sb, engineStart, hm, parStart_sb]
        intro h
        have := congrArg List.length h
        simp [copies, Act.laneCount, h0] at this l2
        omega

/-- Absorbing keeps the invariant. -/
theorem absorb_inv (p : List Byte) (s : State) (h : Inv s) (hr : s.fsm = .empty ∨ s.fsm = .buffering) :
    Inv (State.respond { absorbBytes p s with fsm := if p.length > 0 then .buffering else s.fsm, errCode := .ok } []) := by
  have hu : s.fsm ≠ .unconfigured := by rcases hr with h | h <;> simp [h]
  have hf : s.fsm ≠ .finalized := by rcases hr with h | h <;> simp [h]
  obtain ⟨a1, a2, a3, a4, a5, a6, a7, a8, a9, a10, a11, a12⟩ := h
  have a4 := a4 hu
  have a9 := a9 hf
  have hsame : p = [] → absorbBytes p s = s := by
    rintro rfl; cases hm : s.act.mode <;> simp [absorbBytes, hm]
  cases hm : s.act.mode
  · have hS := a10 hu hm
    obtain ⟨s1, s2, s3, s4⟩ := hS
    have s4 := s4 hf
    have hfl : (seqAbsorb s.act.variant ⟨s.node, s.buf⟩ p).node.Unflagged := seqAbsorb_unflagged _ _ _ a9.1
    constructor
    · simpa using a1
    · simpa [absorbBytes, hm] using a2
    · simpa using a3
    · simpa using fun _ => a4
    · simpa [absorbBytes, hm] using seqAbsorb_fits _ _ p a5
    · simpa [absorbBytes, hm] using a6
    · simpa [absorbBytes, hm] using unflagged_legal hfl
    · simpa [absorbBytes, hm] using a8
    · intro _; simp [absorbBytes, hm]; exact ⟨hfl, a9.2⟩
    · intro _ _
      constructor
      · simpa [absorbBytes, hm] using s1
      · simpa [absorbBytes, hm] using s2
      · simpa [absorbBytes, hm] using seqAbsorb_buf_le _ ⟨s.node, s.buf⟩ p s3
      · intro _; simpa [absorbBytes, hm] using seqAbsorb_whole _ ⟨s.node, s.buf⟩ p s4
    · intro _ hm'; simp [hm] at hm'
    · by_cases hp : p = []
      · subst hp
        have : State.respond { absorbBytes [] s with fsm := if ([] : List Byte).length > 0 then .buffering else s.fsm, errCode := .ok } [] = State.respond { s with errCode := .ok } [] := by rw [hsame rfl]; simp [State.respond]
        rw [this]; exact a12
      · have : p.length > 0 := List.length_pos_of_ne_nil hp
        simp only [FsmShape, State.respond_fsm, this, if_true]
        left; simpa [absorbBytes, hm] using seqAbsorb_buf_ne_nil _ ⟨s.node, s.buf⟩ hp
  · have hS := a11 hu hm
    obtain ⟨s1, s2, s3, s7, s4, s5, s6⟩ := hS
    have s5 := s5 hf
    have s6 := s6 hf
    have hall : ∀ (P : Node → Prop), (∀ n s', P n → s'.length = s.act.variant.blockBytes → P (nodeCompress s.act.variant n s' false false)) → (∀ n ∈ s.lanes, P n) → ∀ n ∈ (State.respond { absorbBytes p s with fsm := if p.length > 0 then .buffering else s.fsm, errCode := .ok } []).lanes, P n := by
      intro P h1 h2
      simp only [State.respond_lanes, absorbBytes, hm]
      exact parAbsorb_lanes_forall h1 ⟨s.lanes, s.sb⟩ p h2
    have hfl := hall Node.Unflagged (fun _ _ _ _ => nodeCompress_unflagged _ _ _ _) a9.2
    constructor
    · simpa using a1
    · simpa [absorbBytes, hm, parAbsorb_lanes_length] using a2
    · simpa using a3
    · simpa using fun _ => a4
    · simpa [absorbBytes, hm] using a5
    · simpa using hall (Node.Fits s.act.variant) (fun _ _ _ _ => nodeCompress_fits _ _ _ _ _) a6
    · simpa [absorbBytes, hm] using a7
    · exact fun n hn => unflagged_legal (hfl n hn)
    · intro _; exact ⟨by simpa [absorbBytes, hm] using a9.1, hfl⟩
    · intro _ hm'; simp [hm] at hm'
    · intro _ _
      constructor
      · simpa [absorbBytes, hm] using s1
      · simpa [absorbBytes, hm] using parAbsorb_sb_lt s.act.variant s.act.laneCount ⟨s.lanes, s.sb⟩ p s2
      · intro hb hk
        have hk : s.act.kl ≠ 0 := by simpa using hk
        have hbuf : s.fsm = .buffering := by
          rcases hr with h | h
          · exfalso; rw [FsmShape, h] at a12; exact hk a12.1
          · exact h
        simpa [absorbBytes, hm] using parAbsorb_sb_ge s.act.variant s.act.laneCount ⟨s.lanes, s.sb⟩ p (s3 hbuf hk)
      · intro _ hb
        have := parAbsorb_batched s.act.variant s.act.laneCount ⟨s.lanes, s.sb⟩ p (s7 hf)
        simpa [absorbBytes, hm] using this (by simpa [absorbBytes, hm] using hb)
      · simp only [State.respond_lanes, State.respond_act, absorbBytes, hm]
        rw [parAbsorb_lanes_drop]; exact s4
      · intro _; simpa [absorbBytes, hm] using s5
      · intro _; simpa using hall (fun n => n.counter s.act.variant % s.act.variant.blockBytes = 0) (fun n s' h1 h2 => nodeCompress_whole _ _ h1 h2) s6
    · by_cases hp : p = []
      · subst hp
        have : State.respond { absorbBytes [] s with fsm := if ([] : List Byte).length > 0 then .buffering else s.fsm, errCode := .ok } [] = State.respond { s with errCode := .ok } [] := by rw [hsame rfl]; simp [State.respond]
        rw [this]; exact a12
      · have : p.length > 0 := List.length_pos_of_ne_nil hp
        simp only [FsmShape, State.respond_fsm, this, if_true]
        right; simpa [absorbBytes, hm] using parAbsorb_sb_ne_nil s.act.variant s.act.laneCount ⟨s.lanes, s.sb⟩ hp

/-- Finishing keeps the invariant. -/
theorem final_inv (s : State) (out : List Byte) (h : Inv s) (hr : s.fsm = .empty ∨ s.fsm = .buffering) :
    Inv (State.respond { finishEngine s with fsm := .finalized, errCode := .ok } out) := by
  have hu : s.fsm ≠ .unconfigured := by rcases hr with h | h <;> simp [h]
  have hf : s.fsm ≠ .finalized := by rcases hr with h | h <;> simp [h]
  obtain ⟨a1, a2, a3, a4, a5, a6, a7, a8, a9, a10, a11, a12⟩ := h
  have a4 := a4 hu
  cases hm : s.act.mode
  · obtain ⟨s1, s2, s3, s4⟩ := a10 hu hm
    constructor
    · simpa using a1
    · simpa [finishEngine, hm] using a2
    · simpa using a3
    · simpa using a4
    · simpa [finishEngine, hm, seqFinal] using nodeCompress_fits _ _ _ _ _
    · simpa [finishEngine, hm] using a6
    · simpa [finishEngine, hm, seqFinal] using nodeCompress_flags _ _ _ _ _
    · simpa [finishEngine, hm] using a8
    · simp
    · intro _ _
      constructor
      · simpa [finishEngine, hm] using s1
      · simpa [finishEngine, hm] using s2
      · simp [finishEngine, hm, seqFinal]
      · simp
    · intro _ hm'; simp [hm] at hm'
    · simp [FsmShape, finishEngine, hm, seqFinal, s2]
  · obtain ⟨s1, s2, s3, s7, s4, s5, s6⟩ := a11 hu hm
    have hall : ∀ (P : Node → Prop), (∀ n s' l, P (nodeCompress s.act.variant n s' true l)) → (∀ n ∈ s.lanes, P n) → ∀ n ∈ (State.respond { finishEngine s with fsm := .finalized, errCode := .ok } out).lanes, P n := by
      intro P h1 h2
      simp only [State.respond_lanes, finishEngine, hm]
      refine eachLane_forall (fun i n _ _ => ?_) h2
      obtain ⟨m, s', he⟩ := finalizeLane_eq s.act.variant s.act.laneCount s.sb i n
      rw [he]; exact h1 _ _ _
    constructor
    · simpa using a1
    · simpa [finishEngine, hm, finalizeLanes] using a2
    · simpa using a3
    · simpa using a4
    · simpa [finishEngine, hm, rootEngine, seqFinal] using nodeCompress_fits _ _ _ _ _
    · simpa using hall (Node.Fits s.act.variant) (fun _ _ _ => nodeCompress_fits _ _ _ _ _) a6
    · simpa [finishEngine, hm, rootEngine, seqFinal] using nodeCompress_flags _ _ _ _ _
    · simpa using hall (Node.FlagsLegal s.act.variant) (fun _ _ _ => nodeCompress_flags _ _ _ _ _) a8
    · simp
    · intro _ hm'; simp [hm] at hm'
    · intro _ _
      constructor
      · simp [finishEngine, hm, rootEngine, seqFinal]
      · simp [finishEngine, hm]
        have := (a4.lanes hm).2.1
        have := Nat.mul_pos (show 0 < s.act.laneCount by omega) (blockBytes_pos s.act.variant)
        exact ⟨by omega, blockBytes_pos _⟩
      · simp
      · simp
      · simp only [State.respond_lanes, State.respond_act, finishEngine, hm, finalizeLanes, eachLane_drop]; exact s4
      · simp
      · simp
    · simp [FsmShape, finishEngine, hm, rootEngine, seqFinal]

end Sys2Proof.Machine
end

