-- ==== Sys2Proof/Laws/PerInstr.lean ====
section
/-! SUPPORT. Families of statements with one lemma per constructor of Instr. -/

namespace Sys2Proof.Laws.Framing

/-- A well-formed command is encoded with exactly the payload its own command word asks for (30_encoding.md R70,
R79), so a reader of a byte stream finds its end (R84). -/
def Statement (i : Instr) : Prop := i.WF → (payloadOf i).length = plen (encodeWord i)

theorem wrcfg (reg : BitVec 4) (payload : List Byte) : Statement (.wrcfg reg payload) := by
  intro h
  have hr := reg.isLt
  simp only [Instr.WF, Instr.wellFormed, decide_eq_true_eq] at h
  simp only [payloadOf, plen_eq, encodeWord_toNat]
  rw [if_pos (by omega)]; omega

theorem rdcfg (reg : BitVec 4) : Statement (.rdcfg reg) := by
  intro _
  have hr := reg.isLt
  simp only [payloadOf, plen_eq, encodeWord_toNat, List.length_nil]
  rw [if_neg (by omega), if_neg (by omega), if_neg (by omega)]

theorem init : Statement .init := fun _ => by decide

theorem key (key : List Byte) : Statement (.key key) := by
  intro h
  simp only [Instr.WF, Instr.wellFormed, decide_eq_true_eq] at h
  simp only [payloadOf, plen_eq, encodeWord_toNat]
  rw [if_neg (by omega), if_pos (by omega)]; omega

theorem absorb (payload : List Byte) : Statement (.absorb payload) := by
  intro h
  simp only [Instr.WF, Instr.wellFormed, decide_eq_true_eq] at h
  simp only [payloadOf, plen_eq, encodeWord_toNat]
  rw [if_neg (by omega), if_neg (by omega), if_pos (by omega)]; omega

theorem final (olen : BitVec 8) : Statement (.final olen) := by
  intro _
  have ho := olen.isLt
  simp only [payloadOf, plen_eq, encodeWord_toNat, List.length_nil]
  rw [if_neg (by omega), if_neg (by omega), if_neg (by omega)]

theorem reset : Statement .reset := fun _ => by decide

theorem zeroize : Statement .zeroize := fun _ => by decide

theorem rdstat : Statement .rdstat := fun _ => by decide

end Sys2Proof.Laws.Framing
end

