-- ==== Sys2Proof/Laws/Port.lean ====
section
/-! SUPPORT. What a step does with each move of the host. -/

namespace Sys2Proof.Machine

theorem step_idle {s : State} (h : s.port = []) : step s = .next s := by simp [step, h]

theorem step_powerOn {s : State} {rest : List HostMove} (h : s.port = .powerOn :: rest) :
    step s = .next (State.powerOn s.lanesMax rest) := by simp [step, h, request, State.applyPowerOn]

/-- A transaction with its full payload that decodes to no command fails with E_ILLEGAL. -/
theorem step_of_not_decoded {s : State} {rest : List HostMove} {t : Transaction}
    (hs : s.port = .transaction t :: rest) (hp : t.payload.length = plen t.cw) (hn : ∀ i, decode t ≠ .ok i) :
    step s = .next (State.raise { s with port := rest } .illegal) := by
  rcases request_of_length hp with ⟨i, hi, _⟩ | ⟨_, hr⟩
  · exact absurd hi (hn i)
  · simp [step, hs, hr]

/-- Reserved opcodes and words with reserved bits set decode to no command. -/
theorem decode_ne_ok {t : Transaction} (hp : t.payload.length = plen t.cw)
    (h : (t.cw.toNat / 2 ^ 28 = 0 ∨ 10 ≤ t.cw.toNat / 2 ^ 28) ∨ legal t.cw = false) : ∀ i, decode t ≠ .ok i := by
  intro i
  rw [decode_of_length hp]
  simp only [decodeWord, opField_toNat]
  rcases h with h | h
  · generalize t.cw.toNat / 2 ^ 28 = q at *
    split <;> (first | omega | simp)
  · simp only [h]; split <;> simp

/-- A word with a reserved bit of its format set fails with E_ILLEGAL. -/
theorem reservedBits_fail (op : Nat) (mask : BitVec 32) (hop4 : op < 16) (hm : mask = reservedMask op) :
    ReservedBitsFail (BitVec.ofNat 4 op) mask := by
  intro s rest t hs hp hop hne
  refine step_of_not_decoded hs hp (decode_ne_ok hp (.inr ?_))
  have : (opField t.cw).toNat = op := by
    rw [show opField t.cw = BitVec.ofNat 4 op from hop]; simp; omega
  rw [legal, this, ← hm]; simpa using hne

/-- Every step that has a next state is one of these: idle, power-on, a command, or an illegal word. -/
theorem step_cases {s t : State} (h : step s = .next t) :
    (s.port = [] ∧ t = s) ∨
    (∃ rest, s.port = .powerOn :: rest ∧ t = State.powerOn s.lanesMax rest) ∨
    (∃ tr rest i, s.port = .transaction tr :: rest ∧ decode tr = .ok i ∧ exec i { s with port := rest } = .next t) ∨
    (∃ tr rest, s.port = .transaction tr :: rest ∧ t = State.raise { s with port := rest } .illegal) := by
  rcases hp : s.port with _ | ⟨m, rest⟩
  · left; rw [step_idle hp] at h; exact ⟨rfl, by simpa [eq_comm] using h⟩
  · right
    cases m with
    | powerOn => left; rw [step_powerOn hp] at h; exact ⟨rest, rfl, by simpa [eq_comm] using h⟩
    | earlyWord cw => simp [step, hp, request] at h
    | transaction tr =>
      right
      by_cases hl : tr.payload.length = plen tr.cw
      · rcases request_of_length hl with ⟨i, hi, hr⟩ | ⟨_, hr⟩
        · left; refine ⟨tr, rest, i, rfl, hi, ?_⟩; simpa [step, hp, hr] using h
        · right; refine ⟨tr, rest, rfl, ?_⟩; simpa [step, hp, hr, eq_comm] using h
      · simp [step, hp, request, decode, hl] at h

/-- The host's later moves and LANES_MAX are left alone by every command. -/
theorem exec_port_lanesMax {i : Instr} {s t : State} (h : exec i s = .next t) :
    t.port = s.port ∧ t.lanesMax = s.lanesMax := by
  cases i with
  | wrcfg reg p => rcases wrcfg_cases h with ⟨_, rfl⟩ | ⟨_, _, rfl⟩ <;> simp
  | rdcfg reg => rcases rdcfg_cases h with ⟨_, rfl⟩ | ⟨_, _, rfl⟩ <;> simp
  | init => rcases init_cases h with ⟨_, _, rfl⟩ | ⟨_, rfl⟩ <;> simp
  | key k => rcases key_cases h with ⟨_, _, rfl⟩ | ⟨_, rfl⟩ <;> simp
  | absorb k => rcases absorb_cases h with ⟨_, rfl⟩ | ⟨_, rfl⟩ <;> simp
  | final k => rcases final_cases h with ⟨_, _, rfl⟩ | ⟨_, rfl⟩ <;> simp
  | reset => rcases reset_cases h with ⟨_, rfl⟩ | ⟨_, rfl⟩ <;> simp
  | zeroize => rw [zeroize_cases h]; simp
  | rdstat => rw [rdstat_cases h]; simp

end Sys2Proof.Machine
end

