-- ==== Sys2Proof/Tests/Slice0.lean ====
section
/-! SUPPORT. Tests against values of spec/95_test_vectors.md and against words written out from the formats of
30_encoding.md, and one witness per obligation with hypotheses. -/

namespace Sys2Proof.Tests

open Sys2Proof Sys2Proof.Machine

/-! ### The states the tests start from -/

/-- A block with two lanes after power-on, with the host's moves to come. -/
def block (port : List HostMove) : State := State.powerOn 2 port

/-- The active parameters after `SETUP S`. -/
def actS : Act := { Act.zero with dl := 32, fanout := 1, depth := 1 }

/-- The active parameters after `SETUP SP, 2`. -/
def actSP : Act := { Act.zero with mode := .parallel, dl := 32, fanout := 2, depth := 1 }

/-- The sequential engine of variant S just started; FSM as INIT leaves it. -/
def startedS (key : List Byte) : State := engineStart key { block [] with fsm := .empty, act := actS }

/-- The parallel engine of variant S with P = 2 just started; FSM as INIT leaves it. -/
def startedSP (key : List Byte) : State := engineStart key { block [] with fsm := .empty, act := actSP }

/-- The sequential engine with resident bytes. -/
def buffering (bytes : List Byte) : State := { startedS [] with fsm := .buffering, buf := bytes }

/-- The parallel engine with resident bytes. -/
def bufferingP (bytes : List Byte) : State := { startedSP [] with fsm := .buffering, sb := bytes }

/-- "abc". -/
def abc : List Byte := [0x61, 0x62, 0x63]

/-- The response of an outcome. -/
def responseOf : Result → Option Response
  | .next t => t.resp
  | _ => none

/-- The STATUS word after an outcome. -/
def statusOf : Result → Option (BitVec 32)
  | .next t => some t.status
  | _ => none

/-! ### WellFormed: each check refuses an ill-formed term -/

theorem test_wellFormed_wrcfg : (Instr.wrcfg 8 (List.replicate 256 0)).wellFormed = false ∧
    (Instr.wrcfg 8 (List.replicate 255 0)).wellFormed = true := by decide +kernel

theorem test_wellFormed_key : (Instr.key (List.replicate 256 0)).wellFormed = false ∧
    (Instr.key (List.replicate 255 0)).wellFormed = true := by decide +kernel

theorem test_wellFormed_absorb : (Instr.absorb (List.replicate 65536 0)).wellFormed = false ∧
    (Instr.absorb (List.replicate 65535 0)).wellFormed = true := by
  simp only [Instr.wellFormed, List.length_replicate]; decide

/-! ### Decode: words written out bit by bit from 30_encoding.md R73–R78 -/

theorem test_decode_wrcfg : decode ⟨0b00010101000000000000000000001000, [8, 7, 6, 5, 4, 3, 2, 1]⟩ =
    .ok (.wrcfg 5 [8, 7, 6, 5, 4, 3, 2, 1]) := by decide

theorem test_decode_rdcfg : decode ⟨0b00101001000000000000000000000000, []⟩ = .ok (.rdcfg 9) := by decide

theorem test_decode_init : decode ⟨0b00110000000000000000000000000000, []⟩ = .ok .init ∧
    decode ⟨0b00110000000000000000000000000001, []⟩ = .error .reservedBits := by decide

theorem test_decode_key : decode ⟨0b01000000000000000000000000000001, [0xAB]⟩ = .ok (.key [0xAB]) ∧
    decode ⟨0b01000000000000000000000100000000, []⟩ = .error .reservedBits := by decide

theorem test_decode_absorb : decode ⟨0b01010000000000000000000000000010, [1, 2]⟩ = .ok (.absorb [1, 2]) ∧
    decode ⟨0b01010000000000010000000000000000, []⟩ = .error .reservedBits := by decide

theorem test_decode_final : decode ⟨0b01100000000000000000000011111111, []⟩ = .ok (.final 255) := by decide

theorem test_decode_reset : decode ⟨0b01110000000000000000000000000000, []⟩ = .ok .reset := by decide

theorem test_decode_zeroize : decode ⟨0b10000000000000000000000000000000, []⟩ = .ok .zeroize := by decide

theorem test_decode_rdstat : decode ⟨0b10010000000000000000000000000000, []⟩ = .ok .rdstat ∧
    decode ⟨0b10100000000000000000000000000000, []⟩ = .error .reservedOpcode ∧
    decode ⟨0, []⟩ = .error .reservedOpcode := by decide

/-- 95_test_vectors.md §7.1, steps 5 to 8, as one byte stream (30_encoding.md R84). -/
theorem test_decode_stream : readProgram [0, 0, 0, 0x30, 3, 0, 0, 0x50, 0x61, 0x62, 0x63, 0x20, 0, 0, 0x60] =
    .ok [⟨0x30000000, []⟩, ⟨0x50000003, abc⟩, ⟨0x60000020, []⟩] := by decide

/-- The opcode table's numbering: the payload counts on from bit 32, missing bytes are zero. -/
theorem test_decode_table : decodeTableWord 32 0x11000001 = some (.wrcfg 1 [0]) ∧
    decodeTableWord 40 0x2011000001 = some (.wrcfg 1 [0x20]) ∧ decodeTableWord 32 0x30000000 = some .init := by
  decide

/-! ### Assembler lines of 95_test_vectors.md §7 -/

theorem test_assemble_lines : assembleLine "WRCFG LEAF_LEN, 16909060".toList = some [.wrcfg 4 [4, 3, 2, 1]] ∧
    assembleLine "rdcfg 12 ; a comment".toList = some [.rdcfg 12] ∧
    assembleLine "ABSORB x\"6B6579\"".toList = some [.absorb [0x6B, 0x65, 0x79]] ∧
    assembleLine "SETUP SP, 2".toList = some [.wrcfg 0 [2], .wrcfg 1 [32], .wrcfg 2 [2], .init] ∧
    assembleLine "MAC \"key\", \"abc\"".toList = some [.key [0x6B, 0x65, 0x79], .absorb abc, .final 255, .reset] ∧
    assembleLine "WRCFG DL, 256".toList = none := by decide

/-! ### The compression core and the nodes -/

/-- 95_test_vectors.md §3, variant S: the first G of BLAKE2s("abc"). -/
theorem test_mixG_s : mixG (w := 32) (Variant.rotations .s) 0x6B08E647 0x510E527F 0x6A09E667 0x510E527C 0x00636261 0 =
    (0xD6C0C1DF, 0x7F898693, 0xDE856F07, 0xAB1F9B2C) := by decide +kernel

/-- 95_test_vectors.md §3, variant B: all ones. -/
theorem test_mixG_b : mixG (w := 64) (Variant.rotations .b) (BitVec.allOnes 64) (BitVec.allOnes 64) (BitVec.allOnes 64)
    (BitVec.allOnes 64) (BitVec.allOnes 64) (BitVec.allOnes 64) =
    (0x000000FFFFFFFDFC, 0xFBF801FBFE0403FD, 0xFDFC000200FDFFFE, 0xFDFC000000FDFFFF) := by decide +kernel

/-- 95_test_vectors.md §4.3: variant S, all-zero inputs. -/
theorem test_compress_s : (compress .s (Vector.replicate 8 0) 0 0 0 0 (zeros 64)).toList.map (fun x => x.toNat) =
    [0x6E26B02A, 0xA6A7800D, 0x51BB7B89, 0x1F01DB51, 0x077B942D, 0x23E6122A, 0xA37D48E1, 0x6E00C75E] := by
  decide +kernel

/-- 95_test_vectors.md §4.5: variant B, all-zero inputs. -/
theorem test_compress_b : (compress .b (Vector.replicate 8 0) 0 0 0 0 (zeros 128)).toList.map (fun x => x.toNat) =
    [0x4D3F506019115AC7, 0x2FA2733D57DC0AB8, 0xD1E1C1129F845613, 0x65061DC9C8E902AC, 0x8A5C682F464AE8CE,
     0x3D9EB972A409D768, 0x61D9C25D696AE005, 0xEE2E6936BDA0EBC9] := by decide +kernel

/-- 95_test_vectors.md §5.1: variant S with every tree field. -/
theorem test_paramBlock_s : paramBlock .s ⟨20, 7, 3, 4, 77, 140737488355333, 2, 9, zeros 8, zeros 8⟩ =
    [0x14, 0x07, 0x03, 0x04, 0x4D, 0, 0, 0, 5, 0, 0, 0, 0, 0x80, 2, 9] ++ zeros 16 := by decide +kernel

/-- 95_test_vectors.md §5.1: variant B with a 64-bit node offset, salt and personalization. -/
theorem test_nodeInit_b : (nodeInit .b (paramBlock .b ⟨64, 0, 1, 1, 0, 72623859790382856, 0, 0,
      bytesLE 16 0x100F0E0D0C0B0A090807060504030201, bytesLE 16 0x302F2E2D2C2B2A292827262524232221⟩)).h.toList =
    [0x6A09E667F2BDC948, 0xBA65AD8181CCA033, 0x3C6EF372FE94F82B, 0xA54FF53A5F1D36F1, 0x5909547AA9E580D0,
     0x8B0A668127356616, 0x37A4FF8EDF629F4A, 0x6BCFE3343F550B50] := by decide +kernel

/-- 95_test_vectors.md §5.2: the carry and the wrap of the counter. -/
theorem test_ctrAdd :
    (let t (v : Variant) (t0 t1 : Cell64) (n : Nat) : Cell64 × Cell64 :=
      let c := ctrAdd v n { Node.zero with t0 := t0, t1 := t1 }
      (c.t0, c.t1)
    [t .s 0xFFFFFFC0 0 64, t .s 0xFFFFFFF5 0xFFFFFFFF 64, t .b 0xFFFFFFFFFFFFFFFF 0 128,
     t .b 0xFFFFFFFFFFFFFFFF 0xFFFFFFFFFFFFFFFF 3]) = [(0, 1), (0x35, 0), (0x7F, 1), (2, 0)] := by decide +kernel

/-! ### One step of each command -/

/-- 95_test_vectors.md §7.4. -/
theorem test_wrcfg_leaf_len : statusOf (exec (.wrcfg 4 [4, 3, 2, 1]) (block [])) = some 0 ∧
    (match exec (.wrcfg 4 [4, 3, 2, 1]) (block []) with | .next t => t.cfg.leafLen | _ => 0) = 16909060 := by
  decide

/-- 95_test_vectors.md §7.2: CTRL bit 3. -/
theorem test_wrcfg_reserved_ctrl_bit : responseOf (exec (.wrcfg 0 [8]) (block [])) = some ⟨.illegal, []⟩ ∧
    statusOf (exec (.wrcfg 0 [8]) (block [])) = some 0x00000140 := by decide

/-- 95_test_vectors.md §7.1, steps 2 and 4. -/
theorem test_rdcfg_power_on : responseOf (exec (.rdcfg 1) (block [])) = some ⟨.ok, [0x20]⟩ ∧
    responseOf (exec (.rdcfg 8) (block [])) = some ⟨.ok, []⟩ := by decide

/-- 95_test_vectors.md §7.1, step 5. -/
theorem test_init : responseOf (exec .init (block [])) = some ⟨.ok, []⟩ ∧
    statusOf (exec .init (block [])) = some 0x00000001 := by decide

/-- 95_test_vectors.md §7.3: E_DIGEST_LEN before E_LANES. -/
theorem test_init_priority : responseOf (exec .init { block [] with cfg := { Cfg.powerOn with ctrl := 2, dl := 0, fanout := 3 } }) =
    some ⟨.digestLen, []⟩ := by decide

/-- 95_test_vectors.md §5.3: STATUS after KEY "key". -/
theorem test_key : statusOf (exec (.key [0x6B, 0x65, 0x79]) (startedS [])) = some 0x00400022 := by decide

/-- 95_test_vectors.md §7.2: KL = 33 for variant S. -/
theorem test_key_too_long : statusOf (exec (.key (zeros 33)) (startedS [])) = some 0x00000441 := by decide

/-- 95_test_vectors.md §7.1, step 6. -/
theorem test_absorb : statusOf (exec (.absorb abc) (startedS [])) = some 0x00030002 := by decide

/-- 95_test_vectors.md §5.3, n = 65: the 65th byte compresses the full buffer. -/
theorem test_absorb_full_buffer :
    (match exec (.absorb [64]) (buffering (zeros 64)) with
      | .next t => (t.node.t0, t.node.t1, t.buf, t.status)
      | _ => (0, 0, [], 0)) = (64, 0, [64], 0x00010002) := by decide

/-- 95_test_vectors.md §2.1: BLAKE2s("abc"). -/
theorem test_final_sequential : responseOf (exec (.final 32) (buffering abc)) = some ⟨.ok,
    [0x50, 0x8c, 0x5e, 0x8c, 0x32, 0x7c, 0x14, 0xe2, 0xe1, 0xa7, 0x2b, 0xa3, 0x4e, 0xeb, 0x45, 0x2f,
     0x37, 0x45, 0x8b, 0x20, 0x9e, 0xd6, 0x3a, 0x29, 0x4d, 0x99, 0x9b, 0x4c, 0x86, 0x67, 0x59, 0x82]⟩ := by
  decide +kernel

/-- 95_test_vectors.md §2.2, P3: parallel, P = 2, "abc". -/
theorem test_final_parallel : responseOf (exec (.final 32) (bufferingP abc)) = some ⟨.ok,
    [0x3e, 0x6f, 0xa8, 0x65, 0x5b, 0xfc, 0x06, 0xd3, 0x2e, 0xfe, 0xfa, 0xb8, 0x74, 0x3e, 0x24, 0xd9,
     0x70, 0x92, 0x36, 0xc9, 0x52, 0x79, 0x49, 0xed, 0xe3, 0x28, 0x4f, 0xee, 0x6c, 0x27, 0xb9, 0x38]⟩ := by
  decide +kernel

/-- 95_test_vectors.md §7.2: RESET at power-on. -/
theorem test_reset_unconfigured : statusOf (exec .reset (block [])) = some 0x00000240 := by decide

/-- 95_test_vectors.md §7.1, step 11: RESET after a failure keeps ERR_STICKY. -/
theorem test_reset : statusOf (exec .reset { buffering abc with fsm := .finalized, errCode := .badState, errSticky := true }) =
    some 0x00000041 := by decide

/-- 95_test_vectors.md §7.1, step 20. -/
theorem test_zeroize : statusOf (exec .zeroize { buffering abc with errSticky := true }) = some 0 := by decide

/-- 95_test_vectors.md §7.1, step 7. -/
theorem test_rdstat : responseOf (exec .rdstat (buffering abc)) = some ⟨.ok, [0x02, 0x00, 0x03, 0x00]⟩ := by decide

/-- 95_test_vectors.md §7.2: a reserved opcode, through a step. -/
theorem test_step_reserved_opcode : statusOf (step (State.withFetchWord (block []) 32 0xA0000000)) = some 0x00000140 := by
  decide

/-- A word placed for the next step runs as the first command after reset. -/
theorem test_step_withFetchWord :
    statusOf (step (State.withFetchWord State.reset 32 0x30000000)) = some 0x00000001 := by decide

/-! ### Witnesses: the hypotheses of the obligations are met, each clause at boundary values -/

theorem witness_StepRunsTheDecodedCommand :
    (block [.transaction ⟨0x30000000, []⟩]).port = .transaction ⟨0x30000000, []⟩ :: [] ∧
    decode ⟨0x30000000, []⟩ = .ok .init := by decide

theorem witness_StepOfTheOtherHostMoves : (block []).port = [] ∧ (block [.powerOn]).port = .powerOn :: [] ∧
    ([] : List Byte).length ≠ plen 0x50000001 ∧ (block [.earlyWord 0]).port = .earlyWord 0 :: [] := by decide

theorem witness_DutifulHostIsNeverRefused : (block [.transaction ⟨0x50000001, [0]⟩, .powerOn]).dutiful := by
  intro m hm
  simp only [block, State.powerOn_port, List.mem_cons, List.not_mem_nil, or_false] at hm
  rcases hm with rfl | rfl
  · show ([0] : List Byte).length = plen 0x50000001; decide
  · trivial

theorem witness_DecodeInvertsEncode : (Instr.wrcfg 15 (List.replicate 255 0)).WF ∧ (Instr.key []).WF ∧
    (Instr.absorb (List.replicate 65535 0)).WF ∧ (Instr.final 255).WF := by
  refine ⟨by decide +kernel, rfl, test_wellFormed_absorb.2, rfl⟩

theorem witness_EncodeInvertsDecode : decode ⟨0x6000001F, []⟩ = .ok (.final 31) := by decide

/-- A word of a row, a word of no row by its opcode, and one by a reserved bit. -/
theorem witness_OpcodeRowsDecideTheMeaning : ([] : List Byte).length = plen 0x30000000 ∧
    ([] : List Byte).length = plen 0xF0000000 ∧ ([] : List Byte).length = plen 0x30000001 := by decide

/-- The payload length and the clause of each case of 30_encoding.md R80, at its boundary words. -/
theorem witness_IllegalEncodings_opcodes : [0x00000000, 0xA0000000, 0xFFFFFFFF#32].all (fun cw =>
    plen cw = 0 ∧ ((cw.extractLsb' 28 4).toNat = 0 ∨ 10 ≤ (cw.extractLsb' 28 4).toNat)) = true := by decide

theorem witness_IllegalEncodings_reserved : [0x10000100, 0x10800000#32].all (fun cw => plen cw = 0 ∧ cw.extractLsb' 28 4 = 1 ∧ cw.extractLsb' 8 16 ≠ 0) = true ∧
    [0x20000001, 0x20800000#32].all (fun cw => plen cw = 0 ∧ cw.extractLsb' 28 4 = 2 ∧ cw.extractLsb' 0 24 ≠ 0) = true ∧
    [0x30000001, 0x78000000, 0x80000001, 0x98000000#32].all (fun cw => plen cw = 0 ∧ cw.extractLsb' 0 28 ≠ 0) = true ∧
    [0x40000100, 0x68000000#32].all (fun cw => plen cw = 0 ∧ cw.extractLsb' 8 20 ≠ 0) = true ∧
    [0x50010000, 0x58000000#32].all (fun cw => plen cw = 0 ∧ cw.extractLsb' 16 12 ≠ 0) = true := by decide

theorem witness_IllegalEncodings_operands :
    [0x1A000000, 0x2F000000#32].all (fun cw => plen cw = 0 ∧ 10 ≤ (cw.extractLsb' 24 4).toNat) = true ∧
    (zeros 2).length = plen 0x11000002 ∧ (zeros 3).length = plen 0x14000003 ∧ (zeros 9).length = plen 0x15000009 ∧
    (zeros 17).length = plen 0x18000011 ∧ (zeros 255).length = plen 0x190000FF ∧
    [(8 : Byte)].length = plen 0x10000001 ∧ (8 : Byte).extractLsb' 3 5 ≠ 0 := by decide +kernel

theorem witness_ByteStreamReadsBack :
    ∀ t ∈ [(⟨0x30000000, []⟩ : Transaction), ⟨0x50000003, abc⟩], t.payload.length = plen t.cw := by decide

theorem witness_AssembledCommandsAreEncodable : assembleLine "ABSORB \"abc\"".toList = some [.absorb abc] := by
  decide

theorem witness_FailedCommand : (∃ t r, exec .reset (block []) = .next t ∧ t.resp = some r ∧ r.rc ≠ .ok) ∧
    ∃ t r, step (block [.transaction ⟨0, []⟩]) = .next t ∧ t.resp = some r ∧ r.rc ≠ .ok :=
  ⟨⟨_, _, rfl, rfl, by decide⟩, ⟨_, _, rfl, rfl, by decide⟩⟩

theorem witness_SuccessfulCommand : (∃ t, exec .zeroize (block []) = .next t ∧ t.resp = some ⟨.ok, []⟩) ∧
    (∃ t, exec (.rdcfg 1) (block []) = .next t ∧ t.resp = some ⟨.ok, [32]⟩) ∧
    (∃ t, step (block [.powerOn]) = .next t) ∧
    ∃ t, step { block [.transaction ⟨0x80000000, []⟩] with errSticky := true } = .next t ∧ t.errSticky = false :=
  ⟨⟨_, rfl, rfl⟩, ⟨_, rfl, rfl⟩, ⟨_, rfl⟩, ⟨_, rfl, rfl⟩⟩

theorem witness_OutputOfEveryResponse : (startedS []).act.dl.toNat ≤ (startedS []).act.variant.digestBytes := by
  decide

/-- A dash and a success. -/
theorem witness_FsmFollowsTheTransitionTable :
    (∃ t r, exec (.absorb []) (block []) = .next t ∧ t.resp = some r ∧ r.rc = .badState) ∧
    ∃ t r, exec (.absorb []) (startedS []) = .next t ∧ t.resp = some r ∧ r.rc = .ok :=
  ⟨⟨_, _, rfl, rfl, rfl⟩, ⟨_, _, rfl, rfl, rfl⟩⟩

theorem witness_CommandsWriteOnlyTheirElements : (startedS []).act.mode = .sequential ∧
    (startedSP []).act.mode = .parallel ∧ ∃ t, exec (.absorb []) (startedS []) = .next t :=
  ⟨rfl, rfl, ⟨_, rfl⟩⟩

/-- Each check of INIT as the first that fails: dl 0 and 33; fan-out 0, 3 and above LANES_MAX; salt 7; personalization
9; offset 2^48. -/
theorem witness_FirstFailing_init :
    let c := Cfg.powerOn
    [0, 33#8].all (fun d => d = 0 ∨ (Cfg.variant c).digestBytes < d.toNat) = true ∧
    [0, 3, 4#8].all (fun p => p.toNat % 2 = 1 ∨ p.toNat < 2 ∨ (block []).lanesMax < p.toNat) = true ∧
    ({ c with ctrl := 2 } : Cfg).mode = .parallel ∧ ¬ (c.dl = 0 ∨ c.variant.digestBytes < c.dl.toNat) ∧
    (7 ≠ 0 ∧ 7 ≠ c.variant.saltBytes) ∧ (9 ≠ 0 ∧ 9 ≠ c.variant.saltBytes) ∧
    c.mode = .sequential ∧ c.variant = .s ∧ c.salt.len = 0 ∧ c.personal.len = 0 ∧
    2 ^ 48 ≤ (0x1000000000000 : BitVec 64).toNat := by decide

/-- The checks of KEY, ABSORB, FINAL and RESET, and a word that decodes to nothing. -/
theorem witness_FirstFailing_others : (block []).fsm = .unconfigured ∧ (startedS []).fsm ≠ .unconfigured ∧
    (startedS []).act.variant.keyBytes < (zeros 33).length ∧
    1 ≤ (zeros 32).length ∧ (zeros 32).length ≤ actS.variant.keyBytes ∧
    actS.variant.blockBytes < (zeros 32).length + 16 + 17 ∧
    (0 : BitVec 8).toNat < (startedS []).act.dl.toNat ∧ (31 : BitVec 8).toNat < (startedS []).act.dl.toNat ∧
    decode ⟨0x40000100, []⟩ = .error .reservedBits := by decide

/-- A word with a reserved bit for each opcode, with the payload it asks for. -/
theorem witness_ReservedBitsFail :
    [(0x1#4, 0x00FFFF00#32, 0x10000100#32), (0x2, 0x00FFFFFF, 0x20000001), (0x3, 0x0FFFFFFF, 0x38000000),
        (0x4, 0x0FFFFF00, 0x48000000), (0x5, 0x0FFF0000, 0x50010000), (0x6, 0x0FFFFF00, 0x60000100),
        (0x7, 0x0FFFFFFF, 0x70000001), (0x8, 0x0FFFFFFF, 0x80000001), (0x9, 0x0FFFFFFF, 0x98000000)].all (fun x =>
      plen x.2.2 = 0 ∧ x.2.2.extractLsb' 28 4 = x.1 ∧ x.2.2 &&& x.2.1 ≠ 0) = true := by decide

/-- Registers 10 and 15; lengths one off; 17 bytes; CTRL 7 and 8; 0 and 16 bytes. -/
theorem witness_WrcfgWritesTheNamedRegister : 10 ≤ (10 : BitVec 4).toNat ∧ 10 ≤ (15 : BitVec 4).toNat ∧
    (7 : BitVec 4).toNat ≤ 7 ∧ (zeros 2).length ≠ 1 ∧ (zeros 3).length ≠ 4 ∧ (zeros 9).length ≠ 8 ∧
    16 < (zeros 17).length ∧ 8 ≤ (8 : Byte).toNat ∧ (7 : Byte).toNat < 8 ∧ (zeros 16).length ≤ 16 ∧
    (zeros 0).length ≤ 16 := by decide

theorem witness_ReadBack : (∃ t, exec (.wrcfg 8 (zeros 16)) (block []) = .next t ∧ t.resp = some ⟨.ok, []⟩) ∧
    ∃ t, exec (.wrcfg 0 [7]) (block []) = .next t ∧ t.resp = some ⟨.ok, []⟩ :=
  ⟨⟨_, rfl, rfl⟩, ⟨_, rfl, rfl⟩⟩

theorem actS_legal : actS.Legal 2 :=
  ⟨by decide, by decide, ⟨ByteStore.zero_legal, .inl rfl⟩, ⟨ByteStore.zero_legal, .inl rfl⟩,
    fun h => absurd h (by decide), fun _ _ => by decide⟩

theorem actSP_legal : actSP.Legal 2 :=
  ⟨by decide, by decide, ⟨ByteStore.zero_legal, .inl rfl⟩, ⟨ByteStore.zero_legal, .inl rfl⟩, fun _ => by decide,
    fun h => absurd h (by decide)⟩

theorem block_inv (port : List HostMove) : Inv (block port) := powerOn_inv 2 port (by decide)

/-- The invariant holds in a running state of each mode, keyed and unkeyed. -/
theorem witness_Inv : Inv (block []) ∧ (∃ s : State, Inv s ∧ s.fsm = .empty ∧ s.act.mode = .sequential) ∧
    ∃ s : State, Inv s ∧ s.fsm = .buffering ∧ s.act.mode = .parallel ∧ s.act.kl = 3 := by
  have hl : LanesMaxLegal 2 := by decide
  have hc : Cfg.powerOn.Legal := (block_inv []).cfg
  refine ⟨block_inv [], ⟨_, start_inv [] { block [] with act := actS } .empty [] hl hc actS_legal (by decide)
    (.inl ⟨rfl, rfl⟩), rfl, rfl⟩, ⟨_, start_inv abc { block [] with act := actSP } .buffering [] hl hc actSP_legal
    (by decide) (.inr ⟨rfl, by decide⟩), rfl, rfl, rfl⟩⟩

/-- INIT's conditions at their boundaries: dl 0 and 33 fail; dl 1 and 32, fan-out 2 = LANES_MAX, offset 2^48 − 1,
salt 8 pass. -/
theorem witness_InitActivatesTheConfiguration : (0 : BitVec 8) = 0 ∧ Variant.digestBytes .s < (33 : BitVec 8).toNat ∧
    [1, 32#8].all (fun d => 1 ≤ d.toNat ∧ d.toNat ≤ Variant.digestBytes .s) = true ∧
    ((2 : BitVec 8).toNat % 2 = 0 ∧ 2 ≤ (2 : BitVec 8).toNat ∧ (2 : BitVec 8).toNat ≤ (block []).lanesMax) ∧
    8 = Variant.saltBytes .s ∧ (0xFFFFFFFFFFFF : BitVec 64).toNat < 2 ^ 48 := by decide

theorem witness_SequentialStart : actS.mode = .sequential ∧ (zeros 0).length ≤ actS.variant.keyBytes ∧
    (zeros 32).length ≤ actS.variant.keyBytes := by decide

/-- Lane 1 is below P = 2; lane 2 of a block with 4 lanes is not. -/
theorem witness_ParallelStart : actSP.mode = .parallel ∧ actSP.fanout.toNat ≤ 4 ∧
    (zeros 32).length ≤ actSP.variant.keyBytes ∧ 1 < actSP.fanout.toNat ∧ actSP.fanout.toNat ≤ 2 ∧ 2 < 4 := by
  decide

/-- KL 0 and 33 fail, 1 and 32 pass; a store length that no INIT admits meets the clause of E_KEY_BLOCK. -/
theorem witness_KeyRestartsTheEngineKeyed : (startedS []).fsm ≠ .unconfigured ∧ (zeros 0).length = 0 ∧
    Variant.keyBytes .s < (zeros 33).length ∧ (zeros 32).length ≤ Variant.keyBytes .s ∧
    Variant.blockBytes .s < (zeros 32).length + 16 + 17 ∧
    (zeros 32).length + 8 + 8 ≤ Variant.blockBytes .s := by decide

theorem witness_ResetRestartsTheEngineUnkeyed : (block []).fsm = .unconfigured ∧ (startedS abc).fsm ≠ .unconfigured := by
  decide

/-- A full buffer, and one a byte short of it. -/
theorem witness_AbsorbOneByteSequential : (buffering (zeros 64)).fsm = .buffering ∧
    (buffering (zeros 64)).act.mode = .sequential ∧
    (buffering (zeros 64)).buf.length = (buffering (zeros 64)).act.variant.blockBytes ∧
    (buffering (zeros 63)).buf.length ≠ (buffering (zeros 63)).act.variant.blockBytes := by decide

/-- The byte that fills SB to 2·P·BB = 256 bytes, and the one before it. -/
theorem witness_AbsorbOneByteParallel : (bufferingP (zeros 255)).fsm = .buffering ∧
    (bufferingP (zeros 255)).act.mode = .parallel ∧
    ((bufferingP (zeros 255)).sb ++ [0]).length = 2 * actSP.fanout.toNat * actSP.variant.blockBytes ∧
    ((bufferingP (zeros 254)).sb ++ [0]).length ≠ 2 * actSP.fanout.toNat * actSP.variant.blockBytes := by
  decide +kernel

theorem witness_AbsorbCompletesWhileRunning : (block []).fsm = .unconfigured ∧ (startedS []).fsm = .empty ∧
    (buffering abc).fsm = .buffering ∧ abc ≠ [] := by decide

theorem witness_AbsorbSplitsAnywhere : ∃ t, exec (.absorb abc) (block []) = .next t := ⟨_, rfl⟩

/-- A full buffer in sequential mode; in parallel mode SB one byte short of its 256, so that a batch runs. -/
theorem witness_LastBlockStaysResident : (buffering (zeros 64)).fsm = .buffering ∧
    (buffering (zeros 64)).act.mode = .sequential ∧ (buffering (zeros 64)).buf.length ≤ actS.variant.blockBytes ∧
    abc ≠ [] ∧ (∃ t, exec (.absorb abc) (buffering (zeros 64)) = .next t) ∧
    (bufferingP (zeros 255)).fsm = .buffering ∧ (bufferingP (zeros 255)).act.mode = .parallel ∧
    (bufferingP (zeros 255)).sb.length < 2 * actSP.fanout.toNat * actSP.variant.blockBytes ∧
    (∃ n, (bufferingP (zeros 255)).lanes[1]? = some n) ∧ 1 < actSP.fanout.toNat ∧
    ∃ t, exec (.absorb abc) (bufferingP (zeros 255)) = .next t :=
  ⟨rfl, rfl, by decide, by decide, (exec_total _ _).imp fun _ h => h.choose_spec.1, rfl, rfl, by decide +kernel,
    ⟨_, rfl⟩, by decide, (exec_total _ _).imp fun _ h => h.choose_spec.1⟩

/-- Two engines that differ in lane 1 and its blocks, seen from lane 0. -/
theorem witness_LanesDoNotInterfere :
    let e : ParEngine := ⟨[Node.zero, Node.zero], zeros 128⟩
    let e' : ParEngine := ⟨[Node.zero, { Node.zero with t0 := 64 }], zeros 64 ++ List.replicate 64 1⟩
    e ≠ e' ∧ e.lanes[0]? = e'.lanes[0]? ∧ e.sb.length = e'.sb.length ∧ blockAt .s e.sb 0 = blockAt .s e'.sb 0 ∧
    blockAt .s e.sb (0 + 2) = blockAt .s e'.sb (0 + 2) := by decide +kernel

theorem witness_FinalOutputsTheDigest : (startedS []).fsm = .empty ∧ (startedS []).act.mode = .sequential ∧
    (startedS []).act.dl.toNat ≤ (32 : BitVec 8).toNat ∧ (bufferingP abc).fsm = .buffering ∧
    (bufferingP abc).act.mode = .parallel ∧ (bufferingP abc).lanes[1]? = some (bufferingP abc).lanes[1] ∧
    (31 : BitVec 8).toNat < (startedS []).act.dl.toNat := by decide

/-- INIT of the default configuration, and KEY, start the sequential engine. -/
theorem witness_SequentialDigestIsTheClosedForm :
    (∃ s0, exec .init (block []) = .next s0 ∧ s0.resp = some ⟨.ok, []⟩ ∧ s0.act.mode = .sequential ∧
      s0.act.dl.toNat ≤ (255 : BitVec 8).toNat) ∧
    ∃ s0, exec (.key abc) (startedS []) = .next s0 ∧ s0.resp = some ⟨.ok, []⟩ ∧ s0.act.mode = .sequential ∧
      s0.act.dl.toNat ≤ (255 : BitVec 8).toNat :=
  ⟨⟨_, rfl, rfl, rfl, by decide⟩, ⟨_, rfl, rfl, rfl, by decide⟩⟩

/-- RESET, KEY, and INIT of a configuration with two lanes, start the parallel engine. -/
theorem witness_ParallelDigestIsTheClosedForm :
    (∃ s0, exec .reset (startedSP abc) = .next s0 ∧ s0.resp = some ⟨.ok, []⟩ ∧ s0.act.mode = .parallel ∧
      s0.act.dl.toNat ≤ (255 : BitVec 8).toNat) ∧
    (∃ s0, exec (.key abc) (startedSP []) = .next s0 ∧ s0.resp = some ⟨.ok, []⟩ ∧ s0.act.mode = .parallel ∧
      s0.act.dl.toNat ≤ (255 : BitVec 8).toNat) ∧
    ∃ s0, exec .init { block [] with cfg := { Cfg.powerOn with ctrl := 2, fanout := 2 } } = .next s0 ∧
      s0.resp = some ⟨.ok, []⟩ ∧ s0.act.mode = .parallel ∧ s0.act.dl.toNat ≤ (255 : BitVec 8).toNat :=
  ⟨⟨_, rfl, rfl, rfl, by decide⟩, ⟨_, rfl, rfl, rfl, by decide⟩, ⟨_, rfl, rfl, rfl, by decide⟩⟩

theorem witness_ParameterBlockLayout : (zeros 16).length = 16 ∧ (zeros 8).length = 8 := by decide

theorem witness_NodeInitXorsTheParameterWords : ((zeros 32).drop (7 * 4)).take 4 = [0, 0, 0, 0] ∧
    ((zeros 64).drop (7 * 8)).take 8 = [0, 0, 0, 0, 0, 0, 0, 0] := by decide

/-- The last word of a block of each variant. -/
theorem witness_MessageWordsAreLittleEndian : ((zeros 64).drop (15 * 4)).take 4 = [0, 0, 0, 0] ∧
    ((zeros 128).drop (15 * 8)).take 8 = [0, 0, 0, 0, 0, 0, 0, 0] := by decide +kernel

theorem witness_NodeCompress : (zeros 0).length ≤ Variant.blockBytes .s ∧ (zeros 128).length ≤ Variant.blockBytes .b := by
  decide +kernel

theorem witness_DisjointApplicationsCommute : [(0 : Fin 16), 4, 8, 12, 1, 5, 9, 13].Nodup := by decide

/-- A step of each kind from a state with the invariant: a command, a power-on, an illegal word. -/
theorem witness_StepKeepsTheInvariant :
    ∀ port ∈ [[HostMove.transaction ⟨0x30000000, []⟩], [.powerOn], [.transaction ⟨0, []⟩]],
      Inv (block port) ∧ ∃ t, step (block port) = .next t := by
  intro port hp
  simp only [List.mem_cons, List.not_mem_nil, or_false] at hp
  rcases hp with rfl | rfl | rfl
  · exact ⟨block_inv _, ⟨_, rfl⟩⟩
  · exact ⟨block_inv _, ⟨_, rfl⟩⟩
  · exact ⟨block_inv _, ⟨_, rfl⟩⟩

theorem witness_StepKeepsFlagsAndWords : (∀ n, n = (block []).node ∨ n ∈ (block []).lanes →
      n.FlagsLegal (block []).act.variant ∧ ((block []).fsm ≠ .finalized → n.f0 = 0 ∧ n.f1 = 0)) ∧
    (block []).node.Fits (block []).act.variant ∧ (∀ n ∈ (block []).lanes, n.Fits (block []).act.variant) ∧
    ∃ t, step (block []) = .next t := by
  refine ⟨?_, (block_inv []).nodeFits, (block_inv []).lanesFit, ⟨_, rfl⟩⟩
  rintro n (rfl | hn)
  · exact ⟨(block_inv []).nodeFlags, fun _ => ⟨rfl, rfl⟩⟩
  · exact ⟨(block_inv []).laneFlags n hn, fun h => ((block_inv []).unflagged h).2 n hn⟩

theorem witness_Staging : (∃ t, exec (.wrcfg 1 [16]) (startedS []) = .next t) ∧
    (∃ t, exec .reset (startedS abc) = .next t) ∧
    ∃ t, exec .init (block []) = .next t ∧ t.resp = some ⟨.ok, []⟩ :=
  ⟨⟨_, rfl⟩, ⟨_, rfl⟩, ⟨_, rfl, rfl⟩⟩

/-- Two configured states that differ in key and message. -/
theorem witness_ResetForgetsKeyAndMessage : (startedS abc).fsm ≠ .unconfigured ∧ (buffering [1]).fsm ≠ .unconfigured ∧
    (startedS abc).lanesMax = (buffering [1]).lanesMax ∧
    { (startedS abc).act with kl := 0 } = { (buffering [1]).act with kl := 0 } ∧
    (startedS abc).buf ≠ (buffering [1]).buf := by decide

theorem witness_FinalizedNodesAreKept : ∃ t, exec (.absorb abc) { startedS [] with fsm := .finalized } = .next t :=
  ⟨_, rfl⟩

theorem witness_KeyBlockErrorIsUnreachable : ∃ t r, Inv (block []) ∧ exec (.key abc) (block []) = .next t ∧
    t.resp = some r :=
  ⟨_, _, block_inv [], rfl, rfl⟩

end Sys2Proof.Tests
end

section
/-! PROOFS. What the checks of INIT and KEY admit, what a step does to the nodes and to the invariant, the fields of
STATUS, and the engine elements that the other mode leaves alone. -/

namespace Sys2Proof.Machine

/-! What the checks admit -/

theorem laneCountOk_iff {lanesMax p : Nat} : laneCountOk lanesMax p = true ↔ p % 2 = 0 ∧ 2 ≤ p ∧ p ≤ lanesMax := by
  simp [laneCountOk, and_assoc]

theorem saltLenOk_iff {v : Variant} {len : Nat} : saltLenOk v len = true ↔ len = 0 ∨ len = v.saltBytes := by
  simp [saltLenOk]

/-- INIT succeeds exactly on these staged values (45_commands.md R205). -/
theorem initCheck_eq_none_iff {s : State} : initCheck s = none ↔
    (1 ≤ s.cfg.dl.toNat ∧ s.cfg.dl.toNat ≤ s.cfg.variant.digestBytes) ∧
    (s.cfg.mode = .parallel → laneCountOk s.lanesMax s.cfg.fanout.toNat = true) ∧
    saltLenOk s.cfg.variant s.cfg.salt.len = true ∧ saltLenOk s.cfg.variant s.cfg.personal.len = true ∧
    (s.cfg.mode = .sequential → s.cfg.variant = .s → s.cfg.nodeOffset.toNat < 2 ^ 48) := by
  simp only [initCheck]
  split_ifs <;> simp_all

/-- A key that KEY accepts has 1 to KK bytes, and the engine is configured (45_commands.md R206). -/
theorem keyCheck_none {s : State} {n : Nat} (h : keyCheck s n = none) :
    s.fsm ≠ .unconfigured ∧ 1 ≤ n ∧ n ≤ s.act.variant.keyBytes := by
  simp only [keyCheck] at h
  split_ifs at h with hu hk
  exact ⟨hu, hk⟩

/-- What INIT activates is legal. -/
theorem toAct_legal {s : State} (hc : s.cfg.Legal) (h : initCheck s = none) : s.cfg.toAct.Legal s.lanesMax := by
  obtain ⟨hdl, hlanes, hsalt, hpersonal, hoffset⟩ := initCheck_eq_none_iff.1 h
  exact {
    dl := hdl
    kl := Nat.zero_le _
    salt := ⟨hc.salt, saltLenOk_iff.1 hsalt⟩
    personal := ⟨hc.personal, saltLenOk_iff.1 hpersonal⟩
    lanes := fun hm => laneCountOk_iff.1 (hlanes hm)
    offset := hoffset }

/-- INIT where every check passes. -/
theorem init_of_check {s : State} (h : initCheck s = none) : exec .init s =
    .next (State.respond { engineStart [] { s with act := s.cfg.toAct } with fsm := .empty, errCode := .ok } []) := by
  simp only [exec, execInit, h, transact_none]

/-- The power-on configuration passes every check of INIT. -/
theorem powerOn_initCheck (lanesMax : Nat) (port : List HostMove) : initCheck (State.powerOn lanesMax port) = none := by
  have hseq : Cfg.powerOn.mode ≠ .parallel := by decide
  rw [initCheck_eq_none_iff, State.powerOn_cfg]
  exact ⟨by decide, fun hm => absurd hm hseq, by decide, by decide, fun _ _ => by decide⟩

theorem powerOn_toAct : Cfg.powerOn.toAct = { Act.zero with dl := 32, fanout := 1, depth := 1 } := by decide

/-! The nodes -/

theorem allNodes_iff {P : Node → Prop} {s : State} : AllNodes P s ↔ ∀ n, n = s.node ∨ n ∈ s.lanes → P n := by
  simp [AllNodes, or_imp, forall_and]

theorem AllNodes.mono {P R : Node → Prop} {s : State} (h : AllNodes P s) (hPR : ∀ n, P n → R n) : AllNodes R s :=
  ⟨hPR _ h.1, fun n hn => hPR n (h.2 n hn)⟩

/-- A property of a node, told the FSM and the active variant, that every operation on nodes establishes and that a
change of the FSM out of a state before FINAL keeps. -/
structure NodeRule (Q : Fsm → Variant → Node → Prop) : Prop where
  zero : ∀ f v, Q f v Node.zero
  init : ∀ f v pb, Q f v (nodeInit v pb)
  absorb : ∀ f v n bytes, Q f v (nodeCompress v n bytes false false)
  final : ∀ v n bytes last, Q .finalized v (nodeCompress v n bytes true last)
  unfinished : ∀ f g v n, f ≠ .finalized → Q f v n → Q g v n

/-- Every node of the state has the property, for the FSM and the variant of the state. -/
def NodesMeet (Q : Fsm → Variant → Node → Prop) (s : State) : Prop := AllNodes (Q s.fsm s.act.variant) s

theorem running_ne_finalized {s : State} (h : running s = true) : s.fsm ≠ .finalized := by
  rcases running_iff.1 h with h | h <;> simp [h]

section
variable {Q : Fsm → Variant → Node → Prop} (hQ : NodeRule Q)
include hQ

theorem NodeRule.powerOn (lanesMax : Nat) (port : List HostMove) : NodesMeet Q (State.powerOn lanesMax port) :=
  ⟨hQ.zero _ _, fun _ hn => eq_of_mem_replicate hn ▸ hQ.zero _ _⟩

theorem NodeRule.start (key out : List Byte) (s : State) (f : Fsm) :
    NodesMeet Q (State.respond { engineStart key s with fsm := f, errCode := .ok } out) := by
  have h := start_nodes (Q f s.act.variant) key s (hQ.zero _ _) (hQ.init _ _)
  simpa [NodesMeet, AllNodes] using h

theorem NodeRule.absorbed {s : State} (hs : NodesMeet Q s) (hr : running s = true) (payload : List Byte) (f : Fsm) :
    NodesMeet Q (State.respond { absorbBytes payload s with fsm := f, errCode := .ok } []) := by
  have hs' : AllNodes (Q f s.act.variant) s := hs.mono fun n => hQ.unfinished _ _ _ n (running_ne_finalized hr)
  simpa [NodesMeet, AllNodes] using absorb_nodes _ payload s hs' (hQ.absorb _ _)

theorem NodeRule.finished {s : State} (hs : NodesMeet Q s) (hr : running s = true) (out : List Byte) :
    NodesMeet Q (State.respond { finishEngine s with fsm := .finalized, errCode := .ok } out) := by
  have hs' : AllNodes (Q .finalized s.act.variant) s :=
    hs.mono fun n => hQ.unfinished _ _ _ n (running_ne_finalized hr)
  simpa [NodesMeet, AllNodes] using finish_nodes _ s hs' (hQ.final _)

/-- Every command keeps such a property of the nodes. -/
theorem NodeRule.exec_keeps {i : Instr} {s t : State} (hs : NodesMeet Q s) (h : exec i s = .next t) : NodesMeet Q t := by
  cases i with
  | wrcfg reg payload => rcases wrcfg_cases h with ⟨_, rfl⟩ | ⟨_, _, rfl⟩ <;> exact hs
  | rdcfg reg => rcases rdcfg_cases h with ⟨_, rfl⟩ | ⟨_, _, rfl⟩ <;> exact hs
  | init =>
    rcases init_cases h with ⟨_, _, rfl⟩ | ⟨_, rfl⟩
    · exact hs
    · exact hQ.start _ _ _ _
  | key key =>
    rcases key_cases h with ⟨_, _, rfl⟩ | ⟨_, rfl⟩
    · exact hs
    · exact hQ.start _ _ _ _
  | absorb payload =>
    rcases absorb_cases h with ⟨_, rfl⟩ | ⟨hr, rfl⟩
    · exact hs
    · exact hQ.absorbed hs hr _ _
  | final olen =>
    rcases final_cases h with ⟨_, _, rfl⟩ | ⟨hc, rfl⟩
    · exact hs
    · exact hQ.finished hs (finalCheck_none hc).1 _
  | reset =>
    rcases reset_cases h with ⟨_, rfl⟩ | ⟨_, rfl⟩
    · exact hs
    · exact hQ.start _ _ _ _
  | zeroize => rw [zeroize_cases h]; exact hQ.powerOn s.lanesMax s.port
  | rdstat => rw [rdstat_cases h]; exact hs

/-- Every step keeps such a property of the nodes. -/
theorem NodeRule.step_keeps {s t : State} (hs : NodesMeet Q s) (h : step s = .next t) : NodesMeet Q t := by
  rcases step_cases h with ⟨_, rfl⟩ | ⟨_, _, rfl⟩ | ⟨_, rest, _, _, _, he⟩ | ⟨_, _, _, rfl⟩
  · exact hs
  · exact hQ.powerOn _ _
  · exact hQ.exec_keeps (s := { s with port := rest }) hs he
  · exact hs

end

/-- The flags of a node as 10_state.md R40 bounds them in each FSM state. -/
def FlagsMeet (f : Fsm) (v : Variant) (n : Node) : Prop := n.FlagsLegal v ∧ (f ≠ .finalized → n.Unflagged)

theorem flagsMeet_of_unflagged {f : Fsm} {v : Variant} {n : Node} (h : n.Unflagged) : FlagsMeet f v n :=
  ⟨unflagged_legal h, fun _ => h⟩

theorem flagsMeet_nodeRule : NodeRule FlagsMeet where
  zero _ _ := flagsMeet_of_unflagged zero_unflagged
  init _ _ _ := flagsMeet_of_unflagged (nodeInit_unflagged _ _)
  absorb _ _ _ _ := flagsMeet_of_unflagged (nodeCompress_unflagged _ _ _ _)
  final _ _ _ _ := ⟨nodeCompress_flags _ _ _ _ _, fun h => absurd rfl h⟩
  unfinished _ _ _ _ hf h := flagsMeet_of_unflagged (h.2 hf)

theorem fits_nodeRule : NodeRule fun _ v n => n.Fits v where
  zero _ _ := zero_fits _
  init _ _ _ := nodeInit_fits _ _
  absorb _ _ _ _ := nodeCompress_fits _ _ _ _ _
  final _ _ _ _ := nodeCompress_fits _ _ _ _ _
  unfinished _ _ _ _ _ h := h

/-! The invariant -/

theorem Inv.raise {s : State} (h : Inv s) (code : ResultCode) : Inv (s.raise code) :=
  inv_frame h rfl h.cfg rfl rfl rfl rfl rfl rfl

theorem Inv.respond {s : State} (h : Inv s) (out : List Byte) : Inv (s.respond out) :=
  inv_frame h rfl h.cfg rfl rfl rfl rfl rfl rfl

theorem Inv.withPort {s : State} (h : Inv s) (port : List HostMove) : Inv { s with port := port } :=
  inv_frame h rfl h.cfg rfl rfl rfl rfl rfl rfl

/-- INIT starts the engine under the parameters its checks passed. -/
theorem init_inv {s t : State} (hs : Inv s) (h : exec .init s = .next t) : Inv t := by
  rcases init_cases h with ⟨_, _, rfl⟩ | ⟨hc, rfl⟩
  · exact hs.raise _
  · exact start_inv [] { s with act := s.cfg.toAct } .empty [] hs.lanesMax hs.cfg (toAct_legal hs.cfg hc)
      (Nat.zero_le _) (.inl ⟨rfl, rfl⟩)

theorem key_inv {s t : State} {key : List Byte} (hs : Inv s) (h : exec (.key key) s = .next t) : Inv t := by
  rcases key_cases h with ⟨_, _, rfl⟩ | ⟨hc, rfl⟩
  · exact hs.raise _
  · obtain ⟨hu, hpos, hle⟩ := keyCheck_none hc
    exact start_inv key s .buffering [] hs.lanesMax hs.cfg (hs.act hu) hle
      (.inr ⟨rfl, List.ne_nil_of_length_pos hpos⟩)

theorem reset_inv {s t : State} (hs : Inv s) (h : exec .reset s = .next t) : Inv t := by
  rcases reset_cases h with ⟨_, rfl⟩ | ⟨hu, rfl⟩
  · exact hs.raise _
  · exact start_inv [] s .empty [] hs.lanesMax hs.cfg (hs.act hu) (Nat.zero_le _) (.inl ⟨rfl, rfl⟩)

/-- Every command keeps the invariant. -/
theorem exec_inv {i : Instr} {s t : State} (hs : Inv s) (h : exec i s = .next t) : Inv t := by
  cases i with
  | wrcfg reg payload =>
    rcases wrcfg_cases h with ⟨_, rfl⟩ | ⟨c, hw, rfl⟩
    · exact hs.raise _
    · exact inv_frame hs rfl (Cfg.write_legal hs.cfg hw) rfl rfl rfl rfl rfl rfl
  | rdcfg reg =>
    rcases rdcfg_cases h with ⟨_, rfl⟩ | ⟨_, _, rfl⟩
    · exact hs.raise _
    · exact hs.respond _
  | init => exact init_inv hs h
  | key key => exact key_inv hs h
  | absorb payload =>
    rcases absorb_cases h with ⟨_, rfl⟩ | ⟨hr, rfl⟩
    · exact hs.raise _
    · exact absorb_inv payload s hs (running_iff.1 hr)
  | final olen =>
    rcases final_cases h with ⟨_, _, rfl⟩ | ⟨hc, rfl⟩
    · exact hs.raise _
    · exact final_inv s _ hs (running_iff.1 (finalCheck_none hc).1)
  | reset => exact reset_inv hs h
  | zeroize => rw [zeroize_cases h]; exact (powerOn_inv _ _ hs.lanesMax).respond _
  | rdstat => rw [rdstat_cases h]; exact hs.respond _

/-- Every step keeps the invariant. -/
theorem step_inv {s t : State} (hs : Inv s) (h : step s = .next t) : Inv t := by
  rcases step_cases h with ⟨_, rfl⟩ | ⟨_, _, rfl⟩ | ⟨_, rest, _, _, _, he⟩ | ⟨_, rest, _, rfl⟩
  · exact hs
  · exact powerOn_inv _ _ hs.lanesMax
  · exact exec_inv (hs.withPort rest) he
  · exact (hs.withPort rest).raise _

/-! The STATUS word -/

/-- The three wide fields of STATUS (10_state.md R36). -/
theorem status_fields (s : State) : s.status.extractLsb' 0 3 = s.fsm.code ∧
    s.status.extractLsb' 8 8 = s.errCode.code ∧ s.status.extractLsb' 16 16 = BitVec.ofNat 16 s.bufLen := by
  refine ⟨?_, ?_, ?_⟩
  · rw [State.status, BitVec.extractLsb'_append_eq_of_add_le (by decide), BitVec.extractLsb'_eq_self]
  · rw [State.status]
    iterate 6 rw [BitVec.extractLsb'_append_eq_of_le (by decide)]
    rw [BitVec.extractLsb'_append_eq_of_add_le (by decide), BitVec.extractLsb'_eq_self]
  · rw [State.status]
    iterate 7 rw [BitVec.extractLsb'_append_eq_of_le (by decide)]
    rw [BitVec.extractLsb'_eq_self]

/-- The five one-bit fields of STATUS (10_state.md R36). -/
theorem status_bits (s : State) :
    s.status.getLsbD 3 = (if s.fsm = .unconfigured then 0#1 else modeBit s.act.mode).getLsbD 0 ∧
    s.status.getLsbD 4 = (if s.fsm = .unconfigured then 0#1 else variantBit s.act.variant).getLsbD 0 ∧
    s.status.getLsbD 5 = s.keyed ∧ s.status.getLsbD 6 = s.errSticky ∧ s.status.getLsbD 7 = false := by
  simp only [State.status, BitVec.getLsbD_append]
  simp

theorem modeBit_set_iff {m : Mode} : (modeBit m).getLsbD 0 = true ↔ m = .parallel := by cases m <;> decide

theorem variantBit_set_iff {v : Variant} : (variantBit v).getLsbD 0 = true ↔ v = .b := by cases v <;> decide

/-! BUFLEN in each of its cases (10_state.md R36) -/

theorem bufLen_of_unconfigured {s : State} (hu : s.fsm = .unconfigured) : s.bufLen = 0 := by
  simp [State.bufLen, hu]

theorem bufLen_of_sequential {s : State} (hu : s.fsm ≠ .unconfigured) (hm : s.act.mode = .sequential) :
    s.bufLen = s.buf.length := by
  cases hf : s.fsm <;> simp_all [State.bufLen]

theorem bufLen_of_parallel {s : State} (hu : s.fsm ≠ .unconfigured) (hm : s.act.mode = .parallel) :
    s.bufLen = s.sb.length := by
  cases hf : s.fsm <;> simp_all [State.bufLen]

/-- Both buffers are short enough for the 16 bits of BUFLEN: one block, or two blocks for each of 255 lanes. -/
theorem bufLen_lt {s : State} (hs : Inv s) : s.bufLen < 2 ^ 16 := by
  have hblock : s.act.variant.blockBytes ≤ 128 := by cases s.act.variant <;> decide
  by_cases hu : s.fsm = .unconfigured
  · rw [bufLen_of_unconfigured hu]; decide
  · cases hm : s.act.mode with
    | sequential =>
      have hbuf := (hs.sequential hu hm).buf
      rw [bufLen_of_sequential hu hm]
      omega
    | parallel =>
      have hsb := (hs.parallel hu hm).sb
      have hlanes : s.act.laneCount < 256 := s.act.fanout.isLt
      have : 2 * s.act.laneCount * s.act.variant.blockBytes ≤ 2 * 255 * 128 :=
        Nat.mul_le_mul (by omega) hblock
      rw [bufLen_of_parallel hu hm]
      omega

/-- STATUS is 0 after power-on (10_state.md R43). -/
theorem powerOn_status (lanesMax : Nat) (port : List HostMove) : (State.powerOn lanesMax port).status = 0 := by
  simp only [State.status, State.bufLen, State.keyed, State.powerOn_fsm, State.powerOn_act, State.powerOn_errCode,
    State.powerOn_errSticky]
  decide

/-! The elements of the other mode -/

theorem absorbBytes_frame_of_sequential {s : State} (hm : s.act.mode = .sequential) (payload : List Byte) :
    (absorbBytes payload s).lanes = s.lanes ∧ (absorbBytes payload s).sb = s.sb := by
  simp [absorbBytes, hm]

theorem absorbBytes_frame_of_parallel {s : State} (hm : s.act.mode = .parallel) (payload : List Byte) :
    (absorbBytes payload s).node = s.node ∧ (absorbBytes payload s).buf = s.buf := by
  simp [absorbBytes, hm]

theorem finishEngine_frame_of_sequential {s : State} (hm : s.act.mode = .sequential) :
    (finishEngine s).lanes = s.lanes ∧ (finishEngine s).sb = s.sb := by
  simp [finishEngine, hm]

end Sys2Proof.Machine
end

section
/-! PROOFS. The statements on the elements of the state and on what every step keeps. -/

namespace Sys2Proof.Machine

/-- Settles O50, by the cases of a step and of each command (`step_inv`, `exec_inv`). -/
theorem stepKeepsTheInvariant : Obligations.StepKeepsTheInvariant := fun _ _ => step_inv

/-- Settles O49: the reset state is a power-on state with a legal LANES_MAX. -/
theorem resetMeetsTheInvariant : Obligations.ResetMeetsTheInvariant := powerOn_inv _ _ (by decide)

/-- Settles O51: the flags of every node follow one rule of the node operations, which every step keeps. -/
theorem stepKeepsTheFlagsLegal : Obligations.StepKeepsTheFlagsLegal := by
  refine ⟨allNodes_iff.1 (flagsMeet_nodeRule.powerOn _ _), fun s t hs h => ?_⟩
  exact allNodes_iff.1 (flagsMeet_nodeRule.step_keeps (allNodes_iff.2 hs) h)

/-- Settles O52: each node operation leaves W-bit words. -/
theorem stepKeepsWordsOfWBits : Obligations.StepKeepsWordsOfWBits :=
  fun _ _ => fits_nodeRule.step_keeps

/-- Settles O24, field by field; BUFLEN fits its 16 bits by the invariant's bounds on the buffers. -/
theorem statusFieldsReportTheState : Obligations.StatusFieldsReportTheState := by
  intro s hs
  obtain ⟨hfsm, herr, hlen⟩ := status_fields s
  obtain ⟨hmode, hvariant, hkeyed, hsticky, hzero⟩ := status_bits s
  refine ⟨?_, ?_, ?_, ?_, hsticky, hzero, ?_, ?_⟩
  · rw [hfsm]; cases s.fsm <;> rfl
  · rw [hmode]
    by_cases hu : s.fsm = .unconfigured
    · simp [hu]
    · rw [if_neg hu, modeBit_set_iff, and_iff_right hu]
  · rw [hvariant]
    by_cases hu : s.fsm = .unconfigured
    · simp [hu]
    · rw [if_neg hu, variantBit_set_iff, and_iff_right hu]
  · rw [hkeyed]; simp [State.keyed]
  · rw [herr]; cases s.errCode <;> rfl
  · rw [hlen, BitVec.toNat_ofNat, Nat.mod_eq_of_lt (bufLen_lt hs)]
    by_cases hu : s.fsm = .unconfigured
    · rw [if_pos hu, bufLen_of_unconfigured hu]
    · rw [if_neg hu]
      cases hm : s.act.mode with
      | sequential => exact bufLen_of_sequential hu hm
      | parallel => exact bufLen_of_parallel hu hm

/-- Settles O17, command by command: each command's next states are failures, which write no element, and its one
success. -/
theorem commandsWriteOnlyTheirElements : Obligations.CommandsWriteOnlyTheirElements := by
  intro i s t h
  obtain ⟨hport, hmax⟩ := exec_port_lanesMax h
  refine ⟨hmax, hport, ?_⟩
  cases i with
  | wrcfg reg payload => rcases wrcfg_cases h with ⟨_, rfl⟩ | ⟨_, _, rfl⟩ <;> simp
  | rdcfg reg => rcases rdcfg_cases h with ⟨_, rfl⟩ | ⟨_, _, rfl⟩ <;> simp
  | init => rcases init_cases h with ⟨_, _, rfl⟩ | ⟨_, rfl⟩ <;> simp
  | key key => rcases key_cases h with ⟨_, _, rfl⟩ | ⟨_, rfl⟩ <;> simp
  | absorb payload =>
    rcases absorb_cases h with ⟨_, rfl⟩ | ⟨_, rfl⟩
    · simp
    · exact ⟨by simp, by simp, fun hm => absorbBytes_frame_of_sequential hm payload,
        fun hm => absorbBytes_frame_of_parallel hm payload⟩
  | final olen =>
    rcases final_cases h with ⟨_, _, rfl⟩ | ⟨_, rfl⟩
    · simp
    · exact ⟨by simp, by simp, finishEngine_frame_of_sequential⟩
  | reset => rcases reset_cases h with ⟨_, rfl⟩ | ⟨_, rfl⟩ <;> simp
  | zeroize => trivial
  | rdstat => rw [rdstat_cases h]; simp

/-- Settles O1: the values are those of `State.powerOn`, and they pass every check of INIT. -/
theorem powerOnStateHasTheTabledValues : Obligations.PowerOnStateHasTheTabledValues := by
  refine ⟨⟨_, _, rfl⟩, fun lanesMax port => ?_⟩
  refine ⟨rfl, rfl, rfl, rfl, rfl, rfl, List.length_replicate, fun _ => eq_of_mem_replicate, rfl, rfl, rfl,
    powerOn_status _ _, _, init_of_check (powerOn_initCheck _ _), rfl, rfl, ?_⟩
  simp only [State.respond_act, engineStart_act, State.powerOn_cfg, powerOn_toAct]
  rfl

end Sys2Proof.Machine
end

section
/-! PROOFS. What a word decodes to, the round trip of encoder and decoder, the match and mask rows, what a transaction
asks of the block, and byte streams. -/

namespace Sys2Proof

/-! What a word decodes to -/

/-- The opcode of a command (30_encoding.md R78). -/
def Instr.opcode : Instr → Nat
  | .wrcfg _ _ => 1
  | .rdcfg _ => 2
  | .init => 3
  | .key _ => 4
  | .absorb _ => 5
  | .final _ => 6
  | .reset => 7
  | .zeroize => 8
  | .rdstat => 9

/-- The operands of a command are the fields of the word and the payload (30_encoding.md R73–R77). -/
def Instr.ReadsFrom (cw : BitVec 32) (payload : List Byte) : Instr → Prop
  | .wrcfg reg p => reg = regField cw ∧ p = payload
  | .rdcfg reg => reg = regField cw
  | .key k => k = payload
  | .absorb p => p = payload
  | .final olen => olen = byteField cw
  | .init | .reset | .zeroize | .rdstat => True

theorem opcode_bounds (i : Instr) : 1 ≤ i.opcode ∧ i.opcode ≤ 9 := by
  cases i <;> simp only [Instr.opcode] <;> decide

/-- A legal word of one of the nine opcodes decodes. -/
theorem decodeWord_of_legal {cw : BitVec 32} (hl : legal cw = true) (payload : List Byte)
    (h : 1 ≤ (opField cw).toNat ∧ (opField cw).toNat ≤ 9) : ∃ i, decodeWord cw payload = .ok i := by
  obtain ⟨hlow, hhigh⟩ := h
  simp only [decodeWord, hl, if_true]
  generalize (opField cw).toNat = op at hlow hhigh ⊢
  interval_cases op <;> exact ⟨_, rfl⟩

theorem decodeWord_eq_ok {cw : BitVec 32} {payload : List Byte} {i : Instr} (h : decodeWord cw payload = .ok i) :
    legal cw = true ∧ (opField cw).toNat = i.opcode ∧ i.ReadsFrom cw payload := by
  cases hl : legal cw with
  | false => simp only [decodeWord, hl] at h; split at h <;> simp at h
  | true =>
    simp only [decodeWord, hl, if_true] at h
    split at h
    case h_10 => cases h
    all_goals
      cases h
      simp [Instr.opcode, Instr.ReadsFrom, *]

theorem decodeWord_of_readsFrom {cw : BitVec 32} {payload : List Byte} {i : Instr} (hl : legal cw = true)
    (hop : (opField cw).toNat = i.opcode) (hr : i.ReadsFrom cw payload) : decodeWord cw payload = .ok i := by
  simp only [decodeWord, hl, hop, if_true]
  cases i with
  | wrcfg reg p => obtain ⟨rfl, rfl⟩ := hr; rfl
  | rdcfg | key | absorb | final => obtain rfl := hr; rfl
  | init | reset | zeroize | rdstat => rfl

/-- A word decodes to the command of its opcode with its fields as operands, exactly when it is legal. -/
theorem decodeWord_eq_ok_iff {cw : BitVec 32} {payload : List Byte} {i : Instr} : decodeWord cw payload = .ok i ↔
    legal cw = true ∧ (opField cw).toNat = i.opcode ∧ i.ReadsFrom cw payload :=
  ⟨decodeWord_eq_ok, fun ⟨hl, hop, hr⟩ => decodeWord_of_readsFrom hl hop hr⟩

theorem decode_eq_ok_iff {t : Transaction} {i : Instr} : decode t = .ok i ↔
    t.payload.length = plen t.cw ∧ legal t.cw = true ∧ (opField t.cw).toNat = i.opcode ∧ i.ReadsFrom t.cw t.payload := by
  rw [← decodeWord_eq_ok_iff, decode]
  split <;> simp_all

/-! Encoding and decoding -/

/-- The rule of the framing family, for every command. -/
theorem payloadOf_length {i : Instr} (h : i.WF) : (payloadOf i).length = plen (encodeWord i) := by
  cases i with
  | wrcfg reg payload => exact Laws.Framing.wrcfg reg payload h
  | rdcfg reg => exact Laws.Framing.rdcfg reg h
  | init => exact Laws.Framing.init h
  | key key => exact Laws.Framing.key key h
  | absorb payload => exact Laws.Framing.absorb payload h
  | final olen => exact Laws.Framing.final olen h
  | reset => exact Laws.Framing.reset h
  | zeroize => exact Laws.Framing.zeroize h
  | rdstat => exact Laws.Framing.rdstat h

theorem opField_encodeWord (i : Instr) : (opField (encodeWord i)).toNat = i.opcode := by
  rw [opField_toNat, encodeWord_toNat]
  cases i <;> simp only [Instr.opcode] <;> omega

/-- The encoder leaves every reserved bit zero. -/
theorem legal_encodeWord (i : Instr) : legal (encodeWord i) = true := by
  rw [legal_iff, ← opField_toNat, opField_encodeWord, encodeWord_toNat]
  cases i <;> simp only [Instr.opcode, reservedField] <;> omega

/-- The encoder puts every operand in its field. -/
theorem readsFrom_encodeWord (i : Instr) : i.ReadsFrom (encodeWord i) (payloadOf i) := by
  cases i with
  | wrcfg reg payload =>
    refine ⟨BitVec.eq_of_toNat_eq ?_, rfl⟩
    rw [regField_toNat, encodeWord_toNat]; dsimp only; omega
  | rdcfg reg =>
    refine BitVec.eq_of_toNat_eq ?_
    rw [regField_toNat, encodeWord_toNat]; dsimp only; omega
  | final olen =>
    refine BitVec.eq_of_toNat_eq ?_
    rw [byteField_toNat, encodeWord_toNat]; dsimp only; omega
  | key | absorb => rfl
  | init | reset | zeroize | rdstat => trivial

theorem decode_encode {i : Instr} (h : i.WF) : decode (encode i) = .ok i :=
  decode_eq_ok_iff.2 ⟨payloadOf_length h, legal_encodeWord i, opField_encodeWord i, readsFrom_encodeWord i⟩

/-! The length bounds of R74–R76 -/

theorem wf_wrcfg_iff {reg : BitVec 4} {payload : List Byte} : (Instr.wrcfg reg payload).WF ↔ payload.length < 256 :=
  decide_eq_true_iff

theorem wf_key_iff {key : List Byte} : (Instr.key key).WF ↔ key.length < 256 := decide_eq_true_iff

theorem wf_absorb_iff {payload : List Byte} : (Instr.absorb payload).WF ↔ payload.length < 65536 := decide_eq_true_iff

/-- What decodes is well-formed: its payload is as long as a LEN or KL field says. -/
theorem wf_of_decode {t : Transaction} {i : Instr} (h : decode t = .ok i) : i.WF := by
  obtain ⟨hlen, -, hop, hr⟩ := decode_eq_ok_iff.1 h
  rw [plen_eq, ← opField_toNat, hop] at hlen
  cases i with
  | wrcfg reg payload =>
    obtain ⟨-, rfl⟩ := hr
    simp only [Instr.opcode, if_true] at hlen
    rw [wf_wrcfg_iff]; omega
  | key key =>
    obtain rfl := hr
    norm_num [Instr.opcode] at hlen
    rw [wf_key_iff]; omega
  | absorb payload =>
    obtain rfl := hr
    norm_num [Instr.opcode] at hlen
    rw [wf_absorb_iff]; omega
  | rdcfg | init | final | reset | zeroize | rdstat => rfl

/-- The payload of a transaction that decodes is its command's. -/
theorem payloadOf_of_decode {t : Transaction} {i : Instr} (h : decode t = .ok i) : payloadOf i = t.payload := by
  obtain ⟨hlen, -, hop, hr⟩ := decode_eq_ok_iff.1 h
  rw [plen_eq, ← opField_toNat, hop] at hlen
  cases i with
  | wrcfg reg payload => exact hr.2
  | key | absorb => exact hr
  | rdcfg | init | final | reset | zeroize | rdstat => exact (List.eq_nil_of_length_eq_zero hlen).symm

/-- The word of a transaction that decodes has its command's opcode and operands, and zeros elsewhere. -/
theorem encodeWord_of_decode {t : Transaction} {i : Instr} (h : decode t = .ok i) : encodeWord i = t.cw := by
  obtain ⟨hlen, hl, hop, hr⟩ := decode_eq_ok_iff.1 h
  rw [plen_eq, ← opField_toNat, hop] at hlen
  rw [legal_iff, ← opField_toNat, hop] at hl
  rw [opField_toNat] at hop
  apply BitVec.eq_of_toNat_eq
  rw [encodeWord_toNat]
  cases i with
  | wrcfg reg payload =>
    obtain ⟨rfl, rfl⟩ := hr
    simp only [Instr.opcode, reservedField, if_true, regField_toNat] at *; omega
  | rdcfg reg =>
    obtain rfl := hr
    simp only [Instr.opcode, reservedField, regField_toNat] at *; omega
  | key key =>
    obtain rfl := hr
    norm_num [Instr.opcode, reservedField] at *; omega
  | absorb payload =>
    obtain rfl := hr
    norm_num [Instr.opcode, reservedField] at *; omega
  | final olen =>
    obtain rfl := hr
    simp only [Instr.opcode, reservedField, byteField_toNat] at *; omega
  | init | reset | zeroize | rdstat =>
    simp only [Instr.opcode, reservedField] at *; omega

/-! The match and mask rows -/

theorem bitVec_append_inj {m n : Nat} {x x' : BitVec m} {y y' : BitVec n} :
    x ++ y = x' ++ y' ↔ x = x' ∧ y = y' := by
  refine ⟨fun h => ⟨?_, ?_⟩, fun ⟨hx, hy⟩ => by rw [hx, hy]⟩
  · simpa only [BitVec.extractLsb'_append_eq_left] using congrArg (BitVec.extractLsb' n m) h
  · simpa only [BitVec.extractLsb'_append_eq_right] using congrArg (BitVec.extractLsb' 0 n) h

/-- The 28 bits below the opcode. -/
def lowField (cw : BitVec 32) : BitVec 28 := cw.extractLsb' 0 28

theorem eq_opField_append (cw : BitVec 32) : cw = opField cw ++ lowField cw :=
  (BitVec.extractLsb'_append_extractLsb' (w := 4) (len := 28) (x := cw)).symm

/-- No bit of the opcode is reserved. -/
theorem reservedMask_eq_append (op : Nat) : reservedMask op = 0#4 ++ lowField (reservedMask op) := by
  unfold reservedMask
  split <;> decide

theorem and_mask_eq_iff {cw : BitVec 32} {a b : BitVec 4} {m c : BitVec 28} :
    cw &&& (a ++ m) = b ++ c ↔ opField cw &&& a = b ∧ lowField cw &&& m = c := by
  rw [← bitVec_append_inj, ← BitVec.and_append, ← eq_opField_append]

/-- The reserved bits lie below the opcode, so the lower 28 bits decide legality. -/
theorem legal_iff_lowField {cw : BitVec 32} :
    legal cw = true ↔ lowField cw &&& lowField (reservedMask (opField cw).toNat) = 0 := by
  rw [legal, beq_iff_eq, reservedMask_eq_append, show (0 : BitVec 32) = 0#4 ++ 0#28 by decide, and_mask_eq_iff,
    ← reservedMask_eq_append]
  simp

/-- The rows of R78: the mask is the opcode bits with the format's reserved bits, the value is the opcode over zeros. -/
theorem opcodeRow_masks : ∀ row ∈ opcodeRows,
    row.mask = 15#4 ++ lowField (reservedMask (opField row.value).toNat) ∧ row.value = opField row.value ++ 0#28 := by
  decide

theorem opcodeRow_opcodes : ∀ row ∈ opcodeRows,
    1 ≤ (opField row.value).toNat ∧ (opField row.value).toNat ≤ 9 := by decide

/-- A word belongs to a row when it is legal and has the row's opcode. -/
theorem mem_opcodeRow_iff {row : OpcodeRow} (hrow : row ∈ opcodeRows) {cw : BitVec 32} :
    cw &&& row.mask = row.value ↔ legal cw = true ∧ opField cw = opField row.value := by
  obtain ⟨hmask, hvalue⟩ := opcodeRow_masks row hrow
  generalize opField row.value = op at hmask hvalue ⊢
  rw [hmask, hvalue, and_mask_eq_iff, show opField cw &&& 15#4 = opField cw from BitVec.and_allOnes,
    legal_iff_lowField, and_comm]
  exact and_congr_left fun hop => by rw [hop]; rfl

theorem mnemonic_eq_iff {row : OpcodeRow} (hrow : row ∈ opcodeRows) {i : Instr} :
    i.mnemonic = row.mnemonic ↔ i.opcode = (opField row.value).toNat := by
  revert row
  cases i <;> simp only [Instr.mnemonic, Instr.opcode] <;> decide

theorem exists_opcodeRow (i : Instr) : ∃ row ∈ opcodeRows, i.mnemonic = row.mnemonic := by
  cases i <;> simp only [Instr.mnemonic] <;> decide

/-- A word with its full payload belongs to a row exactly when it decodes to the row's command. -/
theorem mem_opcodeRow_iff_decode {row : OpcodeRow} (hrow : row ∈ opcodeRows) {t : Transaction}
    (hlen : t.payload.length = plen t.cw) :
    t.cw &&& row.mask = row.value ↔ ∃ i, decode t = .ok i ∧ i.mnemonic = row.mnemonic := by
  rw [mem_opcodeRow_iff hrow, decode_of_length hlen]
  constructor
  · rintro ⟨hl, hop⟩
    obtain ⟨i, hi⟩ := decodeWord_of_legal hl t.payload (hop ▸ opcodeRow_opcodes row hrow)
    refine ⟨i, hi, (mnemonic_eq_iff hrow).2 ?_⟩
    rw [← hop, (decodeWord_eq_ok hi).2.1]
  · rintro ⟨i, hi, hm⟩
    obtain ⟨hl, hop, -⟩ := decodeWord_eq_ok hi
    exact ⟨hl, BitVec.eq_of_toNat_eq (by rw [hop, (mnemonic_eq_iff hrow).1 hm])⟩

theorem opcodeRows_disjoint :
    opcodeRows.Pairwise fun a b => ∀ w : BitVec 32, w &&& a.mask = a.value → w &&& b.mask ≠ b.value := by
  have hop : opcodeRows.Pairwise fun a b => opField a.value ≠ opField b.value := by decide
  refine hop.imp_of_mem fun ha hb hne w hwa hwb => hne ?_
  rw [← ((mem_opcodeRow_iff ha).1 hwa).2, ((mem_opcodeRow_iff hb).1 hwb).2]

/-! What a transaction asks of the block -/

theorem request_eq_run_iff {t : Transaction} {i : Instr} :
    Machine.request (.transaction t) = .run i ↔ decode t = .ok i := by
  simp only [Machine.request]
  split <;> simp_all

/-- A transaction with its full payload fails exactly when it decodes to no command. -/
theorem request_eq_fail_iff {t : Transaction} (hlen : t.payload.length = plen t.cw) :
    Machine.request (.transaction t) = .fail .illegal ↔ ∀ i, decode t ≠ .ok i := by
  rcases request_of_length hlen with ⟨i, hi, hr⟩ | ⟨hn, hr⟩
  · simp [hi, hr]
  · simp [hn, hr]

/-- A word with a bit of its reserved field set is not legal. -/
theorem legal_eq_false {cw : BitVec 32} {op lo width : Nat} (hop : (opField cw).toNat = op)
    (hfield : reservedField op = (lo, width)) (hne : cw.extractLsb' lo width ≠ 0) : legal cw = false := by
  rw [← Bool.not_eq_true, legal, beq_iff_eq, reservedMask_and, hop, hfield]
  exact hne

/-! Byte streams -/

/-- A transaction with its full payload is read from the front of any byte stream that begins with it. -/
theorem readTransaction_toBytes {t : Transaction} (hlen : t.payload.length = plen t.cw) (rest : List Byte) :
    readTransaction (t.toBytes ++ rest) = .ok (t, rest) := by
  have hword : (bytesLE 4 t.cw.toNat).length = 4 := bytesLE_length _ _
  have hcw : BitVec.ofNat 32 (leNat (bytesLE 4 t.cw.toNat)) = t.cw := by
    rw [leNat_bytesLE]
    exact BitVec.eq_of_toNat_eq (by simp [Nat.mod_eq_of_lt t.cw.isLt])
  simp only [readTransaction, Transaction.toBytes, List.append_assoc, List.take_left' hword, List.drop_left' hword, hcw,
    List.take_left' hlen, List.drop_left' hlen]
  rw [if_neg (by simp [hword]), if_neg (by simp [hlen])]

/-- Enough fuel is one unit for each transaction. -/
theorem readStream_toBytes {ts : List Transaction} (hlen : ∀ t ∈ ts, t.payload.length = plen t.cw) {fuel : Nat}
    (hfuel : ts.length ≤ fuel) : readStream fuel (ts.flatMap Transaction.toBytes) = .ok ts := by
  induction ts generalizing fuel with
  | nil => simp [readStream]
  | cons t ts ih =>
    obtain ⟨ht, hts⟩ := List.forall_mem_cons.1 hlen
    obtain ⟨fuel, rfl⟩ : ∃ n, fuel = n + 1 := ⟨fuel - 1, by simp at hfuel; omega⟩
    have hih := ih hts (Nat.le_of_succ_le_succ hfuel)
    rw [List.flatMap_cons]
    cases hb : t.toBytes ++ ts.flatMap Transaction.toBytes with
    | nil => simp [Transaction.toBytes, bytesLE] at hb
    | cons b bs => rw [readStream, ← hb, readTransaction_toBytes ht]; simp only [hih]

theorem length_le_flatMap_toBytes (ts : List Transaction) : ts.length ≤ (ts.flatMap Transaction.toBytes).length := by
  induction ts with
  | nil => simp
  | cons t ts ih => simp [Transaction.toBytes]; omega

theorem toBytes_eq (t : Transaction) : t.toBytes =
    [t.cw.extractLsb' 0 8, t.cw.extractLsb' 8 8, t.cw.extractLsb' 16 8, t.cw.extractLsb' 24 8] ++ t.payload := by
  rw [Transaction.toBytes, bytesLE_eq_extract]; rfl

end Sys2Proof
end

section
/-! PROOFS. What the register file refuses, the steps of transactions, absorbing in pieces, and the response of every
command. -/

namespace Sys2Proof.Machine

/-! What WRCFG and RDCFG refuse -/

theorem write_eq_none_of_reserved {c : Cfg} {reg : Nat} {payload : List Byte} (h : 10 ≤ reg) :
    c.write reg payload = none := by simp [Cfg.write, h]

theorem read_eq_none_of_reserved {c : Cfg} {reg : Nat} (h : 10 ≤ reg) : c.read reg = none := by
  simp [Cfg.read, h]

theorem write_eq_none_of_width {c : Cfg} {reg : Nat} {payload : List Byte} (h : reg ≤ 7)
    (hw : payload.length ≠ regWidth reg) : c.write reg payload = none := by
  simp [Cfg.write, h, hw]

theorem write_eq_none_of_long {c : Cfg} {reg : Nat} {payload : List Byte} (h : 8 ≤ reg) (hl : 16 < payload.length) :
    c.write reg payload = none := by
  have : ¬ reg ≤ 7 := by omega
  simp [Cfg.write, this, hl]

theorem regWidth_eq_ite (reg : Nat) : regWidth reg = if reg = 4 then 4 else if reg = 5 then 8 else 1 := by
  unfold regWidth
  split <;> simp_all

/-- A CTRL byte with one of bits [7:3] set is a number of at least 8. -/
theorem write_eq_none_of_ctrl {c : Cfg} {payload : List Byte} {b : Byte} (hb : b ∈ payload)
    (hne : b.extractLsb' 3 5 ≠ 0) : c.write 0 payload = none := by
  by_cases hw : payload.length = regWidth 0
  · obtain ⟨a, rfl⟩ := List.length_eq_one_iff.1 hw
    obtain rfl := List.mem_singleton.1 hb
    have hdiv : leNat [b] / 8 ≠ 0 := by
      intro h0
      apply hne
      apply BitVec.eq_of_toNat_eq
      simp only [leNat] at h0
      simp [BitVec.extractLsb'_toNat, Nat.shiftRight_eq_div_pow]; omega
    simp [Cfg.write, hw, hdiv]
  · exact write_eq_none_of_width (Nat.zero_le _) hw

theorem wrcfg_of_write_none {s : State} {reg : BitVec 4} {payload : List Byte}
    (h : s.cfg.write reg.toNat payload = none) : exec (.wrcfg reg payload) s = .next (s.raise .illegal) := by
  simp only [exec, execWrcfg, h, transact_some]

theorem rdcfg_of_read_none {s : State} {reg : BitVec 4} (h : s.cfg.read reg.toNat = none) :
    exec (.rdcfg reg) s = .next (s.raise .illegal) := by
  simp only [exec, execRdcfg, h, transact_some]

/-! Steps of transactions -/

theorem step_of_decode {s : State} {t : Transaction} {rest : List HostMove} {i : Instr}
    (hs : s.port = .transaction t :: rest) (hd : decode t = .ok i) : step s = exec i { s with port := rest } := by
  simp only [step, hs, request_eq_run_iff.2 hd]

/-- A transaction fails with E_ILLEGAL when the command it may decode to does. -/
theorem step_illegal {s : State} {t : Transaction} {rest : List HostMove} (hs : s.port = .transaction t :: rest)
    (hlen : t.payload.length = plen t.cw)
    (h : ∀ i, decode t = .ok i → ∀ s : State, exec i s = .next (s.raise .illegal)) :
    step s = .next (State.raise { s with port := rest } .illegal) := by
  by_cases hd : ∃ i, decode t = .ok i
  · obtain ⟨i, hi⟩ := hd
    rw [step_of_decode hs hi, h i hi]
  · exact step_of_not_decoded hs hlen (not_exists.1 hd)

theorem eq_wrcfg_of_decode {t : Transaction} {i : Instr} (hd : decode t = .ok i) (hop : (opField t.cw).toNat = 1) :
    i = .wrcfg (regField t.cw) t.payload := by
  obtain ⟨hlen, hl, -, -⟩ := decode_eq_ok_iff.1 hd
  exact Except.ok.inj (hd.symm.trans (decode_eq_ok_iff.2 ⟨hlen, hl, hop, rfl, rfl⟩))

theorem eq_rdcfg_of_decode {t : Transaction} {i : Instr} (hd : decode t = .ok i) (hop : (opField t.cw).toNat = 2) :
    i = .rdcfg (regField t.cw) := by
  obtain ⟨hlen, hl, -, -⟩ := decode_eq_ok_iff.1 hd
  exact Except.ok.inj (hd.symm.trans (decode_eq_ok_iff.2 ⟨hlen, hl, hop, rfl⟩))

/-- A WRCFG word whose register refuses the payload. -/
theorem step_wrcfg_illegal {s : State} {t : Transaction} {rest : List HostMove} (hs : s.port = .transaction t :: rest)
    (hlen : t.payload.length = plen t.cw) (hop : (opField t.cw).toNat = 1)
    (hw : ∀ c : Cfg, c.write (regField t.cw).toNat t.payload = none) :
    step s = .next (State.raise { s with port := rest } .illegal) :=
  step_illegal hs hlen fun _ hi _ => eq_wrcfg_of_decode hi hop ▸ wrcfg_of_write_none (hw _)

theorem step_rdcfg_illegal {s : State} {t : Transaction} {rest : List HostMove} (hs : s.port = .transaction t :: rest)
    (hlen : t.payload.length = plen t.cw) (hop : (opField t.cw).toNat = 2)
    (hr : ∀ c : Cfg, c.read (regField t.cw).toNat = none) :
    step s = .next (State.raise { s with port := rest } .illegal) :=
  step_illegal hs hlen fun _ hi _ => eq_rdcfg_of_decode hi hop ▸ rdcfg_of_read_none (hr _)

/-- LEN of a WRCFG word is the payload's length. -/
theorem payload_length_of_wrcfg {t : Transaction} (hlen : t.payload.length = plen t.cw) (hop : (opField t.cw).toNat = 1) :
    t.payload.length = (byteField t.cw).toNat := by
  rw [hlen, plen_eq, ← opField_toNat, if_pos hop, byteField_toNat]

/-! Absorbing in pieces -/

/-- Absorbing reads none of the FSM, ERRCODE and the response, and leaves them alone. -/
theorem absorbBytes_update (p : List Byte) (s : State) (f : Fsm) (c : ResultCode) (r : Option Response) :
    absorbBytes p { s with fsm := f, errCode := c, resp := r } =
      { absorbBytes p s with fsm := f, errCode := c, resp := r } := by
  simp only [absorbBytes]
  split <;> rfl

theorem fsm_absorb_append (p q : List Byte) (f : Fsm) :
    (if q.length > 0 then Fsm.buffering else if p.length > 0 then .buffering else f) =
      if (p ++ q).length > 0 then .buffering else f := by
  cases p <;> cases q <;> simp

/-- Absorbing in two commands is absorbing in one: while the engine runs by `absorbBytes_append`, otherwise both fail
in the same way. -/
theorem exec_absorb_append {p q : List Byte} {s t : State} (h : exec (.absorb p) s = .next t) :
    exec (.absorb q) t = exec (.absorb (p ++ q)) s := by
  rcases absorb_cases h with ⟨hr, rfl⟩ | ⟨hr, rfl⟩
  · have hfsm := not_running_iff.1 hr
    have hfsm' : (s.raise .badState).fsm = .unconfigured ∨ (s.raise .badState).fsm = .finalized := hfsm
    rw [absorb_not_running hfsm, absorb_not_running hfsm']
    rfl
  · have hfsm := running_iff.1 hr
    rw [absorb_running hfsm, absorb_running]
    · simp only [State.respond, absorbBytes_update, absorbBytes_append, fsm_absorb_append]
    · simp only [State.respond_fsm]
      split_ifs
      · exact .inr rfl
      · exact hfsm

theorem execAll_singleton (i : Instr) (s : State) : execAll [i] s = exec i s := by
  obtain ⟨t, -, ht, -⟩ := exec_total i s
  simp only [execAll, ht]

/-! Responses -/

/-- What R71 says of the output of a successful command. -/
def OutputIs (i : Instr) (s : State) (out : List Byte) : Prop :=
  match i with
  | .rdcfg reg => s.cfg.read reg.toNat = some out
  | .rdstat => out.length = 4
  | .final _ => s.act.dl.toNat ≤ s.act.variant.digestBytes → out.length = s.act.dl.toNat
  | _ => out = []

theorem finalCheck_ne_ok {s : State} {n : Nat} {c : ResultCode} (h : finalCheck s n = some c) : c ≠ .ok := by
  rcases finalCheck_cases h with ⟨-, rfl⟩ | ⟨-, -, rfl⟩ <;> decide

/-- FINAL outputs DL bytes, since the digest it cuts has NN. -/
theorem digest_prefix_length {v : Variant} {n : Node} {dl : Nat} (h : dl ≤ v.digestBytes) :
    (slice (nodeDigest v n) 0 dl).length = dl := by
  rw [slice_length, nodeDigest_length, Nat.min_eq_left h, Nat.sub_zero]

/-- Every command fails with a code other than OK, or succeeds with the output that R71 gives it. -/
theorem exec_raise_or_respond {i : Instr} {s t : State} (h : exec i s = .next t) :
    (∃ c, c ≠ .ok ∧ t = s.raise c) ∨ ∃ done out, OutputIs i s out ∧ t = State.respond done out := by
  cases i with
  | wrcfg reg payload =>
    rcases wrcfg_cases h with ⟨-, ht⟩ | ⟨c, -, ht⟩
    · exact .inl ⟨_, by decide, ht⟩
    · exact .inr ⟨_, _, rfl, ht⟩
  | rdcfg reg =>
    rcases rdcfg_cases h with ⟨-, ht⟩ | ⟨out, hout, ht⟩
    · exact .inl ⟨_, by decide, ht⟩
    · exact .inr ⟨_, _, hout, ht⟩
  | init =>
    rcases init_cases h with ⟨c, hc, ht⟩ | ⟨-, ht⟩
    · exact .inl ⟨_, (initCheck_ne_ok hc).1, ht⟩
    · exact .inr ⟨_, _, rfl, ht⟩
  | key key =>
    rcases key_cases h with ⟨c, hc, ht⟩ | ⟨-, ht⟩
    · exact .inl ⟨_, (keyCheck_ne_ok hc).1, ht⟩
    · exact .inr ⟨_, _, rfl, ht⟩
  | absorb payload =>
    rcases absorb_cases h with ⟨-, ht⟩ | ⟨-, ht⟩
    · exact .inl ⟨_, by decide, ht⟩
    · exact .inr ⟨_, _, rfl, ht⟩
  | final olen =>
    rcases final_cases h with ⟨c, hc, ht⟩ | ⟨-, ht⟩
    · exact .inl ⟨_, finalCheck_ne_ok hc, ht⟩
    · exact .inr ⟨_, _, digest_prefix_length, ht⟩
  | reset =>
    rcases reset_cases h with ⟨-, ht⟩ | ⟨-, ht⟩
    · exact .inl ⟨_, by decide, ht⟩
    · exact .inr ⟨_, _, rfl, ht⟩
  | zeroize => exact .inr ⟨_, _, rfl, zeroize_cases h⟩
  | rdstat => exact .inr ⟨_, _, bytesLE_length _ _, rdstat_cases h⟩

theorem exec_output {i : Instr} {s t : State} {r : Response} (h : exec i s = .next t) (hr : t.resp = some r) :
    (r.rc ≠ .ok → r.out = []) ∧ (r.rc = .ok → OutputIs i s r.out) := by
  rcases exec_raise_or_respond h with ⟨c, hc, rfl⟩ | ⟨done, out, hout, rfl⟩
  · obtain rfl := Option.some.inj hr
    exact ⟨fun _ => rfl, fun hok => absurd hok hc⟩
  · obtain rfl := Option.some.inj hr
    exact ⟨fun hne => absurd rfl hne, fun _ => hout⟩

end Sys2Proof.Machine
end

section
/-! PROOFS. The expansions of ABSORB.L and of the assembler's lines. -/

namespace Sys2Proof

open Machine

/-! ABSORB.L -/

/-- The pieces of ABSORB.L, one after another, are one ABSORB, however many there are. -/
theorem execAll_absorbPieces (fuel : Nat) (m : List Byte) (s : State) :
    execAll (absorbPieces fuel m) s = exec (.absorb m) s := by
  induction fuel generalizing m s with
  | zero => exact execAll_singleton _ s
  | succ fuel ih =>
    rw [absorbPieces]
    split_ifs
    · obtain ⟨t, -, ht, -⟩ := exec_total (.absorb (m.take 65535)) s
      calc execAll (.absorb (m.take 65535) :: absorbPieces fuel (m.drop 65535)) s
          = execAll (absorbPieces fuel (m.drop 65535)) t := by simp only [execAll, ht]
        _ = exec (.absorb (m.drop 65535)) t := ih _ _
        _ = exec (.absorb m) s := by rw [exec_absorb_append ht, List.take_append_drop]
    · exact execAll_singleton _ s

theorem absorbPieces_wf {fuel : Nat} {m : List Byte} (hfuel : m.length ≤ fuel) : ∀ i ∈ absorbPieces fuel m, i.WF := by
  induction fuel generalizing m with
  | zero =>
    intro i hi
    obtain rfl := List.mem_singleton.1 hi
    rw [wf_absorb_iff]; omega
  | succ fuel ih =>
    rw [absorbPieces]
    split_ifs with hlong
    · refine List.forall_mem_cons.2 ⟨?_, ih (by simp; omega)⟩
      rw [wf_absorb_iff, List.length_take]; omega
    · refine List.forall_mem_singleton.2 ?_
      rw [wf_absorb_iff]; omega

theorem absorbLong_wf (m : List Byte) : ∀ i ∈ absorbLong m, i.WF := absorbPieces_wf le_rfl

/-! The assembler -/

/-- The commands that a line stands for, where they are known. -/
theorem wf_of_some {known is : List Instr} (hk : ∀ i ∈ known, i.WF) (h : some known = some is) : ∀ i ∈ is, i.WF :=
  Option.some.inj h ▸ hk

theorem encodable_eq_some_iff {i : Instr} {is : List Instr} : encodable i = some is ↔ i.WF ∧ [i] = is := by
  simp only [encodable]
  split_ifs with hi
  · rw [Option.some.injEq]
    exact (and_iff_right hi).symm
  · exact iff_of_false (by simp) fun h => hi h.1

theorem encodable_wf {i : Instr} {is : List Instr} (h : encodable i = some is) : ∀ j ∈ is, j.WF := by
  obtain ⟨hi, rfl⟩ := encodable_eq_some_iff.1 h
  exact List.forall_mem_singleton.2 hi

theorem hashProgram_wf (m : List Byte) : ∀ i ∈ hashProgram m, i.WF :=
  List.forall_mem_append.2 ⟨absorbLong_wf m, by decide⟩

theorem macProgram_wf {key : List Byte} (hkey : (Instr.key key).WF) (m : List Byte) : ∀ i ∈ macProgram key m, i.WF :=
  List.forall_mem_cons.2 ⟨hkey, hashProgram_wf m⟩

theorem setupSequential_wf (v : Variant) : ∀ i ∈ setupSequential v, i.WF := by
  cases v <;> decide

theorem setupParallel_wf (v : Variant) (p : BitVec 8) : ∀ i ∈ setupParallel v p, i.WF := by
  cases v <;>
    simp only [setupParallel, List.forall_mem_cons] <;>
    exact ⟨rfl, rfl, rfl, rfl, List.forall_mem_nil _⟩

theorem assembleWrcfg_wf {reg : BitVec 4} {value : Token} {is : List Instr} (h : assembleWrcfg reg value = some is) :
    ∀ i ∈ is, i.WF := by
  cases value with
  | word w =>
    have hwidth : regWidth reg.toNat ≤ 8 := by rw [regWidth_eq_ite]; split_ifs <;> omega
    simp only [assembleWrcfg] at h
    split_ifs at h
    split at h
    · obtain rfl := Option.some.inj h
      refine List.forall_mem_singleton.2 ?_
      rw [wf_wrcfg_iff, bytesLE_length]; omega
    · cases h
  | bytes value =>
    simp only [assembleWrcfg] at h
    split_ifs at h
    exact encodable_wf h
  | comma => cases h

theorem assembleBare_wf {w : List Char} {is : List Instr} (h : assembleBare w = some is) : ∀ i ∈ is, i.WF := by
  simp only [assembleBare] at h
  split_ifs at h
  all_goals
    obtain rfl := Option.some.inj h
    decide

theorem assembleBytes_wf {w : List Char} {value : List Byte} {is : List Instr} (h : assembleBytes w value = some is) :
    ∀ i ∈ is, i.WF := by
  simp only [assembleBytes] at h
  split_ifs at h
  · exact encodable_wf h
  · exact encodable_wf h
  · exact wf_of_some (absorbLong_wf value) h
  · exact wf_of_some (hashProgram_wf value) h

theorem assembleWord_wf {w arg : List Char} {is : List Instr} (h : assembleWord w arg = some is) : ∀ i ∈ is, i.WF := by
  simp only [assembleWord] at h
  split_ifs at h
  · obtain ⟨reg, -, rfl⟩ := Option.map_eq_some_iff.1 h
    exact List.forall_mem_singleton.2 rfl
  · obtain ⟨n, -, rfl⟩ := Option.map_eq_some_iff.1 h
    exact List.forall_mem_singleton.2 rfl
  · exact wf_of_some (setupSequential_wf .s) h
  · exact wf_of_some (setupSequential_wf .b) h

theorem assemblePair_wf {w arg : List Char} {value : Token} {is : List Instr} (h : assemblePair w arg value = some is) :
    ∀ i ∈ is, i.WF := by
  simp only [assemblePair] at h
  split at h
  · split at h
    · exact assembleWrcfg_wf h
    · cases h
  · repeat' split at h
    · exact wf_of_some (setupParallel_wf .s _) h
    · exact wf_of_some (setupParallel_wf .b _) h
    all_goals cases h

theorem assembleTokens_wf {ts : List Token} {is : List Instr} (h : assembleTokens ts = some is) : ∀ i ∈ is, i.WF := by
  unfold assembleTokens at h
  split at h
  · exact wf_of_some (by simp) h
  · exact assembleBare_wf h
  · exact assembleBytes_wf h
  · exact assembleWord_wf h
  · exact assemblePair_wf h
  · split_ifs at h
    split at h
    · next hkey => exact wf_of_some (macProgram_wf (encodable_eq_some_iff.1 hkey).1 _) h
    · cases h
  · cases h

theorem assembleLine_wf {line : List Char} {is : List Instr} (h : assembleLine line = some is) : ∀ i ∈ is, i.WF := by
  simp only [assembleLine] at h
  split at h
  · exact assembleTokens_wf h
  · cases h

end Sys2Proof
end

section
/-! PROOFS. The statements on the encoding, and the two on steps and responses that go with it. -/

namespace Sys2Proof.Machine

/-- Settles O2: the request of such a transaction is to run its command. -/
theorem stepRunsTheDecodedCommand : Obligations.StepRunsTheDecodedCommand := fun _ _ _ _ => step_of_decode

/-- Settles O5: each word is closed, and the decoder is run on it. -/
theorem writtenOutWordsDecode : Obligations.WrittenOutWordsDecode := by
  refine ⟨?_, ?_, ?_, ?_, ?_, ?_, ?_, ?_, ?_⟩
  all_goals decide

/-- Settles O6: the encoded word is legal, has the command's opcode and operands, and asks for its payload. -/
theorem decodeInvertsEncode : Obligations.DecodeInvertsEncode := fun _ => decode_encode

/-- Settles O7: what decodes has a length that its field holds, its command's word, and its command's payload. -/
theorem encodeInvertsDecode : Obligations.EncodeInvertsDecode := fun _ _ h =>
  ⟨wf_of_decode h, congrArg₂ Transaction.mk (encodeWord_of_decode h) (payloadOf_of_decode h)⟩

/-- Settles O8: a word belongs to the row of its opcode exactly when it is legal (`mem_opcodeRow_iff`). -/
theorem opcodeRowsDecideTheMeaning : Obligations.OpcodeRowsDecideTheMeaning := by
  refine ⟨opcodeRows_disjoint, fun t hlen => ⟨fun row hrow => ?_, ?_⟩⟩
  · simp only [request_eq_run_iff]
    exact mem_opcodeRow_iff_decode hrow hlen
  · rw [request_eq_fail_iff hlen]
    constructor
    · intro hnone i hi
      obtain ⟨row, hrow, hm⟩ := exists_opcodeRow i
      exact hnone row hrow ((mem_opcodeRow_iff_decode hrow hlen).2 ⟨i, hi, hm⟩)
    · intro hn row hrow hmem
      obtain ⟨i, hi, -⟩ := (mem_opcodeRow_iff_decode hrow hlen).1 hmem
      exact hn i hi

/-- Settles O9: in the first two cases the word decodes to no command, in the others the register file refuses the
access. -/
theorem illegalEncodingsFailAndDoNothingElse : Obligations.IllegalEncodingsFailAndDoNothingElse := by
  intro s rest t hs hlen op reg len h
  rw [← State.raise_eq_failedWith]
  rcases h with hop | hres | ⟨hop | hop, hreg⟩ | ⟨hop, hreg, hl⟩ | ⟨hop, hreg, hl⟩ | ⟨hop, hreg, b, hb, hne⟩
  · refine step_of_not_decoded hs hlen (decode_ne_ok hlen (.inl ?_))
    rwa [← opField_toNat]
  · refine step_of_not_decoded hs hlen (decode_ne_ok hlen (.inr ?_))
    rcases hres with
      ⟨hop, hne⟩ | ⟨hop, hne⟩ | ⟨hop | hop | hop | hop, hne⟩ | ⟨hop | hop, hne⟩ | ⟨hop, hne⟩
    all_goals exact legal_eq_false hop rfl hne
  · exact step_wrcfg_illegal hs hlen hop fun c => write_eq_none_of_reserved hreg
  · exact step_rdcfg_illegal hs hlen hop fun c => read_eq_none_of_reserved hreg
  · refine step_wrcfg_illegal hs hlen hop fun c => write_eq_none_of_width hreg ?_
    rwa [payload_length_of_wrcfg hlen hop, regWidth_eq_ite]
  · refine step_wrcfg_illegal hs hlen hop fun c => write_eq_none_of_long ?_ (payload_length_of_wrcfg hlen hop ▸ hl)
    change 8 ≤ reg
    omega
  · refine step_wrcfg_illegal hs hlen hop fun c => ?_
    rw [show (regField t.cw).toNat = 0 from hreg]
    exact write_eq_none_of_ctrl hb hne

/-- Settles O10, by induction on the transactions (`readStream_toBytes`). -/
theorem byteStreamReadsBack : Obligations.ByteStreamReadsBack := by
  intro ts hlen
  simp only [← toBytes_eq]
  exact readStream_toBytes hlen (length_le_flatMap_toBytes ts)

/-- Settles O11: every command of an accepted line is well-formed (`assembleLine_wf`), so O6 applies. -/
theorem assembledCommandsAreEncodable : Obligations.AssembledCommandsAreEncodable :=
  fun _ _ h i hi => decode_encode (assembleLine_wf h i hi)

/-- Settles O12, by induction on the pieces, each of which `exec_absorb_append` joins to the rest. -/
theorem absorbLongActsAsOneAbsorb : Obligations.AbsorbLongActsAsOneAbsorb :=
  fun m s => ⟨absorbLong_wf m, execAll_absorbPieces m.length m s⟩

/-- Settles O15, by the cases of each command (`exec_raise_or_respond`). -/
theorem outputOfEveryResponse : Obligations.OutputOfEveryResponse := by
  intro i s
  obtain ⟨t, r, ht, hr⟩ := exec_total i s
  have hout := exec_output ht hr
  refine ⟨t, r, ht, hr, ?_⟩
  cases i <;> exact hout

end Sys2Proof.Machine
end

section
/-! PROOFS. A round as two lists of applications of G, the rounds one after the other, and the words of a block. -/

namespace Sys2Proof.Machine

/-! Applications of G to disjoint words -/

/-- One application of G: the four places of the working vector and the two message words. -/
structure MixStep (w : Nat) where
  i : Fin 16
  j : Fin 16
  k : Fin 16
  l : Fin 16
  x : BitVec w
  y : BitVec w

namespace MixStep

variable {w : Nat}

/-- The application made in a working vector. -/
def run (rot : Rotations) (v : Vector (BitVec w) 16) (g : MixStep w) : Vector (BitVec w) 16 :=
  applyG rot v g.i g.j g.k g.l g.x g.y

/-- The places that the application reads and writes. -/
def places (g : MixStep w) : List (Fin 16) := [g.i, g.j, g.k, g.l]

/-- The words of a vector at those places. -/
def words (g : MixStep w) (v : Vector (BitVec w) 16) : BitVec w × BitVec w × BitVec w × BitVec w :=
  (v[g.i], v[g.j], v[g.k], v[g.l])

/-- G of the words of a vector at those places. -/
def mixed (rot : Rotations) (g : MixStep w) (v : Vector (BitVec w) 16) : BitVec w × BitVec w × BitVec w × BitVec w :=
  mixG rot v[g.i] v[g.j] v[g.k] v[g.l] g.x g.y

theorem notMem_places_iff {g : MixStep w} {m : Fin 16} :
    m ∉ g.places ↔ m ≠ g.i ∧ m ≠ g.j ∧ m ≠ g.k ∧ m ≠ g.l := by
  simp [places]

theorem forall_mem_places_iff {g : MixStep w} {P : Fin 16 → Prop} :
    (∀ m ∈ g.places, P m) ↔ P g.i ∧ P g.j ∧ P g.k ∧ P g.l := by
  simp [places]

theorem run_of_notMem (rot : Rotations) (v : Vector (BitVec w) 16) {g : MixStep w} {m : Fin 16} (hm : m ∉ g.places) :
    (g.run rot v)[m] = v[m] := by
  obtain ⟨hi, hj, hk, hl⟩ := notMem_places_iff.1 hm
  exact applyG_other rot hi hj hk hl

theorem words_run (rot : Rotations) (v : Vector (BitVec w) 16) {g : MixStep w} (hg : g.places.Nodup) :
    g.words (g.run rot v) = g.mixed rot v :=
  applyG_named rot v g.x g.y hg

/-- Where a word and the words read agree in two vectors, the word agrees after the application. -/
theorem run_congr (rot : Rotations) {v v' : Vector (BitVec w) 16} {g : MixStep w} {m : Fin 16}
    (hg : ∀ n ∈ g.places, v[n] = v'[n]) (hm : v[m] = v'[m]) : (g.run rot v)[m] = (g.run rot v')[m] := by
  obtain ⟨hi, hj, hk, hl⟩ := forall_mem_places_iff.1 hg
  exact applyG_congr rot hi hj hk hl hm

theorem words_congr {v v' : Vector (BitVec w) 16} {g : MixStep w} (hg : ∀ n ∈ g.places, v[n] = v'[n]) :
    g.words v = g.words v' := by
  obtain ⟨hi, hj, hk, hl⟩ := forall_mem_places_iff.1 hg
  simp only [words, hi, hj, hk, hl]

theorem mixed_congr (rot : Rotations) {v v' : Vector (BitVec w) 16} {g : MixStep w}
    (hg : ∀ n ∈ g.places, v[n] = v'[n]) : g.mixed rot v = g.mixed rot v' := by
  obtain ⟨hi, hj, hk, hl⟩ := forall_mem_places_iff.1 hg
  simp only [mixed, hi, hj, hk, hl]

/-- A word that `g'` does not touch is the same in both orders: `g` reads the same words before and after `g'`. -/
theorem run_run_of_notMem (rot : Rotations) (v : Vector (BitVec w) 16) {g g' : MixStep w}
    (hd : g.places.Disjoint g'.places) {m : Fin 16} (hm : m ∉ g'.places) :
    (g.run rot (g'.run rot v))[m] = (g'.run rot (g.run rot v))[m] :=
  calc (g.run rot (g'.run rot v))[m]
      = (g.run rot v)[m] := run_congr rot (fun _ hn => run_of_notMem rot v (hd hn)) (run_of_notMem rot v hm)
    _ = (g'.run rot (g.run rot v))[m] := (run_of_notMem rot _ hm).symm

/-- Every word is left alone by one of two disjoint applications, so their order does not matter. -/
theorem run_comm (rot : Rotations) (v : Vector (BitVec w) 16) {g g' : MixStep w} (hd : g.places.Disjoint g'.places) :
    g.run rot (g'.run rot v) = g'.run rot (g.run rot v) := by
  refine Vector.ext fun n hn => ?_
  by_cases hm : (⟨n, hn⟩ : Fin 16) ∈ g'.places
  · exact (run_run_of_notMem rot v hd.symm (hd.symm hm)).symm
  · exact run_run_of_notMem rot v hd hm

/-! A list of disjoint applications -/

theorem foldl_run_of_notMem (rot : Rotations) {gs : List (MixStep w)} {m : Fin 16} (hm : m ∉ gs.flatMap places)
    (v : Vector (BitVec w) 16) : (gs.foldl (run rot) v)[m] = v[m] := by
  induction gs generalizing v with
  | nil => rfl
  | cons g gs ih =>
    rw [List.flatMap_cons, List.mem_append, not_or] at hm
    rw [List.foldl_cons, ih hm.2, run_of_notMem rot v hm.1]

/-- After applications to disjoint words, the places of each hold G of the words that stood there at first. -/
theorem words_foldl_run (rot : Rotations) {gs : List (MixStep w)} (hgs : (gs.flatMap places).Nodup) {g : MixStep w}
    (hg : g ∈ gs) (v : Vector (BitVec w) 16) : g.words (gs.foldl (run rot) v) = g.mixed rot v := by
  induction gs generalizing v with
  | nil => cases hg
  | cons g₀ gs ih =>
    rw [List.flatMap_cons, List.nodup_append'] at hgs
    obtain ⟨hg₀, htail, hd⟩ := hgs
    rw [List.foldl_cons]
    rcases List.mem_cons.1 hg with rfl | hmem
    · rw [words_congr fun n hn => foldl_run_of_notMem rot (hd hn) _, words_run rot v hg₀]
    · rw [ih htail hmem]
      exact mixed_congr rot fun n hn => run_of_notMem rot v fun h => hd h (List.mem_flatMap.2 ⟨g, hmem, hn⟩)

end MixStep

/-! One round (40_compression.md R105) -/

section
variable {w : Nat} (m : Vector (BitVec w) 16) (r : Nat)

/-- Column j of round r. -/
def columnStep (j : Fin 4) : MixStep w :=
  { i := ⟨j.val, by omega⟩
    j := ⟨j.val + 4, by omega⟩
    k := ⟨j.val + 8, by omega⟩
    l := ⟨j.val + 12, by omega⟩
    x := m[(sigmaRow r)[2 * j.val]]
    y := m[(sigmaRow r)[2 * j.val + 1]] }

/-- Diagonal j of round r. -/
def diagonalStep (j : Fin 4) : MixStep w :=
  { i := ⟨j.val, by omega⟩
    j := ⟨(j.val + 1) % 4 + 4, by omega⟩
    k := ⟨(j.val + 2) % 4 + 8, by omega⟩
    l := ⟨(j.val + 3) % 4 + 12, by omega⟩
    x := m[(sigmaRow r)[2 * j.val + 8]]
    y := m[(sigmaRow r)[2 * j.val + 9]] }

/-- The working vector between the columns and the diagonals of a round. -/
def afterColumns (rot : Rotations) (v : Vector (BitVec w) 16) : Vector (BitVec w) 16 :=
  (List.ofFn (columnStep m r)).foldl (MixStep.run rot) v

theorem compressionRound_eq_foldl (rot : Rotations) (v : Vector (BitVec w) 16) :
    compressionRound rot m v r = (List.ofFn (diagonalStep m r)).foldl (MixStep.run rot) (afterColumns m r rot v) := rfl

theorem columnStep_places :
    (List.ofFn (columnStep m r)).flatMap MixStep.places = [0, 4, 8, 12, 1, 5, 9, 13, 2, 6, 10, 14, 3, 7, 11, 15] := rfl

theorem diagonalStep_places :
    (List.ofFn (diagonalStep m r)).flatMap MixStep.places =
      [0, 5, 10, 15, 1, 6, 11, 12, 2, 7, 8, 13, 3, 4, 9, 14] := rfl

/-- The columns of a round take the words of the vector before the round. -/
theorem columnStep_words (rot : Rotations) (v : Vector (BitVec w) 16) (j : Fin 4) :
    (columnStep m r j).words (afterColumns m r rot v) = (columnStep m r j).mixed rot v :=
  MixStep.words_foldl_run rot (columnStep_places m r ▸ by decide) (List.mem_ofFn.2 ⟨j, rfl⟩) v

/-- The diagonals of a round take the words that the columns leave. -/
theorem diagonalStep_words (rot : Rotations) (v : Vector (BitVec w) 16) (j : Fin 4) :
    (diagonalStep m r j).words (compressionRound rot m v r) =
      (diagonalStep m r j).mixed rot (afterColumns m r rot v) :=
  MixStep.words_foldl_run rot (diagonalStep_places m r ▸ by decide) (List.mem_ofFn.2 ⟨j, rfl⟩) _

end

/-- An entry of the schedule written out as lists (40_compression.md R102, R103). -/
theorem schedule_getD (r : Nat) {n : Nat} (hn : n < 16) :
    ((sigma.toList.map Vector.toList).getD (r % 10) []).getD n 0 = (sigmaRow r)[n] := by
  have hr : r % 10 < 10 := Nat.mod_lt r (by decide)
  simp [sigmaRow, hr, hn]

/-! The rounds of one compression (40_compression.md R108) -/

/-- The working vector after the first n rounds. -/
def afterRounds (v : Variant) (m w : Vector (CoreWord v) 16) (n : Nat) : Vector (CoreWord v) 16 :=
  (List.range n).foldl (compressionRound v.rotations m) w

theorem allRounds_eq (v : Variant) (m w : Vector (CoreWord v) 16) : allRounds v m w = afterRounds v m w v.rounds := rfl

theorem afterRounds_succ (v : Variant) (m w : Vector (CoreWord v) 16) (n : Nat) :
    afterRounds v m w (n + 1) = compressionRound v.rotations m (afterRounds v m w n) n := by
  rw [afterRounds, List.range_succ, List.foldl_append]
  rfl

theorem compress_getElem (v : Variant) (h : Vector (CoreWord v) 8) (t0 t1 f0 f1 : CoreWord v) (block : List Byte)
    (i : Fin 8) :
    let w := afterRounds v (messageWords v block) (workingVector v h t0 t1 f0 f1) v.rounds
    (compress v h t0 t1 f0 f1 block)[i] = h[i] ^^^ w[i.val] ^^^ w[i.val + 8] := by
  simp [compress, allRounds_eq]

/-! The words of the working vector before round 0 (40_compression.md R107) -/

theorem workingVector_chain (v : Variant) (h : Vector (CoreWord v) 8) (t0 t1 f0 f1 : CoreWord v) (i : Fin 8) :
    (workingVector v h t0 t1 f0 f1)[i.val] = h[i] := by
  fin_cases i <;> rfl

theorem workingVector_iv (v : Variant) (h : Vector (CoreWord v) 8) (t0 t1 f0 f1 : CoreWord v) (i : Fin 4) :
    (workingVector v h t0 t1 f0 f1)[i.val + 8] = (iv v)[i.val] := by
  fin_cases i <;> rfl

/-! The message words of a block (40_compression.md R106) -/

/-- Piece j of a byte string cut into pieces of n bytes. -/
theorem slice_eq_take_drop (s : List Byte) (j n : Nat) :
    slice s (j * n) ((j + 1) * n) = (s.drop (j * n)).take n := by
  rw [slice, List.drop_take]
  congr 1
  rw [Nat.succ_mul]; omega

theorem messageWords_getElem (v : Variant) (block : List Byte) (j : Fin 16) :
    (messageWords v block)[j] = leWord v ((block.drop (j.val * v.wordBytes)).take v.wordBytes) := by
  rw [← slice_eq_take_drop]
  exact Vector.getElem_ofFn j.isLt

end Sys2Proof.Machine
end

section
/-! PROOFS. The statements on the compression core. -/

namespace Sys2Proof.Machine

/-- Settles O46: the sequence is the working vector after each number of rounds (`afterRounds`). -/
theorem compressRunsEveryRound : Obligations.CompressRunsEveryRound := by
  intro v h t0 t1 f0 f1 block rounds
  have hrounds : rounds = v.rounds := by cases v <;> rfl
  refine ⟨afterRounds v (messageWords v block) (workingVector v h t0 t1 f0 f1), workingVector_chain v h t0 t1 f0 f1,
    workingVector_iv v h t0 t1 f0 f1, rfl, rfl, rfl, rfl, fun r _ => afterRounds_succ _ _ _ r, fun i => ?_⟩
  rw [hrounds]
  exact compress_getElem v h t0 t1 f0 f1 block i

/-- Settles O48: each word is left alone by one of the two applications (`MixStep.run_comm`). -/
theorem disjointApplicationsCommute : Obligations.DisjointApplicationsCommute := by
  intro w rot v i j k l i' j' k' l' x y x' y' hnodup
  have hd : [i, j, k, l].Disjoint [i', j', k', l'] := List.disjoint_of_nodup_append hnodup
  exact (MixStep.run_comm rot v (g := ⟨i, j, k, l, x, y⟩) (g' := ⟨i', j', k', l', x', y'⟩) hd).symm

/-- Settles O57: the vector in the middle is the one after the columns; columns and diagonals are each four applications
to disjoint words. -/
theorem roundWrittenOut : Obligations.RoundWrittenOut := by
  refine ⟨fun v a b c d x y => by cases v <;> rfl, fun v m w r => ?_⟩
  intro schedule word done
  have hword : ∀ n (hn : n < 16), word n = m[(sigmaRow r)[n]] := fun n hn =>
    congrArg (fun p : Fin 16 => m[p]) (schedule_getD r hn)
  refine ⟨afterColumns m r v.rotations w, fun j => ?_, fun j => ?_⟩
  · rw [hword _ (by omega), hword _ (by omega)]
    exact columnStep_words m r v.rotations w j
  · rw [hword _ (by omega), hword _ (by omega)]
    exact diagonalStep_words m r v.rotations w j

/-- Settles O58: a message word is the little-endian word of its piece of the block, byte by byte. -/
theorem messageWordsAreLittleEndian : Obligations.MessageWordsAreLittleEndian := by
  constructor
  · intro block j b0 b1 b2 b3 h
    rw [messageWords_getElem, Variant.wordBytes, h]
    exact leNat_four b0 b1 b2 b3
  · intro block j b0 b1 b2 b3 b4 b5 b6 b7 h
    rw [messageWords_getElem, Variant.wordBytes, h]
    exact leNat_eight b0 b1 b2 b3 b4 b5 b6 b7

/-- Settles O45: the tables are closed, and each row is searched for each index. -/
theorem constantTablesAreConsistent : Obligations.ConstantTablesAreConsistent := by
  refine ⟨rfl, ?_, ?_⟩
  · decide
  · decide

/-- Settles O47: both examples are closed, and the model is run on them. -/
theorem compressionWorkedExamples : Obligations.CompressionWorkedExamples := by
  refine ⟨?_, ?_⟩
  · decide +kernel
  · decide +kernel

end Sys2Proof.Machine
end

section
/-! PROOFS. The parameter block as a sequence of pieces, the node that NodeInit makes of it, the counter read by its two
words, and the codes a command can answer. -/

namespace Sys2Proof.Machine

/-! The parameter block (41_block_state.md R121, R122) -/

/-- The reserved zero bytes before the salt: 14 in variant B, none in variant S. -/
def reservedBytes : Variant → Nat
  | .s => 0
  | .b => 14

/-- The parameter block cut at the lines of the two layout tables; in variant S the reserved piece is empty. -/
def paramPieces (v : Variant) (p : ParamFields) : List (List Byte) :=
  [[p.dl, p.kl, p.fanout, p.depth], bytesLE 4 p.leafLen.toNat, bytesLE v.offsetBytes p.nodeOffset.toNat,
    [p.nodeDepth, p.innerLen], zeros (reservedBytes v), p.salt, p.personal]

/-- The lengths of those pieces. -/
def pieceLengths (v : Variant) : List Nat :=
  [4, 4, v.offsetBytes, 2, reservedBytes v, v.saltBytes, v.saltBytes]

theorem paramBlock_eq_flatten (v : Variant) (p : ParamFields) : paramBlock v p = (paramPieces v p).flatten := by
  cases v <;> simp [paramBlock, paramPieces, reservedBytes, zeros]

section
variable {v : Variant} {p : ParamFields} (hs : p.salt.length = v.saltBytes) (hp : p.personal.length = v.saltBytes)
include hs hp

theorem paramPieces_lengths : (paramPieces v p).map List.length = pieceLengths v := by
  simp [paramPieces, pieceLengths, hs, hp]

theorem paramBlock_length : (paramBlock v p).length = (pieceLengths v).sum := by
  rw [paramBlock_eq_flatten, List.length_flatten, paramPieces_lengths hs hp]

/-- Piece i stands after the pieces before it. -/
theorem slice_paramBlock (i : Fin 7) : slice (paramBlock v p) ((pieceLengths v).take i).sum
    ((pieceLengths v).take (i + 1)).sum = (paramPieces v p)[i.val]'i.isLt := by
  rw [slice, paramBlock_eq_flatten, ← paramPieces_lengths hs hp]
  exact List.drop_take_succ_flatten_eq_getElem _ _ _

end

/-! The chaining value of a fresh node (41_block_state.md R123, R124) -/

theorem nodeInit_h_getElem (v : Variant) (pb : List Byte) (i : Fin 8) : (nodeInit v pb).h[i] =
    toCell v ((iv v)[i] ^^^ leWord v ((pb.drop (i.val * v.wordBytes)).take v.wordBytes)) := by
  rw [← slice_eq_take_drop]
  exact Vector.getElem_ofFn i.isLt

/-! The counter by its words (41_block_state.md R125) -/

/-- A low word of W bits is the counter modulo 2^W. -/
theorem counter_mod {v : Variant} {n : Node} (h : CellFits v n.t0) : n.counter v % 2 ^ v.wordBits = n.t0.toNat := by
  rw [Node.counter, Nat.add_mul_mod_self_left, Nat.mod_eq_of_lt h]

/-- The high word above a low word of W bits is the counter divided by 2^W. -/
theorem counter_div {v : Variant} {n : Node} (h : CellFits v n.t0) : n.counter v / 2 ^ v.wordBits = n.t1.toNat := by
  rw [Node.counter, Nat.add_mul_div_left _ _ (Nat.two_pow_pos _), Nat.div_eq_of_lt h, Nat.zero_add]

/-! Flags set by a condition (41_block_state.md R126) -/

theorem flagWord_and (v : Variant) (a b : Bool) : flagWord v (a && b) = if a = true ∧ b = true then v.ones else 0 := by
  simp [flagWord]

theorem coreFlag_and (v : Variant) (a b : Bool) :
    coreFlag v (a && b) = if a = true ∧ b = true then BitVec.allOnes v.wordBits else 0 := by
  simp [coreFlag]

/-! The one check that answers E_KEY_BLOCK (41_block_state.md R128) -/

theorem keyCheck_keyBlock {s : State} {n : Nat} (h : keyCheck s n = some .keyBlock) :
    s.fsm ≠ .unconfigured ∧ n ≤ s.act.variant.keyBytes ∧
      s.act.variant.blockBytes < n + s.act.salt.len + s.act.personal.len := by
  simp only [keyCheck] at h
  split_ifs at h with hu hk hb
  · cases h
  · exact ⟨hu, hk.2, hb⟩
  · cases h

/-- Key, salt and personalization of full length fit in one block. -/
theorem keyBytes_add_saltBytes_le (v : Variant) : v.keyBytes + 2 * v.saltBytes ≤ v.blockBytes := by
  cases v <;> decide

theorem keyCheck_ne_keyBlock {s : State} (hs : Inv s) (n : Nat) : keyCheck s n ≠ some .keyBlock := by
  intro h
  obtain ⟨hu, hn, hlong⟩ := keyCheck_keyBlock h
  obtain ⟨-, hsalt⟩ := (hs.act hu).salt
  obtain ⟨-, hpersonal⟩ := (hs.act hu).personal
  have hfit := keyBytes_add_saltBytes_le s.act.variant
  omega

theorem finalCheck_ne_keyBlock (s : State) (n : Nat) : finalCheck s n ≠ some .keyBlock := by
  intro h
  rcases finalCheck_cases h with ⟨-, hc⟩ | ⟨-, -, hc⟩ <;> cases hc

/-- Only the check of KEY gives the answer E_KEY_BLOCK. -/
theorem exec_keyBlock {i : Instr} {s t : State} {out : List Byte} (h : exec i s = .next t)
    (hr : t.resp = some ⟨.keyBlock, out⟩) : ∃ key, i = .key key ∧ keyCheck s key.length = some .keyBlock := by
  cases i with
  | wrcfg reg payload => rcases wrcfg_cases h with ⟨_, rfl⟩ | ⟨_, _, rfl⟩ <;> simp at hr
  | rdcfg reg => rcases rdcfg_cases h with ⟨_, rfl⟩ | ⟨_, _, rfl⟩ <;> simp at hr
  | init =>
    rcases init_cases h with ⟨c, hc, rfl⟩ | ⟨_, rfl⟩
    · obtain ⟨-, -, hne⟩ := initCheck_ne_ok hc
      simp [hne] at hr
    · simp at hr
  | key key =>
    rcases key_cases h with ⟨c, hc, rfl⟩ | ⟨_, rfl⟩
    · obtain ⟨rfl, -⟩ : c = .keyBlock ∧ [] = out := by simpa using hr
      exact ⟨key, rfl, hc⟩
    · simp at hr
  | absorb payload => rcases absorb_cases h with ⟨_, rfl⟩ | ⟨_, rfl⟩ <;> simp at hr
  | final olen =>
    rcases final_cases h with ⟨c, hc, rfl⟩ | ⟨_, rfl⟩
    · obtain ⟨rfl, -⟩ : c = .keyBlock ∧ [] = out := by simpa using hr
      exact absurd hc (finalCheck_ne_keyBlock s _)
    · simp at hr
  | reset => rcases reset_cases h with ⟨_, rfl⟩ | ⟨_, rfl⟩ <;> simp at hr
  | zeroize => rw [zeroize_cases h] at hr; simp at hr
  | rdstat => rw [rdstat_cases h] at hr; simp at hr

end Sys2Proof.Machine
end

section
/-! PROOFS. The statements on the block state manager and on what its nodes and its key check admit. -/

namespace Sys2Proof.Machine

/-- Settles O41: each field is a piece of the block, at the sum of the lengths before it (`slice_paramBlock`). -/
theorem parameterBlockLayout : Obligations.ParameterBlockLayout := by
  intro p ll
  have hll : bytesLE 4 p.leafLen.toNat = ll := bytesLE_eq_extract 32 4 p.leafLen
  have hoffset (n : Nat) := bytesLE_eq_extract 64 n p.nodeOffset
  constructor
  · intro hs hp pb
    have piece := slice_paramBlock (v := .b) hs hp
    exact ⟨paramBlock_length (v := .b) hs hp, piece 0, (piece 1).trans hll, (piece 2).trans (hoffset 8), piece 3,
      piece 4, piece 5, piece 6⟩
  · intro hs hp pb
    have piece := slice_paramBlock (v := .s) hs hp
    exact ⟨paramBlock_length (v := .s) hs hp, piece 0, (piece 1).trans hll, (piece 2).trans (hoffset 6), piece 3,
      piece 5, piece 6⟩

/-- Settles O42: word by word, each word byte by byte; the examples are closed, and the model is run on them. -/
theorem nodeInitXorsTheParameterWords : Obligations.NodeInitXorsTheParameterWords := by
  refine ⟨?_, ?_, fun _ _ => ⟨rfl, rfl, rfl, rfl⟩, ?_⟩
  · intro pb i b0 b1 b2 b3 h
    rw [nodeInit_h_getElem, Variant.wordBytes, h, ← leNat_four]
    rfl
  · intro pb i b0 b1 b2 b3 b4 b5 b6 b7 h
    rw [nodeInit_h_getElem, Variant.wordBytes, h, ← leNat_eight]
    exact BitVec.setWidth_eq _
  · decide +kernel

/-- Settles O43: the counter is advanced modulo 2^(2W), and both words left are of W bits. -/
theorem counterAddsWithCarryAndWraps : Obligations.CounterAddsWithCarryAndWraps := by
  intro v k n t
  obtain ⟨hlow, -⟩ := ctrAdd_fits v k n
  have ht : (ctrAdd v k n).counter v = t := ctrAdd_counter v k n
  exact ⟨ht ▸ (counter_mod hlow).symm, ht ▸ (counter_div hlow).symm, rfl, rfl, rfl⟩

/-- Settles O44, field by field. -/
theorem nodeCompressCountsFlagsThenCompresses : Obligations.NodeCompressCountsFlagsThenCompresses := by
  intro v n s final last _ c r
  refine ⟨rfl, rfl, rfl, flagWord_and v final last, ?_⟩
  rw [nodeCompress_h, coreFlag_and]
  rfl

/-- Settles O55: no engine runs, so ABSORB and FINAL fail; the register commands write no node. -/
theorem finalizedNodesAreKept : Obligations.FinalizedNodesAreKept := by
  intro i s t hf h hi
  have hrun : running s = false := not_running_iff.2 (.inr hf)
  cases i with
  | wrcfg reg payload => rcases wrcfg_cases h with ⟨_, rfl⟩ | ⟨_, _, rfl⟩ <;> exact ⟨hf, rfl, rfl⟩
  | rdcfg reg => rcases rdcfg_cases h with ⟨_, rfl⟩ | ⟨_, _, rfl⟩ <;> exact ⟨hf, rfl, rfl⟩
  | init => exact hi.elim
  | key key => exact hi.elim
  | absorb payload =>
    rcases absorb_cases h with ⟨_, rfl⟩ | ⟨hr, _⟩
    · exact ⟨hf, rfl, rfl⟩
    · exact absurd hr (by simp [hrun])
  | final olen =>
    rcases final_cases h with ⟨_, _, rfl⟩ | ⟨hc, _⟩
    · exact ⟨hf, rfl, rfl⟩
    · exact absurd (finalCheck_none hc).1 (by simp [hrun])
  | reset => exact hi.elim
  | zeroize => exact hi.elim
  | rdstat => rw [rdstat_cases h]; exact ⟨hf, rfl, rfl⟩

/-- Settles O56: only KEY could answer it, and full-length key, salt and personalization fit in one block. -/
theorem keyBlockErrorIsUnreachable : Obligations.KeyBlockErrorIsUnreachable := by
  rintro i s t ⟨rc, out⟩ hs h hr (rfl : rc = .keyBlock)
  obtain ⟨key, -, hkey⟩ := exec_keyBlock h hr
  exact keyCheck_ne_keyBlock hs key.length hkey

end Sys2Proof.Machine
end

section
/-! PROOFS. What the engine's operations are in each mode, what a successful start leaves, and a run of ABSORBs ended by
FINAL. -/

namespace Sys2Proof.Machine

/-! The sequential branch of each operation of the engine -/

theorem engineStart_of_sequential {s : State} (hm : s.act.mode = .sequential) (key : List Byte) :
    engineStart key s = seqStart key { s with act := { s.act with kl := BitVec.ofNat 8 key.length } } := by
  simp only [engineStart, hm]

theorem absorbBytes_of_sequential {s : State} (hm : s.act.mode = .sequential) (payload : List Byte) :
    absorbBytes payload s =
      { s with
        node := (seqAbsorb s.act.variant ⟨s.node, s.buf⟩ payload).node
        buf := (seqAbsorb s.act.variant ⟨s.node, s.buf⟩ payload).buf } := by
  simp only [absorbBytes, hm]

theorem finishEngine_of_sequential {s : State} (hm : s.act.mode = .sequential) :
    finishEngine s =
      { s with node := (seqFinal s.act.variant ⟨s.node, s.buf⟩ s.act.lastNode).node, buf := [] } := by
  simp only [finishEngine, hm, seqFinal]

/-! The parallel branch of absorbing -/

theorem absorbBytes_of_parallel {s : State} (hm : s.act.mode = .parallel) (payload : List Byte) :
    absorbBytes payload s =
      { s with
        lanes := (parAbsorb s.act.variant s.act.laneCount ⟨s.lanes, s.sb⟩ payload).lanes
        sb := (parAbsorb s.act.variant s.act.laneCount ⟨s.lanes, s.sb⟩ payload).sb } := by
  simp only [absorbBytes, hm]

theorem absorbBytes_nil (s : State) : absorbBytes [] s = s := by
  cases hm : s.act.mode with
  | sequential => rw [absorbBytes_of_sequential hm, seqAbsorb_nil]
  | parallel => rw [absorbBytes_of_parallel hm, parAbsorb_nil]

/-! The operands of a start -/

/-- A key that fits the engine has a length that KL holds in its 8 bits. -/
theorem toNat_keyLength {v : Variant} {key : List Byte} (h : key.length ≤ v.keyBytes) :
    (BitVec.ofNat 8 key.length).toNat = key.length := by
  have hmax : v.keyBytes ≤ 64 := by cases v <;> decide
  rw [BitVec.toNat_ofNat]
  exact Nat.mod_eq_of_lt (by omega)

theorem ByteStore.field_eq_take (v : Variant) (b : ByteStore) : b.field v = b.bytes.toList.take v.saltBytes :=
  slice_zero _ _

/-! A successful start (45_commands.md R205, R206, R209) -/

theorem rc_eq_ok_of_raise {s : State} {c : ResultCode} {out : List Byte} (h : (s.raise c).resp = some ⟨.ok, out⟩) :
    c = .ok :=
  congrArg Response.rc (Option.some.inj h)

/-- A start that succeeds is an engine start with a key that fits, and leaves the engine running. -/
theorem start_of_success {start : Instr} {key : List Byte} {s t : State}
    (hstart : start = .init ∧ key = [] ∨ start = .reset ∧ key = [] ∨ start = .key key) (h : exec start s = .next t)
    (hr : t.resp = some ⟨.ok, []⟩) : ∃ (base : State) (f : Fsm), (f = .empty ∨ f = .buffering) ∧
      key.length ≤ base.act.variant.keyBytes ∧
      t = State.respond { engineStart key base with fsm := f, errCode := .ok } [] := by
  rcases hstart with ⟨rfl, rfl⟩ | ⟨rfl, rfl⟩ | rfl
  · rcases init_cases h with ⟨c, hc, rfl⟩ | ⟨_, ht⟩
    · exact absurd (rc_eq_ok_of_raise hr) (initCheck_ne_ok hc).1
    · exact ⟨_, _, .inl rfl, Nat.zero_le _, ht⟩
  · rcases reset_cases h with ⟨_, rfl⟩ | ⟨_, ht⟩
    · exact absurd (rc_eq_ok_of_raise hr) (by decide)
    · exact ⟨_, _, .inl rfl, Nat.zero_le _, ht⟩
  · rcases key_cases h with ⟨c, hc, rfl⟩ | ⟨hc, ht⟩
    · exact absurd (rc_eq_ok_of_raise hr) (keyCheck_ne_ok hc).1
    · exact ⟨_, _, .inr rfl, (keyCheck_none hc).2.2, ht⟩

/-! ABSORBs one after another, then FINAL -/

/-- Finishing reads none of the FSM, ERRCODE and the response, and leaves them alone. -/
theorem finishEngine_update (s : State) (f : Fsm) (c : ResultCode) (r : Option Response) :
    finishEngine { s with fsm := f, errCode := c, resp := r } =
      { finishEngine s with fsm := f, errCode := c, resp := r } := by
  simp only [finishEngine]
  split <;> rfl

/-- What an ABSORB writes beside the engine does not reach the final node. -/
theorem finishEngine_absorbBytes_node (q : List Byte) (s : State) (f : Fsm) (c : ResultCode) (r : Option Response) :
    (finishEngine (absorbBytes q { s with fsm := f, errCode := c, resp := r })).node =
      (finishEngine (absorbBytes q s)).node := by
  rw [absorbBytes_update, finishEngine_update]

/-- ABSORB while the engine runs: it still runs, under the same parameters, and whatever follows takes the payload as
a part of its own. -/
theorem absorb_running_next {s : State} (hs : s.fsm = .empty ∨ s.fsm = .buffering) (p : List Byte) :
    ∃ t, exec (.absorb p) s = .next t ∧ (t.fsm = .empty ∨ t.fsm = .buffering) ∧ t.act = s.act ∧
      ∀ q, (finishEngine (absorbBytes q t)).node = (finishEngine (absorbBytes (p ++ q) s)).node := by
  refine ⟨_, absorb_running hs, ?_, absorbBytes_act p s, fun q => ?_⟩
  · rw [State.respond_fsm]
    split
    · exact .inr rfl
    · exact hs
  · rw [absorbBytes_append]
    exact finishEngine_absorbBytes_node q (absorbBytes p s) _ _ _

/-- The response of FINAL after a list of ABSORBs depends on their payloads taken together. -/
theorem execAll_absorbs_final {s : State} {olen : BitVec 8} (hs : s.fsm = .empty ∨ s.fsm = .buffering)
    (hd : s.act.dl.toNat ≤ olen.toNat) (payloads : List (List Byte)) :
    ∃ t, execAll (payloads.map Instr.absorb ++ [.final olen]) s = .next t ∧ t.resp = some ⟨.ok,
      (nodeDigest s.act.variant (finishEngine (absorbBytes payloads.flatten s)).node).take s.act.dl.toNat⟩ := by
  induction payloads generalizing s with
  | nil =>
    refine ⟨_, (execAll_singleton _ s).trans (final_running hs hd), ?_⟩
    rw [State.respond_resp, slice_zero, List.flatten_nil, absorbBytes_nil]
  | cons p ps ih =>
    obtain ⟨s', habsorb, hs', hact, hnode⟩ := absorb_running_next hs p
    obtain ⟨t, ht, hresp⟩ := ih hs' (hact ▸ hd)
    refine ⟨t, ?_, ?_⟩
    · rw [List.map_cons, List.cons_append, execAll, habsorb]
      exact ht
    · rw [hresp, hact, hnode, List.flatten_cons]

/-- The digest of an engine that has taken in D and then absorbs a message. -/
theorem sequential_digest {s : State} {pblock d : List Byte} (hm : s.act.mode = .sequential)
    (h : SeqEngine.Holds s.act.variant pblock d ⟨s.node, s.buf⟩) (message : List Byte) :
    nodeDigest s.act.variant (finishEngine (absorbBytes message s)).node =
      closedHash s.act.variant pblock (d ++ message) s.act.lastNode := by
  rw [finishEngine_of_sequential (by simpa using hm), absorbBytes_of_sequential hm]
  exact seqFinal_digest (seqAbsorb_holds h message) _

end Sys2Proof.Machine
end

section
/-! PROOFS. The statements on the sequential engine, and the one on what absorbing leaves resident in both modes. -/

namespace Sys2Proof.Machine

/-- Settles O26: the start is `seqStart` under the new KL; the statement's fields are those of SeqPB written out. -/
theorem sequentialStartLoadsNodeAndKeyBlock : Obligations.SequentialStartLoadsNodeAndKeyBlock := by
  intro s key hm hk v kl fields
  have hfields : seqFields { s.act with kl := kl } kl = fields := by
    simp only [seqFields, ByteStore.field_eq_take]
    rfl
  refine ⟨toNat_keyLength hk, ?_⟩
  rw [engineStart_of_sequential hm, ← hfields]
  rfl

/-- Settles O30, by the two cases of one byte. -/
theorem absorbOneByteSequential : Obligations.AbsorbOneByteSequential := by
  intro s b hs hm
  have hone : seqAbsorb s.act.variant ⟨s.node, s.buf⟩ [b] = seqAbsorbByte s.act.variant ⟨s.node, s.buf⟩ b := rfl
  rw [absorb_running hs, absorbBytes_of_sequential hm, hone]
  rcases seqAbsorbByte_cases s.act.variant ⟨s.node, s.buf⟩ b with ⟨hfull, he⟩ | ⟨hfull, he⟩
  · rw [he, if_pos hfull]
    rfl
  · rw [he, if_neg hfull]
    rfl

/-- Settles O34: the bounds and the counts are those of `seqAbsorb` and of `parAbsorb`. -/
theorem lastBlockStaysResident : Obligations.LastBlockStaysResident := by
  intro s t payload hs hne h v p wrap
  rw [absorb_running hs] at h
  obtain rfl := Host.Outcome.next.inj h
  constructor
  · intro hm hle
    rw [absorbBytes_of_sequential hm]
    exact ⟨List.length_pos_of_ne_nil (seqAbsorb_buf_ne_nil v ⟨s.node, s.buf⟩ hne),
      seqAbsorb_buf_le v ⟨s.node, s.buf⟩ payload hle, seqAbsorb_count v ⟨s.node, s.buf⟩ payload⟩
  · intro hm hlt
    rw [absorbBytes_of_parallel hm]
    obtain ⟨batches, hcount, hge, hlanes⟩ := parAbsorb_count v p ⟨s.lanes, s.sb⟩ payload hlt
    exact ⟨batches, hcount, List.length_pos_of_ne_nil (parAbsorb_sb_ne_nil v p ⟨s.lanes, s.sb⟩ hne),
      parAbsorb_sb_lt v p ⟨s.lanes, s.sb⟩ payload hlt, hge, hlanes⟩

/-- Settles O36: the digest is H, each word little-endian (`bytesLE_eq_extract`). -/
theorem finalOutputsTheSequentialDigest : Obligations.FinalOutputsTheSequentialDigest := by
  intro s olen hs hm hd v node
  have hdigest : nodeDigest v node = node.h.toList.flatMap fun x =>
      (List.range v.wordBytes).map fun k => x.extractLsb' (8 * k) 8 := by
    simp only [nodeDigest, bytesLE_eq_extract]
  rw [final_running hs hd, finishEngine_of_sequential hm, slice_zero, ← hdigest]
  rfl

/-- Settles O39: the start leaves the key block held (`holds_start`), and ABSORBs add their payloads to it. -/
theorem sequentialDigestIsTheClosedForm : Obligations.SequentialDigestIsTheClosedForm := by
  intro start key s s0 payloads olen hstart h hr hm hd
  obtain ⟨base, f, hf, hk, rfl⟩ := start_of_success hstart h hr
  have hmode : base.act.mode = .sequential := by simpa using hm
  obtain ⟨t, ht, hresp⟩ := execAll_absorbs_final hf hd payloads
  refine ⟨t, ht, ?_⟩
  rw [hresp, sequential_digest hm]
  rw [engineStart_of_sequential hmode]
  exact holds_start (keyBlock_length_le hk)

end Sys2Proof.Machine
end

section
/-! PROOFS. The parallel branch of the engine's operations: the lanes a start loads, one byte, a batch and the
finalization of a lane, and the digest of the tree. -/

namespace Sys2Proof.Machine

/-! The parallel branch of starting, of finishing and of one byte -/

theorem engineStart_of_parallel {s : State} (hm : s.act.mode = .parallel) (key : List Byte) :
    engineStart key s = parStart key { s with act := { s.act with kl := BitVec.ofNat 8 key.length } } := by
  simp only [engineStart, hm]

/-- The root that ParFinal leaves in NODE (44_parallel_engine.md R171). -/
def rootNode (s : State) : Node :=
  (rootEngine s.act.variant (rootParamBlock s.act) (laneDigests s.act.variant s.act.laneCount
    (finalizeLanes s.act.variant s.act.laneCount ⟨s.lanes, s.sb⟩))).node

theorem finishEngine_of_parallel {s : State} (hm : s.act.mode = .parallel) :
    finishEngine s =
      { s with
        lanes := finalizeLanes s.act.variant s.act.laneCount ⟨s.lanes, s.sb⟩
        sb := [], node := rootNode s, buf := [] } := by
  simp only [finishEngine, hm, rootNode, rootEngine, seqFinal]

/-- ABSORB of one byte while the engine runs. -/
theorem absorb_byte_of_parallel {s : State} (hs : s.fsm = .empty ∨ s.fsm = .buffering) (hm : s.act.mode = .parallel)
    (b : Byte) : exec (.absorb [b]) s = .next
      { s with
        lanes := (parAbsorbByte s.act.variant s.act.laneCount ⟨s.lanes, s.sb⟩ b).lanes
        sb := (parAbsorbByte s.act.variant s.act.laneCount ⟨s.lanes, s.sb⟩ b).sb
        fsm := .buffering, errCode := .ok, resp := some ⟨.ok, []⟩ } := by
  rw [absorb_running hs, absorbBytes_of_parallel hm]
  rfl

/-! The lanes a start loads (44_parallel_engine.md R161, R162) -/

/-- The fields of LanePB(i, kl), and of RootPB, with the salt and the personalization as bytes of their stores. -/
theorem treeFields_eq (a : Act) (kl : BitVec 8) (offset : BitVec 64) (depth : BitVec 8) :
    treeFields a kl offset depth = ⟨a.dl, kl, a.fanout, 2, 0, offset, depth, BitVec.ofNat 8 a.variant.digestBytes,
      a.salt.bytes.toList.take a.variant.saltBytes, a.personal.bytes.toList.take a.variant.saltBytes⟩ := by
  simp only [treeFields, ByteStore.field_eq_take]

theorem parStart_lanes_length {s : State} (hp : s.act.laneCount ≤ s.lanesMax) (key : List Byte) :
    (parStart key s).lanes.length = s.lanesMax := by
  simp [hp]

theorem parStart_lane_used {s : State} {i : Nat} (hi : i < s.act.laneCount) (key : List Byte) :
    (parStart key s).lanes[i]? =
      some (nodeInit s.act.variant (laneParamBlock s.act i (BitVec.ofNat 8 key.length))) := by
  rw [parStart_lanes, List.getElem?_append_left (by simpa using hi)]
  simp [hi]

theorem parStart_lane_unused {s : State} {i : Nat} (hp : s.act.laneCount ≤ i) (hi : i < s.lanesMax)
    (key : List Byte) : (parStart key s).lanes[i]? = some Node.zero := by
  rw [parStart_lanes, List.getElem?_append_right (by simpa using hp), List.getElem?_replicate, if_pos]
  simp only [List.length_map, List.length_range]
  omega

/-! Blocks of SB -/

theorem blockAt_eq_take_drop (v : Variant) (s : List Byte) (j : Nat) :
    blockAt v s j = (s.drop (j * v.blockBytes)).take v.blockBytes := slice_eq_take_drop s j v.blockBytes

/-- A slice may be cut at the end of the string. -/
theorem slice_min_length (s : List Byte) (a b : Nat) : slice s a (min s.length b) = slice s a b := by
  rw [slice, slice, Nat.min_comm, ← List.take_eq_take_min]

/-! The work on one lane (44_parallel_engine.md R167, R168) -/

/-- Finalizing lane i reads of SB its length and the blocks i and i + P. -/
theorem finalizeLane_congr {v : Variant} {p i : Nat} {sb sb' : List Byte} (hlen : sb.length = sb'.length)
    (hown : blockAt v sb i = blockAt v sb' i) (hsecond : blockAt v sb (i + p) = blockAt v sb' (i + p)) (n : Node) :
    finalizeLane v p sb i n = finalizeLane v p sb' i n := by
  simp only [finalizeLane, hlen, hown, hsecond]

/-! The root (44_parallel_engine.md R171) -/

/-- The root's value is the hash of the lane digests. -/
theorem rootEngine_digest (v : Variant) (rootBlock digests : List Byte) :
    nodeDigest v (rootEngine v rootBlock digests).node = closedHash v rootBlock digests true :=
  seqFinal_digest (seqAbsorb_holds (holds_start (Nat.zero_le _)) digests) true

/-- The digest of an engine with freshly started lanes that absorbs a message. -/
theorem parallel_digest {s : State} {key : List Byte} (hm : s.act.mode = .parallel)
    (hkey : key.length ≤ s.act.variant.keyBytes)
    (hlanes : s.lanes.take s.act.laneCount =
      (List.range s.act.laneCount).map fun i => nodeInit s.act.variant (laneParamBlock s.act i s.act.kl))
    (hsb : s.sb = copies s.act.laneCount (keyBlock s.act.variant key)) (message : List Byte) :
    nodeDigest s.act.variant (finishEngine (absorbBytes message s)).node = closedTreeHash s.act key message := by
  have hsplit := (List.take_append_drop s.act.laneCount s.lanes).symm
  rw [hlanes] at hsplit
  rw [finishEngine_of_parallel (by simpa using hm), absorbBytes_of_parallel hm, rootNode, rootEngine_digest,
    laneDigests_closed _ _ _ _ _ key message (fun i => laneParamBlock s.act i s.act.kl) hkey hsplit hsb]
  rfl

end Sys2Proof.Machine
end

section
/-! PROOFS. The statements on the parallel engine. -/

namespace Sys2Proof.Machine

/-- Settles O27: the start is `parStart` under the new KL; the statement's fields are those of LanePB written out. -/
theorem parallelStartLoadsLanesAndKeyBlocks : Obligations.ParallelStartLoadsLanesAndKeyBlocks := by
  intro s key hm hp hk v kl lane
  let s' : State := { s with act := { s.act with kl := kl } }
  have hlane : ∀ i, laneParamBlock s'.act i kl = paramBlock v (lane i) := fun i => by
    rw [laneParamBlock, treeFields_eq]
  refine ⟨toNat_keyLength hk, (parStart key s').lanes, engineStart_of_parallel hm key,
    parStart_lanes_length hp key, fun i hi => ?_, fun i hi hlt => parStart_lane_unused hi hlt key⟩
  rw [← hlane]
  exact parStart_lane_used hi key

/-- Settles O31, by the two cases of one byte. -/
theorem absorbOneByteParallel : Obligations.AbsorbOneByteParallel := by
  intro s b hs hm v p full
  have hlen : full.length = s.sb.length + 1 := List.length_append
  rw [absorb_byte_of_parallel hs hm]
  rcases parAbsorbByte_cases s.act.variant s.act.laneCount ⟨s.lanes, s.sb⟩ b with ⟨hfull, he⟩ | ⟨hfull, he⟩ <;>
    rw [← hlen] at hfull <;> rw [he]
  · refine ⟨fun hne => absurd hfull hne, fun _ => ⟨(batch v p ⟨s.lanes, full⟩).lanes, ?_, eachLane_length _ _ _,
      fun i n hn => ?_⟩⟩
    · rw [batch_sb _ _ _ hfull]
      rfl
    · rw [batch_lanes, hn, blockAt_eq_take_drop]
      rfl
  · exact ⟨fun _ => rfl, fun h => absurd h hfull⟩

/-- Settles O33: while the engine runs, absorbing in pieces is absorbing at once; otherwise both fail in the same way
(`exec_absorb_append`). -/
theorem absorbSplitsAnywhere : Obligations.AbsorbSplitsAnywhere := fun _ _ _ _ h => (exec_absorb_append h).symm

/-- Settles O35: each lane's work is a function of the lane and of its own blocks. -/
theorem lanesDoNotInterfere : Obligations.LanesDoNotInterfere := by
  intro v p i e e' hlane hlen hown hsecond
  constructor
  · rw [batch_lanes, batch_lanes, hlane, hown]
  · simp only [finalizeLanes_get, hlane, finalizeLane_congr hlen hown hsecond]

/-- Settles O37: the lanes are those of `finalizeLanes`, each case of a lane one of `finalizeLane`. -/
theorem finalOutputsTheParallelDigest : Obligations.FinalOutputsTheParallelDigest := by
  intro s olen hs hm hd v bb p root
  have hroot : rootParamBlock s.act = paramBlock v root := by rw [rootParamBlock, treeFields_eq]
  refine ⟨finalizeLanes v p ⟨s.lanes, s.sb⟩, ?_, eachLane_length _ _ _, fun i n hn => ?_⟩
  · rw [final_running hs hd, finishEngine_of_parallel hm, slice_zero, rootNode, hroot]
    rfl
  · intro last own second
    have hown : own = blockAt v s.sb i := slice_min_length _ _ _
    have hsecond : second = blockAt v s.sb (i + p) := slice_min_length _ _ _
    rw [finalizeLanes_get, hn, hown, hsecond]
    rcases Nat.lt_or_ge i p with hi | hi
    · simp only [Option.map_some, if_pos hi, if_neg (Nat.not_le.2 hi)]
      rfl
    · simp only [Option.map_some, if_neg (Nat.not_lt.2 hi), if_pos hi]

/-- Settles O40: the start leaves every lane's parameter block and key block in place (`parallel_digest`), and ABSORBs
add their payloads to the message. -/
theorem parallelDigestIsTheClosedForm : Obligations.ParallelDigestIsTheClosedForm := by
  intro start key s s0 payloads olen hstart h hr hm hd
  obtain ⟨base, f, hf, hk, rfl⟩ := start_of_success hstart h hr
  have hmode : base.act.mode = .parallel := by simpa using hm
  obtain ⟨t, ht, hresp⟩ := execAll_absorbs_final hf hd payloads
  refine ⟨t, ht, ?_⟩
  rw [hresp, parallel_digest hm]
  all_goals rw [engineStart_of_parallel hmode]
  · exact hk
  · exact List.take_left' (by simp)
  · rfl

end Sys2Proof.Machine
end

section
/-! PROOFS. The register file: what a write that is accepted stores, and what a read of it gives. -/

namespace Sys2Proof.Machine

/-! Bytes of one-byte registers -/

theorem bytesLE_one (b : BitVec 8) : bytesLE 1 b.toNat = [b] := by simp [bytesLE]

theorem ofNat_leNat_singleton (b : Byte) : BitVec.ofNat 8 (leNat [b]) = b := by simp [leNat]

/-- Bits [7:3] of CTRL are zero exactly in the values below 8 (10_state.md R24). -/
theorem ctrl_reserved_eq_zero_iff {b : BitVec 8} : b.extractLsb' 3 5 = 0 ↔ b.toNat < 8 := by
  have hb := b.isLt
  rw [← BitVec.toNat_inj, BitVec.extractLsb'_toNat, Nat.shiftRight_eq_div_pow,
    show (0 : BitVec 5).toNat = 0 from rfl]
  omega

/-! Accepted writes -/

theorem write_fixed {c : Cfg} {reg : Nat} {payload : List Byte} (hreg : reg ≤ 7)
    (hlen : payload.length = regWidth reg) (hctrl : reg = 0 → leNat payload < 8) :
    c.write reg payload = some (c.setFixed reg (leNat payload)) := by
  rw [Cfg.write, if_neg (by omega), if_pos hreg, if_neg (not_not.2 hlen), if_neg]
  rintro ⟨hzero, hdiv⟩
  have := hctrl hzero
  omega

theorem write_salt {c : Cfg} {payload : List Byte} (hlen : payload.length ≤ 16) :
    c.write 8 payload = some { c with salt := ByteStore.ofPayload payload } := by
  simp [Cfg.write, hlen]

theorem write_personal {c : Cfg} {payload : List Byte} (hlen : payload.length ≤ 16) :
    c.write 9 payload = some { c with personal := ByteStore.ofPayload payload } := by
  simp [Cfg.write, hlen]

/-- The three kinds of write that WRCFG accepts (45_commands.md R203). -/
theorem write_cases {c c' : Cfg} {reg : Nat} {payload : List Byte} (h : c.write reg payload = some c') :
    (reg ≤ 7 ∧ payload.length = regWidth reg ∧ c' = c.setFixed reg (leNat payload)) ∨
    (reg = 8 ∧ payload.length ≤ 16 ∧ c' = { c with salt := ByteStore.ofPayload payload }) ∨
    (reg = 9 ∧ payload.length ≤ 16 ∧ c' = { c with personal := ByteStore.ofPayload payload }) := by
  simp only [Cfg.write] at h
  split_ifs at h with hreserved hfixed hwidth hctrl hlong hsalt
  all_goals obtain rfl := Option.some.inj h
  · exact .inl ⟨hfixed, not_not.1 hwidth, rfl⟩
  · exact .inr (.inl ⟨hsalt, by omega, rfl⟩)
  · exact .inr (.inr ⟨by omega, by omega, rfl⟩)

/-! Reads -/

theorem read_fixed {c : Cfg} {reg : Nat} (hreg : reg ≤ 7) :
    c.read reg = some (bytesLE (regWidth reg) (c.fixedValue reg)) := by
  rw [Cfg.read, if_neg (by omega), if_pos hreg]

/-- A register reads back the payload that was written to it. -/
theorem read_of_write {c c' : Cfg} {reg : Nat} {payload : List Byte} (h : c.write reg payload = some c') :
    c'.read reg = some payload := by
  rcases write_cases h with ⟨hreg, hlen, rfl⟩ | ⟨rfl, hlen, rfl⟩ | ⟨rfl, hlen, rfl⟩
  · rw [read_fixed hreg, Cfg.fixedValue_setFixed c reg hreg payload hlen]
  · exact congrArg some (ByteStore.content_ofPayload payload hlen)
  · exact congrArg some (ByteStore.content_ofPayload payload hlen)

end Sys2Proof.Machine
end

section
/-! PROOFS. What each command answers, told what its check finds; the FSM after a command; what a start depends on. -/

namespace Sys2Proof.Machine

/-! WRCFG and RDCFG where the register file accepts the access -/

theorem wrcfg_of_write {s : State} {c : Cfg} {reg : BitVec 4} {payload : List Byte}
    (h : s.cfg.write reg.toNat payload = some c) : exec (.wrcfg reg payload) s =
      .next { s with cfg := c, errCode := .ok, resp := some ⟨.ok, []⟩ } := by
  simp only [exec, execWrcfg, h, transact_none]
  rfl

theorem rdcfg_of_read {s : State} {reg : BitVec 4} {out : List Byte} (h : s.cfg.read reg.toNat = some out) :
    exec (.rdcfg reg) s = .next { s with resp := some ⟨.ok, out⟩ } := by
  simp only [exec, execRdcfg, h, transact_none]
  rfl

/-! INIT -/

theorem init_of_failed_check {s : State} {code : ResultCode} (h : initCheck s = some code) :
    exec .init s = .next (s.failedWith code) := by
  simp only [exec, execInit, h, transact_some, State.raise_eq_failedWith]

/-- The checks of INIT as the rule words them (45_commands.md R205). -/
theorem initCheck_eq (s : State) : initCheck s =
    if ¬ (1 ≤ s.cfg.dl.toNat ∧ s.cfg.dl.toNat ≤ s.cfg.variant.digestBytes) then some .digestLen
    else if ¬ (s.cfg.mode = .parallel →
      s.cfg.fanout.toNat % 2 = 0 ∧ 2 ≤ s.cfg.fanout.toNat ∧ s.cfg.fanout.toNat ≤ s.lanesMax) then some .lanes
    else if ¬ (s.cfg.salt.len = 0 ∨ s.cfg.salt.len = s.cfg.variant.saltBytes) then some .saltLen
    else if ¬ (s.cfg.personal.len = 0 ∨ s.cfg.personal.len = s.cfg.variant.saltBytes) then some .personalLen
    else if ¬ (s.cfg.mode = .sequential → s.cfg.variant = .s → s.cfg.nodeOffset.toNat < 2 ^ 48) then
      some .nodeOffset
    else none := by
  simp only [initCheck, laneCountOk_iff, saltLenOk_iff, Classical.not_imp, not_lt, ge_iff_le]

/-! KEY -/

theorem key_of_failed_check {s : State} {key : List Byte} {code : ResultCode}
    (h : keyCheck s key.length = some code) : exec (.key key) s = .next (s.failedWith code) := by
  simp only [exec, execKey, h, transact_some, State.raise_eq_failedWith]

theorem key_of_check {s : State} {key : List Byte} (h : keyCheck s key.length = none) : exec (.key key) s =
    .next { engineStart key s with fsm := .buffering, errCode := .ok, resp := some ⟨.ok, []⟩ } := by
  simp only [exec, execKey, h, transact_none]
  rfl

theorem keyCheck_of_unconfigured {s : State} (hu : s.fsm = .unconfigured) (n : Nat) :
    keyCheck s n = some .badState := if_pos hu

theorem keyCheck_of_bad_length {s : State} {n : Nat} (hu : s.fsm ≠ .unconfigured)
    (hn : n = 0 ∨ s.act.variant.keyBytes < n) : keyCheck s n = some .keyLen := by
  rw [keyCheck, if_neg hu, if_pos (by omega)]

/-- A key of an accepted length is checked against one block. -/
theorem keyCheck_of_length {s : State} {n : Nat} (hu : s.fsm ≠ .unconfigured) (hpos : 1 ≤ n)
    (hle : n ≤ s.act.variant.keyBytes) : keyCheck s n =
      if n + s.act.salt.len + s.act.personal.len > s.act.variant.blockBytes then some .keyBlock else none := by
  rw [keyCheck, if_neg hu, if_neg (not_not.2 ⟨hpos, hle⟩)]

/-! FINAL -/

theorem final_of_failed_check {s : State} {olen : BitVec 8} {code : ResultCode}
    (h : finalCheck s olen.toNat = some code) : exec (.final olen) s = .next (s.failedWith code) := by
  simp only [exec, execFinal, h, transact_some, State.raise_eq_failedWith]

theorem finalCheck_of_not_running {s : State} (hs : s.fsm = .unconfigured ∨ s.fsm = .finalized) (n : Nat) :
    finalCheck s n = some .badState := by
  rw [finalCheck, not_running_iff.2 hs, if_pos Bool.false_ne_true]

theorem finalCheck_of_short {s : State} {n : Nat} (hs : s.fsm = .empty ∨ s.fsm = .buffering)
    (hn : n < s.act.dl.toNat) : finalCheck s n = some .outBuf := by
  rw [finalCheck, if_neg (not_not.2 (running_iff.2 hs)), if_pos hn]

/-! RESET -/

theorem reset_of_unconfigured {s : State} (hu : s.fsm = .unconfigured) :
    exec .reset s = .next (s.failedWith .badState) := by
  simp only [exec, execReset, if_pos hu, transact_some, State.raise_eq_failedWith]

theorem reset_of_configured {s : State} (hu : s.fsm ≠ .unconfigured) : exec .reset s =
    .next { engineStart [] s with fsm := .empty, errCode := .ok, resp := some ⟨.ok, []⟩ } := by
  simp only [exec, execReset, if_neg hu, transact_none]
  rfl

/-- A start sets KL anew, so it does not read the one of before. -/
theorem engineStart_kl (kl : BitVec 8) (key : List Byte) (s : State) :
    engineStart key { s with act := { s.act with kl := kl } } = engineStart key s := rfl

/-- The engine that a start leaves is made from the parameters and the number of lanes. -/
theorem engineStart_congr {s s' : State} (hmax : s.lanesMax = s'.lanesMax) (hact : s.act = s'.act) (key : List Byte) :
    (engineStart key s).act = (engineStart key s').act ∧ (engineStart key s).node = (engineStart key s').node ∧
    (engineStart key s).buf = (engineStart key s').buf ∧ (engineStart key s).lanes = (engineStart key s').lanes ∧
    (engineStart key s).sb = (engineStart key s').sb := by
  cases hm : s.act.mode with
  | sequential =>
    rw [engineStart_of_sequential hm, engineStart_of_sequential (hact ▸ hm)]
    simp only [seqStart, hact, hmax, and_self]
  | parallel =>
    rw [engineStart_of_parallel hm, engineStart_of_parallel (hact ▸ hm)]
    simp only [parStart, hact, hmax, and_self]

/-! The transition table (45_commands.md R213) -/

/-- The dashes of the table: the command fails with E_STATE in this FSM state. -/
def Dash (f : Fsm) : Instr → Prop
  | .key _ | .reset => f = .unconfigured
  | .absorb _ | .final _ => f = .unconfigured ∨ f = .finalized
  | _ => False

/-- The table's next FSM state of a command that succeeds. -/
def nextFsm (f : Fsm) : Instr → Fsm
  | .wrcfg _ _ | .rdcfg _ | .rdstat => f
  | .init | .reset => .empty
  | .key _ => .buffering
  | .absorb payload => if payload = [] then f else .buffering
  | .final _ => .finalized
  | .zeroize => .unconfigured

/-- A command fails, with E_STATE exactly at a dash, or succeeds where there is no dash and takes the FSM where the
table says. -/
theorem exec_by_table {i : Instr} {s t : State} (h : exec i s = .next t) :
    (∃ c, c ≠ .ok ∧ (c = .badState ↔ Dash s.fsm i) ∧ t = s.raise c) ∨
    (¬ Dash s.fsm i ∧ t.fsm = nextFsm s.fsm i ∧ ∃ out, t.resp = some ⟨.ok, out⟩) := by
  cases i with
  | wrcfg reg payload =>
    rcases wrcfg_cases h with ⟨-, rfl⟩ | ⟨c, -, rfl⟩
    · exact .inl ⟨_, by decide, by simp [Dash], rfl⟩
    · exact .inr ⟨id, rfl, _, rfl⟩
  | rdcfg reg =>
    rcases rdcfg_cases h with ⟨-, rfl⟩ | ⟨out, -, rfl⟩
    · exact .inl ⟨_, by decide, by simp [Dash], rfl⟩
    · exact .inr ⟨id, rfl, _, rfl⟩
  | init =>
    rcases init_cases h with ⟨c, hc, rfl⟩ | ⟨-, rfl⟩
    · obtain ⟨hok, hstate, -⟩ := initCheck_ne_ok hc
      exact .inl ⟨c, hok, iff_of_false hstate id, rfl⟩
    · exact .inr ⟨id, rfl, _, rfl⟩
  | key key =>
    rcases key_cases h with ⟨c, hc, rfl⟩ | ⟨hc, rfl⟩
    · obtain ⟨hok, hstate⟩ := keyCheck_ne_ok hc
      exact .inl ⟨c, hok, hstate, rfl⟩
    · exact .inr ⟨(keyCheck_none hc).1, rfl, _, rfl⟩
  | absorb payload =>
    rcases absorb_cases h with ⟨hr, rfl⟩ | ⟨hr, rfl⟩
    · exact .inl ⟨_, by decide, iff_of_true rfl (not_running_iff.1 hr), rfl⟩
    · refine .inr ⟨fun hd => ?_, ?_, _, rfl⟩
      · simp [not_running_iff.2 hd] at hr
      · cases payload <;> rfl
  | final olen =>
    rcases final_cases h with ⟨c, hc, rfl⟩ | ⟨hc, rfl⟩
    · rcases finalCheck_cases hc with ⟨hr, rfl⟩ | ⟨hr, -, rfl⟩
      · exact .inl ⟨_, by decide, iff_of_true rfl (not_running_iff.1 hr), rfl⟩
      · refine .inl ⟨_, by decide, iff_of_false (by decide) fun hd => ?_, rfl⟩
        simp [not_running_iff.2 hd] at hr
    · refine .inr ⟨fun hd => ?_, rfl, _, rfl⟩
      simp [finalCheck_of_not_running hd] at hc
  | reset =>
    rcases reset_cases h with ⟨hu, rfl⟩ | ⟨hu, rfl⟩
    · exact .inl ⟨_, by decide, iff_of_true rfl hu, rfl⟩
    · exact .inr ⟨hu, rfl, _, rfl⟩
  | zeroize => exact .inr ⟨id, by rw [zeroize_cases h]; rfl, _, by rw [zeroize_cases h]; rfl⟩
  | rdstat => exact .inr ⟨id, by rw [rdstat_cases h]; rfl, _, by rw [rdstat_cases h]; rfl⟩

/-! Steps that the host's duties bear on (45_commands.md R214) -/

theorem step_malformed {s : State} {t : Transaction} {rest : List HostMove} (hs : s.port = .transaction t :: rest)
    (hlen : t.payload.length ≠ plen t.cw) : step s = .refused .malformedTransaction := by
  simp only [step, hs, request, decode, if_neg hlen]

theorem step_earlyWord {s : State} {cw : BitVec 32} {rest : List HostMove} (hs : s.port = .earlyWord cw :: rest) :
    step s = .refused .earlyCommandWord := by
  simp only [step, hs, request]

/-- A transaction with its full payload leaves the port and gets a response. -/
theorem step_responds {s : State} {t : Transaction} {rest : List HostMove} (hs : s.port = .transaction t :: rest)
    (hlen : t.payload.length = plen t.cw) : ∃ s' r, step s = .next s' ∧ s'.port = rest ∧ s'.resp = some r := by
  by_cases hd : ∃ i, decode t = .ok i
  · obtain ⟨i, hi⟩ := hd
    obtain ⟨s', r, he, hr⟩ := exec_total i { s with port := rest }
    exact ⟨s', r, (step_of_decode hs hi).trans he, (exec_port_lanesMax he).1, hr⟩
  · exact ⟨_, _, step_of_not_decoded hs hlen (not_exists.1 hd), rfl, rfl⟩

end Sys2Proof.Machine
end

section
/-! PROOFS. The statements on the commands. -/

namespace Sys2Proof.Machine

/-- Settles O3, move by move. -/
theorem stepOfTheOtherHostMoves : Obligations.StepOfTheOtherHostMoves :=
  ⟨fun _ => step_idle, fun _ _ => step_powerOn, fun _ _ _ => step_malformed, fun _ _ _ => step_earlyWord⟩

/-- Settles O4, by the next move on the port; only an early word is refused, and it breaks a duty. -/
theorem dutifulHostIsNeverRefused : Obligations.DutifulHostIsNeverRefused := by
  intro s hs
  cases hp : s.port with
  | nil => exact ⟨s, step_idle hp, hs, nofun⟩
  | cons m rest =>
    obtain ⟨hm, hrest⟩ := List.forall_mem_cons.1 (hp ▸ hs : ∀ m' ∈ m :: rest, m'.dutiful)
    cases m with
    | powerOn => exact ⟨_, step_powerOn hp, hrest, nofun⟩
    | earlyWord cw => exact hm.elim
    | transaction tr =>
      obtain ⟨t, r, ht, hport, hr⟩ := step_responds hp hm
      exact ⟨t, ht, by rwa [State.dutiful, hport], fun _ _ heq => ⟨hport.trans (List.cons.inj heq).2, r, hr⟩⟩

/-- Settles O16, by the two outcomes of a command (`exec_by_table`). -/
theorem fsmFollowsTheTransitionTable : Obligations.FsmFollowsTheTransitionTable := by
  intro i s t r h hr
  have htable : (r.rc = .ok → t.fsm = nextFsm s.fsm i) ∧ (r.rc ≠ .ok → t.fsm = s.fsm) ∧
      (Dash s.fsm i → t = s.raise .badState) ∧ (r.rc = .badState → Dash s.fsm i) := by
    rcases exec_by_table h with ⟨c, hok, hdash, rfl⟩ | ⟨hdash, hfsm, out, hout⟩
    · obtain rfl := Option.some.inj hr
      exact ⟨fun hc => absurd hc hok, fun _ => rfl, fun hd => by rw [hdash.2 hd], hdash.1⟩
    · obtain rfl := Option.some.inj (hout.symm.trans hr)
      exact ⟨fun _ => hfsm, fun hne => absurd rfl hne, fun hd => absurd hd hdash, nofun⟩
  cases i <;> exact htable

/-- Settles O19: the register file accepts or refuses the write, and a fixed-width value is read little-endian. -/
theorem wrcfgWritesTheNamedRegister : Obligations.WrcfgWritesTheNamedRegister := by
  refine ⟨reservedBits_fail 1 _ (by decide) rfl, ?_⟩
  intro s payload writes illegal stored
  have refuse {reg : BitVec 4} (h : s.cfg.write reg.toNat payload = none) : illegal reg := wrcfg_of_write_none h
  have accept {reg : BitVec 4} {c : Cfg} (h : s.cfg.write reg.toNat payload = some c) : writes reg c :=
    wrcfg_of_write h
  refine ⟨fun reg hreg => refuse (write_eq_none_of_reserved hreg), fun reg hreg hlen => ?_, fun hlong => ?_,
    ?_, ?_, ?_, fun hlen => ?_⟩
  · exact refuse (write_eq_none_of_width hreg (regWidth_eq reg ▸ hlen))
  · exact ⟨refuse (write_eq_none_of_long (by decide) hlong), refuse (write_eq_none_of_long (by decide) hlong)⟩
  · rintro b rfl
    have byte {reg : BitVec 4} (hreg : reg.toNat ≤ 7) (hwidth : regWidth reg.toNat = 1)
        (hctrl : reg.toNat = 0 → b.toNat < 8) : writes reg (s.cfg.setFixed reg.toNat (leNat [b])) :=
      accept (write_fixed hreg hwidth.symm (by simpa [leNat] using hctrl))
    have hb := ofNat_leNat_singleton b
    refine ⟨fun hlarge => refuse (write_eq_none_of_ctrl (List.mem_singleton_self b) ?_), fun hsmall => ?_,
      ?_, ?_, ?_, ?_, ?_⟩
    · rw [Ne, ctrl_reserved_eq_zero_iff]
      omega
    · simpa [Cfg.setFixed, hb] using byte (reg := 0) (by decide) rfl fun _ => hsmall
    · simpa [Cfg.setFixed, hb] using byte (reg := 1) (by decide) rfl nofun
    · simpa [Cfg.setFixed, hb] using byte (reg := 2) (by decide) rfl nofun
    · simpa [Cfg.setFixed, hb] using byte (reg := 3) (by decide) rfl nofun
    · simpa [Cfg.setFixed, hb] using byte (reg := 6) (by decide) rfl nofun
    · simpa [Cfg.setFixed, hb] using byte (reg := 7) (by decide) rfl nofun
  · rintro b0 b1 b2 b3 rfl
    rw [← leNat_four]
    exact accept (write_fixed (by decide) rfl nofun)
  · rintro b0 b1 b2 b3 b4 b5 b6 b7 rfl
    rw [← leNat_eight]
    exact accept (write_fixed (by decide) rfl nofun)
  · have hstored : stored (ByteStore.ofPayload payload) := ⟨rfl, fun j => Vector.getElem_ofFn j.isLt⟩
    exact ⟨⟨_, hstored, accept (write_salt hlen)⟩, ⟨_, hstored, accept (write_personal hlen)⟩⟩

/-- Settles O20, register by register; the bytes of a wide register are its 8-bit fields (`bytesLE_eq_extract`). -/
theorem rdcfgOutputsTheNamedRegister : Obligations.RdcfgOutputsTheNamedRegister := by
  refine ⟨reservedBits_fail 2 _ (by decide) rfl, ?_⟩
  intro s reads
  have byte {reg : BitVec 4} {b : BitVec 8} (hreg : reg.toNat ≤ 7) (hwidth : regWidth reg.toNat = 1)
      (hb : s.cfg.fixedValue reg.toNat = b.toNat) : reads reg [b] := by
    refine rdcfg_of_read ?_
    rw [read_fixed hreg, hwidth, hb, bytesLE_one]
  refine ⟨byte (by decide) rfl rfl, byte (by decide) rfl rfl, byte (by decide) rfl rfl, byte (by decide) rfl rfl,
    rdcfg_of_read ?_, rdcfg_of_read ?_, byte (by decide) rfl rfl, byte (by decide) rfl rfl, rdcfg_of_read rfl,
    rdcfg_of_read rfl, fun hs => ctrl_reserved_eq_zero_iff.2 hs.cfg.ctrl,
    fun reg hreg => rdcfg_of_read_none (read_eq_none_of_reserved hreg)⟩
  · exact congrArg some (bytesLE_eq_extract 32 4 s.cfg.leafLen)
  · exact congrArg some (bytesLE_eq_extract 64 8 s.cfg.nodeOffset)

/-- Settles O21: a WRCFG that succeeds has written the register file, which reads back (`read_of_write`). -/
theorem readBackGivesTheWrittenPayload : Obligations.ReadBackGivesTheWrittenPayload := by
  intro reg payload s t h hr
  rcases wrcfg_cases h with ⟨-, rfl⟩ | ⟨c, hc, rfl⟩
  · exact absurd (rc_eq_ok_of_raise hr) (by decide)
  · exact rdcfg_of_read (read_of_write hc)

/-- Settles O22. -/
theorem zeroizeLeavesThePowerOnState : Obligations.ZeroizeLeavesThePowerOnState :=
  ⟨reservedBits_fail 8 _ (by decide) rfl, fun _ => ⟨rfl, powerOn_status _ _⟩⟩

/-- Settles O23: the response, which is all that RDSTAT writes, is no field of STATUS. -/
theorem rdstatOutputsStatus : Obligations.RdstatOutputsStatus := by
  refine ⟨reservedBits_fail 9 _ (by decide) rfl, ?_⟩
  intro s t
  have hbytes : bytesLE 4 s.status.toNat = [s.status.extractLsb' 0 8, s.status.extractLsb' 8 8,
      s.status.extractLsb' 16 8, s.status.extractLsb' 24 8] := bytesLE_eq_extract 32 4 s.status
  have hfirst : exec .rdstat s = .next (s.respond (bytesLE 4 s.status.toNat)) := rfl
  have hsecond : exec .rdstat t = .next (t.respond (bytesLE 4 s.status.toNat)) := rfl
  rw [hfirst, hsecond, hbytes]
  exact ⟨rfl, rfl⟩

/-- Settles O25: each failing check is reported where those before it pass (`initCheck_eq`). -/
theorem initActivatesTheConfiguration : Obligations.InitActivatesTheConfiguration := by
  refine ⟨reservedBits_fail 3 _ (by decide) rfl, ?_⟩
  intro s v m act digest lanes salt personal offset
  have hcheck : initCheck s = if ¬ digest then some .digestLen else if ¬ lanes then some .lanes
    else if ¬ salt then some .saltLen else if ¬ personal then some .personalLen
    else if ¬ offset then some .nodeOffset else none := initCheck_eq s
  refine ⟨fun hd => init_of_failed_check ?_, fun hd hl => init_of_failed_check ?_,
    fun hd hl hs => init_of_failed_check ?_, fun hd hl hs hp => init_of_failed_check ?_,
    fun hd hl hs hp ho => init_of_failed_check ?_, fun hd hl hs hp ho => init_of_check ?_⟩
  all_goals
    rw [hcheck]
    simp only [*, not_true_eq_false, not_false_eq_true, if_true, if_false]

/-- Settles O28, by the order of the checks in `keyCheck`. -/
theorem keyRestartsTheEngineKeyed : Obligations.KeyRestartsTheEngineKeyed := by
  refine ⟨reservedBits_fail 4 _ (by decide) rfl, fun s key => ⟨fun hu => ?_, fun hu hlen => ?_,
    fun hu hpos hle => ⟨fun hlong => ?_, fun hfit => ?_⟩⟩⟩
  · exact key_of_failed_check (keyCheck_of_unconfigured hu _)
  · exact key_of_failed_check (keyCheck_of_bad_length hu hlen)
  · exact key_of_failed_check ((keyCheck_of_length hu hpos hle).trans (if_pos hlong))
  · exact key_of_check ((keyCheck_of_length hu hpos hle).trans (if_neg (Nat.not_lt.2 hfit)))

/-- Settles O29. -/
theorem resetRestartsTheEngineUnkeyed : Obligations.ResetRestartsTheEngineUnkeyed :=
  ⟨reservedBits_fail 7 _ (by decide) rfl, fun s => ⟨reset_of_unconfigured, fun hu =>
    ⟨reset_of_configured hu, engineStart_act [] s, engineStart_cfg [] s, engineStart_errSticky [] s⟩⟩⟩

/-- Settles O32: while the engine runs, the payload is folded into the engine of the active mode. -/
theorem absorbCompletesWhileRunning : Obligations.AbsorbCompletesWhileRunning := by
  refine ⟨reservedBits_fail 5 _ (by decide) rfl, fun s payload => ⟨absorb_not_running, fun hs => ⟨?_, ?_, ?_⟩⟩⟩
  · rintro rfl
    rw [absorb_running hs, absorbBytes_nil]
    rfl
  · intro hne hm e
    rw [absorb_running hs, absorbBytes_of_sequential hm, if_pos (List.length_pos_of_ne_nil hne)]
    rfl
  · intro hne hm e
    rw [absorb_running hs, absorbBytes_of_parallel hm, if_pos (List.length_pos_of_ne_nil hne)]
    rfl

/-- Settles O38: the checks in order, then the final operation of the active mode. -/
theorem finalCompletesWhileRunning : Obligations.FinalCompletesWhileRunning := by
  refine ⟨reservedBits_fail 6 _ (by decide) rfl, fun s olen => ⟨fun hs => ?_, fun hs =>
    ⟨fun hshort => ?_, fun hd hm => ?_, fun hd hm => ?_⟩⟩⟩
  · exact final_of_failed_check (finalCheck_of_not_running hs _)
  · exact final_of_failed_check (finalCheck_of_short hs hshort)
  · rw [final_running hs hd, finishEngine_of_sequential hm, slice_zero]
    rfl
  · rw [final_running hs hd, finishEngine_of_parallel hm, slice_zero]
    rfl

/-- Settles O54: a start reads neither the key nor the message of before (`engineStart_congr`). -/
theorem resetForgetsKeyAndMessage : Obligations.ResetForgetsKeyAndMessage := by
  intro s s' t t' hu hu' hmax hact h h'
  rw [reset_of_configured hu] at h
  rw [reset_of_configured hu'] at h'
  obtain rfl := Host.Outcome.next.inj h
  obtain rfl := Host.Outcome.next.inj h'
  have hengine := engineStart_congr (s := { s with act := { s.act with kl := 0 } })
    (s' := { s' with act := { s'.act with kl := 0 } }) hmax hact []
  rw [engineStart_kl, engineStart_kl] at hengine
  exact ⟨rfl, hengine⟩

end Sys2Proof.Machine
end

section
/-! PROOFS. The error registers after a command and after a step, and the checks of INIT as failures in their order. -/

namespace Sys2Proof.Machine

/-! A command that fails (60_exceptions.md R241) -/

/-- A command that answers a code other than OK has raised it, and done nothing else. -/
theorem exec_eq_raise_of_rc_ne_ok {i : Instr} {s t : State} {r : Response} (h : exec i s = .next t)
    (hr : t.resp = some r) (hne : r.rc ≠ .ok) : t = s.raise r.rc := by
  rcases exec_raise_or_respond h with ⟨c, -, rfl⟩ | ⟨done, out, -, rfl⟩
  · obtain rfl := Option.some.inj hr
    rfl
  · obtain rfl := Option.some.inj hr
    exact absurd rfl hne

/-- A step on a transaction runs the command it decodes to, or fails with E_ILLEGAL. -/
theorem step_transaction_cases {s t : State} {tr : Transaction} {rest : List HostMove}
    (hs : s.port = .transaction tr :: rest) (h : step s = .next t) :
    (∃ i, decode tr = .ok i ∧ exec i { s with port := rest } = .next t) ∨
    t = State.raise { s with port := rest } .illegal := by
  rcases step_cases h with ⟨hp, -⟩ | ⟨_, hp, -⟩ | ⟨tr', rest', i, hp, hi, he⟩ | ⟨tr', rest', hp, ht⟩
  · cases hs.symm.trans hp
  · cases hs.symm.trans hp
  · cases hs.symm.trans hp
    exact .inl ⟨i, hi, he⟩
  · cases hs.symm.trans hp
    exact .inr ht

/-! A command that succeeds (60_exceptions.md R242) -/

/-- ERRCODE after a command that succeeds where it was `c`. -/
def nextErrCode (c : ResultCode) : Instr → ResultCode
  | .rdcfg _ | .rdstat => c
  | _ => .ok

/-- ERR_STICKY after a command that succeeds where it was `sticky`. -/
def nextErrSticky (sticky : Bool) : Instr → Bool
  | .zeroize => false
  | _ => sticky

/-- A command raises a code other than OK, or leaves the error registers that R242 gives a success. -/
theorem exec_raise_or_errorRegisters {i : Instr} {s t : State} (h : exec i s = .next t) :
    (∃ c, c ≠ .ok ∧ t = s.raise c) ∨
    (t.errCode = nextErrCode s.errCode i ∧ t.errSticky = nextErrSticky s.errSticky i) := by
  cases i with
  | wrcfg reg payload =>
    rcases wrcfg_cases h with ⟨-, ht⟩ | ⟨c, -, rfl⟩
    · exact .inl ⟨_, by decide, ht⟩
    · exact .inr ⟨rfl, rfl⟩
  | rdcfg reg =>
    rcases rdcfg_cases h with ⟨-, ht⟩ | ⟨out, -, rfl⟩
    · exact .inl ⟨_, by decide, ht⟩
    · exact .inr ⟨rfl, rfl⟩
  | init =>
    rcases init_cases h with ⟨c, hc, ht⟩ | ⟨-, rfl⟩
    · exact .inl ⟨c, (initCheck_ne_ok hc).1, ht⟩
    · exact .inr ⟨rfl, engineStart_errSticky [] _⟩
  | key key =>
    rcases key_cases h with ⟨c, hc, ht⟩ | ⟨-, rfl⟩
    · exact .inl ⟨c, (keyCheck_ne_ok hc).1, ht⟩
    · exact .inr ⟨rfl, engineStart_errSticky key s⟩
  | absorb payload =>
    rcases absorb_cases h with ⟨-, ht⟩ | ⟨-, rfl⟩
    · exact .inl ⟨_, by decide, ht⟩
    · exact .inr ⟨rfl, absorbBytes_errSticky payload s⟩
  | final olen =>
    rcases final_cases h with ⟨c, hc, ht⟩ | ⟨-, rfl⟩
    · exact .inl ⟨c, finalCheck_ne_ok hc, ht⟩
    · exact .inr ⟨rfl, finishEngine_errSticky s⟩
  | reset =>
    rcases reset_cases h with ⟨-, ht⟩ | ⟨-, rfl⟩
    · exact .inl ⟨_, by decide, ht⟩
    · exact .inr ⟨rfl, engineStart_errSticky [] s⟩
  | zeroize => rw [zeroize_cases h]; exact .inr ⟨rfl, rfl⟩
  | rdstat => rw [rdstat_cases h]; exact .inr ⟨rfl, rfl⟩

theorem errorRegisters_of_success {i : Instr} {s t : State} {out : List Byte} (h : exec i s = .next t)
    (hr : t.resp = some ⟨.ok, out⟩) :
    t.errCode = nextErrCode s.errCode i ∧ t.errSticky = nextErrSticky s.errSticky i := by
  rcases exec_raise_or_errorRegisters h with ⟨c, hc, rfl⟩ | hreg
  · exact absurd (rc_eq_ok_of_raise hr) hc
  · exact hreg

/-- Only ZEROIZE clears ERR_STICKY. -/
theorem eq_zeroize_of_clears_errSticky {i : Instr} {s t : State} (h : exec i s = .next t)
    (hset : s.errSticky = true) (hclear : t.errSticky = false) : i = .zeroize := by
  rcases exec_raise_or_errorRegisters h with ⟨c, -, rfl⟩ | ⟨-, hsticky⟩
  · simp at hclear
  · cases i with
    | zeroize => rfl
    | _ => simp [nextErrSticky, hset, hclear] at hsticky

/-! The checks of INIT, each as it fails (60_exceptions.md R243) -/

theorem initCheck_eq_first_failing (s : State) : initCheck s =
    if s.cfg.dl = 0 ∨ s.cfg.variant.digestBytes < s.cfg.dl.toNat then some .digestLen
    else if s.cfg.mode = .parallel ∧ (s.cfg.fanout.toNat % 2 = 1 ∨ s.cfg.fanout.toNat < 2 ∨
      s.lanesMax < s.cfg.fanout.toNat) then some .lanes
    else if s.cfg.salt.len ≠ 0 ∧ s.cfg.salt.len ≠ s.cfg.variant.saltBytes then some .saltLen
    else if s.cfg.personal.len ≠ 0 ∧ s.cfg.personal.len ≠ s.cfg.variant.saltBytes then some .personalLen
    else if s.cfg.mode = .sequential ∧ s.cfg.variant = .s ∧ 2 ^ 48 ≤ s.cfg.nodeOffset.toNat then some .nodeOffset
    else none := by
  have hzero : s.cfg.dl = 0 ↔ s.cfg.dl.toNat < 1 := by
    rw [Nat.lt_one_iff, BitVec.toNat_eq]; rfl
  simp only [initCheck_eq, hzero, not_and_or, not_or, Classical.not_imp, not_le, not_lt, Nat.mod_two_not_eq_zero, ne_eq]

end Sys2Proof.Machine
end

section
/-! PROOFS. The statements on errors and on the order of the checks. -/

namespace Sys2Proof.Machine

/-- Settles O13: the answer was raised by the command, or by the port for an illegal word. -/
theorem failedCommandChangesOnlyTheErrorRegisters : Obligations.FailedCommandChangesOnlyTheErrorRegisters := by
  refine ⟨fun i s t r h hr hne => exec_eq_raise_of_rc_ne_ok h hr hne, fun s t tr rest r hs h hr hne => ?_⟩
  rcases step_transaction_cases hs h with ⟨i, -, he⟩ | rfl
  · exact exec_eq_raise_of_rc_ne_ok he hr hne
  · obtain rfl := Option.some.inj hr
    rfl

/-- Settles O14: the registers by `exec_raise_or_errorRegisters`, and the clearing of ERR_STICKY by the kinds of step. -/
theorem successfulCommandErrorRegisters : Obligations.SuccessfulCommandErrorRegisters := by
  refine ⟨fun i s t out h hr => ?_, fun s t rest hs h => ?_, fun s t h hset hclear => ?_⟩
  · have hreg := errorRegisters_of_success h hr
    cases i <;> exact hreg
  · obtain rfl := Host.Outcome.next.inj ((step_powerOn hs).symm.trans h)
    rfl
  · rcases step_cases h with ⟨-, rfl⟩ | ⟨rest, hs, -⟩ | ⟨tr, rest, i, hs, hi, he⟩ | ⟨tr, rest, -, rfl⟩
    · simp [hset] at hclear
    · exact .inl ⟨rest, hs⟩
    · obtain rfl := eq_zeroize_of_clears_errSticky he hset hclear
      exact .inr ⟨tr, rest, hs, hi⟩
    · simp at hclear

/-- Settles O18: for each command, what its check finds where those before it pass. -/
theorem firstFailingCheckIsReported : Obligations.FirstFailingCheckIsReported := by
  refine ⟨fun s rest t hs hlen hd => step_of_not_decoded hs hlen hd, ?_⟩
  intro s nn sl fails digest lanes salt personal offset
  have hcheck : initCheck s = if digest then some .digestLen else if lanes then some .lanes
    else if salt then some .saltLen else if personal then some .personalLen
    else if offset then some .nodeOffset else none := initCheck_eq_first_failing s
  obtain ⟨-, hkey⟩ := keyRestartsTheEngineKeyed
  refine ⟨fun hd => init_of_failed_check ?_, fun hd hl => init_of_failed_check ?_,
    fun hd hl hs => init_of_failed_check ?_, fun hd hl hs hp => init_of_failed_check ?_,
    fun hd hl hs hp ho => init_of_failed_check ?_, fun key => ?_, fun _ => absorb_not_running,
    fun _ hs => final_of_failed_check (finalCheck_of_not_running hs _),
    fun _ hs hshort => final_of_failed_check (finalCheck_of_short hs hshort), reset_of_unconfigured⟩
  case refine_6 =>
    obtain ⟨hstate, hlen, hblock⟩ := hkey s key
    exact ⟨hstate, hlen, fun hu hpos hle => (hblock hu hpos hle).1⟩
  all_goals
    rw [hcheck]
    simp only [*, if_true, if_false]

end Sys2Proof.Machine
end

section
/-! PROOFS. CFG, the staged configuration, is kept apart from the engine: what runs the engine neither reads nor writes
it. -/

namespace Sys2Proof.Machine

/-! The operations of the engine under another CFG -/

theorem engineStart_withCfg (key : List Byte) (s : State) (c : Cfg) :
    engineStart key { s with cfg := c } = { engineStart key s with cfg := c } := by
  simp only [engineStart]
  split <;> rfl

theorem absorbBytes_withCfg (payload : List Byte) (s : State) (c : Cfg) :
    absorbBytes payload { s with cfg := c } = { absorbBytes payload s with cfg := c } := by
  simp only [absorbBytes]
  split <;> rfl

theorem finishEngine_withCfg (s : State) (c : Cfg) :
    finishEngine { s with cfg := c } = { finishEngine s with cfg := c } := by
  simp only [finishEngine]
  split <;> rfl

/-- The command frame takes another CFG from the state before and from the completed one to its answer. -/
theorem transact_withCfg {s done t : State} {check : Option ResultCode} {out : List Byte} (c : Cfg)
    (h : transact s check done out = .next t) :
    transact { s with cfg := c } check { done with cfg := c } out = .next { t with cfg := c } := by
  rcases transact_cases h with ⟨code, rfl, rfl⟩ | ⟨rfl, rfl⟩ <;> rfl

/-! INIT takes the staged values over (45_commands.md R205) -/

theorem init_act_of_success {s t : State} {out : List Byte} (h : exec .init s = .next t)
    (hr : t.resp = some ⟨.ok, out⟩) : t.act = s.cfg.toAct := by
  rcases init_cases h with ⟨code, hcode, rfl⟩ | ⟨-, rfl⟩
  · exact absurd (rc_eq_ok_of_raise hr) (initCheck_ne_ok hcode).1
  · exact engineStart_act [] _

end Sys2Proof.Machine
end

section
/-! PROOFS. The statement on staging. -/

namespace Sys2Proof.Machine

/-- Settles O53: the checks of the engine's commands do not read CFG, and their effects commute with a change of it. -/
theorem stagingDoesNotDisturbTheComputation : Obligations.StagingDoesNotDisturbTheComputation := by
  refine ⟨fun reg payload s t h => ?_, fun i s t c hi h => ?_, fun s t h => ?_, fun s t h hr => ?_⟩
  · rcases wrcfg_cases h with ⟨-, rfl⟩ | ⟨_, -, rfl⟩ <;> exact ⟨rfl, rfl, rfl, rfl, rfl, rfl⟩
  · cases i with
    | key key =>
      rw [exec, execKey, engineStart_withCfg]
      exact transact_withCfg c h
    | absorb payload =>
      rw [exec, execAbsorb, absorbBytes_withCfg]
      exact transact_withCfg c h
    | final olen =>
      rw [exec, execFinal, finishEngine_withCfg]
      exact transact_withCfg c h
    | reset =>
      rw [exec, execReset, engineStart_withCfg]
      exact transact_withCfg c h
    | rdstat => rw [rdstat_cases h]; rfl
    | wrcfg | rdcfg | init | zeroize => exact hi.elim
  · rcases reset_cases h with ⟨-, rfl⟩ | ⟨-, rfl⟩
    · rfl
    · rw [State.respond_act, engineStart_act]
  · rw [init_act_of_success h hr]
    exact ⟨rfl, rfl, rfl, rfl, rfl, rfl, rfl, rfl, rfl, rfl, rfl, rfl⟩

end Sys2Proof.Machine
end
